-- ==== Sys2Proof/Word.lean ====
section
/-! DEFINITION. The words the block is made of: a 32-bit register word and a byte lane of a bus. -/

namespace Sys2Proof

/-- A 32-bit word: a register, a command word or a binary32 value (10_state.md R33, 00_scope.md R7). -/
abbrev Word := BitVec 32

/-- One byte lane of a byte-addressed bus (20_memory.md R73). -/
abbrev Byte := BitVec 8

end Sys2Proof
end

