-- ==== Sys2Proof/Syntax.lean ====
section
/-! DEFINITION. The command set: one constructor per row of spec/opcode_table.json (30_encoding.md R95). -/

namespace Sys2Proof

/-- The seven commands of 30_encoding.md R95. The create commands carry the two fields of format C
(R91): `sb`, the sideband code, with code 3 among its values because a create word with SB = 3
decodes as that create command (R92), and `sc`, true if the carrier is suppressed (R93).
The field types hold exactly the values that the encoding admits. -/
inductive Instr where
  /-- NOP (40_common.md R112). -/
  | nop
  /-- MOD.CREATE (41_modulator.md R130). -/
  | modCreate (sb : BitVec 2) (sc : Bool)
  /-- MOD.STEP (41_modulator.md R131). -/
  | modStep
  /-- MOD.DESTROY (41_modulator.md R136). -/
  | modDestroy
  /-- DEM.CREATE (42_demodulator.md R160). -/
  | demCreate (sb : BitVec 2) (sc : Bool)
  /-- DEM.STEP (42_demodulator.md R161). -/
  | demStep
  /-- DEM.DESTROY (42_demodulator.md R170). -/
  | demDestroy
deriving DecidableEq, Repr

end Sys2Proof
end

