-- ==== Sys2Proof/Decode.lean ====
section
/-! DEFINITION. The command decoder, written from 30_encoding.md R91 to R96, and the encoder, written
from the same formats. -/

namespace Sys2Proof

/-! ### Fields of a command word (30_encoding.md R91) -/

/-- `OP`, bits 7:0. -/
def opField (w : Word) : BitVec 8 := w.extractLsb' 0 8
/-- `SB`, bits 9:8 of format C. -/
def sbField (w : Word) : BitVec 2 := w.extractLsb' 8 2
/-- `SC`, bit 10 of format C. -/
def scField (w : Word) : Bool := w.getLsbD 10
/-- `RSVD`, bits 31:11 of format C. -/
def rsvdC (w : Word) : BitVec 21 := w.extractLsb' 11 21
/-- `RSVD`, bits 31:8 of format S. -/
def rsvdS (w : Word) : BitVec 24 := w.extractLsb' 8 24

/-- Why a word is no command (30_encoding.md R96). -/
inductive Illegal where
  /-- An `OP` value that the opcode map does not hold. -/
  | unknownOpcode
  /-- A known `OP` with a bit set in its reserved field. -/
  | reservedBits
deriving DecidableEq, Repr

/-- What the decoder answers. -/
inductive Decoded where
  | command (i : Instr)
  | illegal (why : Illegal)
deriving DecidableEq, Repr

/-- A word of format S, legal if its reserved field is zero. -/
def formatS (w : Word) (i : Instr) : Decoded :=
  if rsvdS w = 0 then .command i else .illegal .reservedBits

/-- A word of format C, legal if its reserved field is zero. -/
def formatC (w : Word) (create : BitVec 2 → Bool → Instr) : Decoded :=
  if rsvdC w = 0 then .command (create (sbField w) (scField w)) else .illegal .reservedBits

/-- The decoder, total on every word (30_encoding.md R95, R96). -/
def decode (w : Word) : Decoded :=
  if opField w = 0x00#8 then formatS w .nop
  else if opField w = 0x01#8 then formatC w .modCreate
  else if opField w = 0x02#8 then formatS w .modStep
  else if opField w = 0x03#8 then formatS w .modDestroy
  else if opField w = 0x11#8 then formatC w .demCreate
  else if opField w = 0x12#8 then formatS w .demStep
  else if opField w = 0x13#8 then formatS w .demDestroy
  else .illegal .unknownOpcode

/-- A word of format S from its opcode. -/
def wordS (op : BitVec 8) : Word := 0#24 ++ op

/-- A word of format C from its opcode and fields. -/
def wordC (op : BitVec 8) (sb : BitVec 2) (sc : Bool) : Word := 0#21 ++ BitVec.ofBool sc ++ sb ++ op

/-- The encoder (30_encoding.md R91, R95). -/
def encode : Instr → Word
  | .nop => wordS 0x00#8
  | .modCreate sb sc => wordC 0x01#8 sb sc
  | .modStep => wordS 0x02#8
  | .modDestroy => wordS 0x03#8
  | .demCreate sb sc => wordC 0x11#8 sb sc
  | .demStep => wordS 0x12#8
  | .demDestroy => wordS 0x13#8

/-- The instruction that the decoder reads from a word of `nbits` bits numbered as
spec/opcode_table.json numbers them; the bits above are zero. A command is one word, delimited by
its bus transaction (30_encoding.md R90). -/
def decodeTableWord (nbits w : Nat) : Option Instr :=
  match decode (BitVec.ofNat 32 (w % 2 ^ nbits)) with
  | .command i => some i
  | .illegal _ => none

/-! ### The opcode map (30_encoding.md R95) -/

/-- One row of the opcode map: `match`, the word with every free field zero, and `mask`, the bits that
must equal it. -/
structure OpcodeRow where
  mnemonic : String
  pattern : Word
  mask : Word
deriving DecidableEq, Repr

/-- The seven rows of 30_encoding.md R95. -/
def opcodeMap : List OpcodeRow :=
  [⟨"NOP", 0x00000000#32, 0xFFFFFFFF#32⟩,
   ⟨"MOD.CREATE", 0x00000001#32, 0xFFFFF8FF#32⟩,
   ⟨"MOD.STEP", 0x00000002#32, 0xFFFFFFFF#32⟩,
   ⟨"MOD.DESTROY", 0x00000003#32, 0xFFFFFFFF#32⟩,
   ⟨"DEM.CREATE", 0x00000011#32, 0xFFFFF8FF#32⟩,
   ⟨"DEM.STEP", 0x00000012#32, 0xFFFFFFFF#32⟩,
   ⟨"DEM.DESTROY", 0x00000013#32, 0xFFFFFFFF#32⟩]

/-- A word encodes a row if its masked bits equal the row's pattern (30_encoding.md R95). -/
def matchesRow (w : Word) (r : OpcodeRow) : Bool := (w &&& r.mask) == r.pattern

/-- The name of a command's row in the opcode map. -/
def mnemonicOf : Instr → String
  | .nop => "NOP"
  | .modCreate _ _ => "MOD.CREATE"
  | .modStep => "MOD.STEP"
  | .modDestroy => "MOD.DESTROY"
  | .demCreate _ _ => "DEM.CREATE"
  | .demStep => "DEM.STEP"
  | .demDestroy => "DEM.DESTROY"

end Sys2Proof
end

