-- ==== Sys2Proof/Machine/Access.lean ====
section
/-! DEFINITION. The host's bus transactions and the other events from outside the block
(43_host_access.md R200 to R207, 70_reset_and_hazards.md R250). -/

namespace Sys2Proof.Machine

/-- Who issues an access: the one host that owns the block, or any other bus master (60_exceptions.md R232). -/
inductive Master where
  | owner
  | other
deriving DecidableEq, Repr

/-- The word of a host write: a literal word, or a host variable that an earlier read filled (30_encoding.md R98). -/
inductive Value where
  | word (w : Word)
  | hvar (t : Nat)
deriving DecidableEq, Repr

/-- A write of a value, or a read whose result may go to a host variable (43_host_access.md R200, R201). -/
inductive AccessKind where
  | write (v : Value)
  | read (dst : Option Nat)
deriving DecidableEq, Repr

/-- One bus access: its master, its width in bytes and its byte offset in the register window. -/
structure Access where
  master : Master
  width : Nat
  off : Nat
  kind : AccessKind
deriving DecidableEq, Repr

/-- What reaches the block from outside: a host access, or the platform's reset input (70_reset_and_hazards.md R250). -/
inductive HostEvent where
  | access (a : Access)
  | reset
deriving DecidableEq, Repr

end Sys2Proof.Machine
end

