-- ==== Sys2Proof/Config.lean ====
section
/-! DEFINITION. The implementation parameters of 00_scope.md R6 and the one that the spec leaves OPEN. -/

namespace Sys2Proof

/-- The implementation parameters of 00_scope.md R6 (10_state.md R63: parameters, not state).
The datapath takes them as an argument, so a claim may quantify over them; `thisBlock`
(Sys2Proof/Machine/Block.lean) holds the values that the spec fixes for this block.
`BAD_ACCESS` has no field: a refused access has no step (20_memory.md R72). -/
structure Params where
  /-- `HILB_N`, the number of taps of the quadrature filter. -/
  hilbN : Nat
  /-- `HILB_COEF[0..N-1]`, binary32. -/
  hilbCoef : List Word
  /-- `PLL_KP`, the proportional gain of the carrier loop, binary32. -/
  pllKp : Word
  /-- `PLL_KI`, the integral gain of the carrier loop, binary32. -/
  pllKi : Word
  /-- `PLL_WMAX`, the bound on the frequency estimate, binary32. -/
  pllWmax : Word
  /-- `DDS_COS`, the oscillator's cosine on binary32 (00_scope.md R17). -/
  ddsCos : Word → Word
  /-- `DDS_SIN`, the oscillator's sine on binary32 (00_scope.md R17). -/
  ddsSin : Word → Word
  /-- `NAN_RESULT`, the NaN that an arithmetic operation produces (00_scope.md R10). -/
  nanResult : Word
  /-- `BLOCK_BASE`, the bus address of register offset 0. -/
  blockBase : Nat

/-- The 256-byte page at which the platform places the block's window. OPEN in the spec
(92_eei_decisions.md D34), so it has no value here (log entry 7). -/
opaque Config.blockPage : Nat

end Sys2Proof
end

