-- ==== Sys2Proof/Machine/Float.lean ====
section
/-! DEFINITION. IEEE 754 binary32 (00_scope.md R7 to R13): every primitive computes the exact result
of its operands and rounds it once, to nearest with ties to even. The exact values are natural
numbers counted in units of 2^-149, the smallest subnormal, so every finite binary32 is a whole
number of units. -/

namespace Sys2Proof.Machine

/-! ### Fields and classes (00_scope.md R7) -/

/-- The sign, bit 31. -/
def signBit (w : Word) : Bool := w.getLsbD 31

/-- The biased exponent, bits 30:23. -/
def expField (w : Word) : Nat := (w.extractLsb' 23 8).toNat

/-- The fraction, bits 22:0. -/
def fracField (w : Word) : Nat := (w.extractLsb' 0 23).toNat

/-- A NaN: exponent all ones, fraction not zero. -/
def isNaN (w : Word) : Bool := expField w == 255 && fracField w != 0

/-- An infinity: exponent all ones, fraction zero. -/
def isInf (w : Word) : Bool := expField w == 255 && fracField w == 0

/-- A finite value: exponent not all ones. -/
def isFinite (w : Word) : Bool := expField w != 255

/-- A quiet NaN: a NaN whose fraction has its top bit set. -/
def isQuietNaN (w : Word) : Bool := isNaN w && w.getLsbD 22

/-- The magnitude of a finite word in units of 2^-149. An infinity gets 2^277, above every finite
magnitude, so that comparisons order it last. -/
def mag (w : Word) : Nat :=
  if expField w = 0 then fracField w else (2 ^ 23 + fracField w) * 2 ^ (expField w - 1)

/-- The signed value of a word that is not a NaN, in units of 2^-149. -/
def val (w : Word) : Int := if signBit w then -(mag w : Int) else (mag w : Int)

/-- +0 or -0. -/
def isZero (w : Word) : Bool := mag w == 0

/-! ### Named constants (00_scope.md R13) -/

/-- `ONE`. -/
def one : Word := 0x3F800000#32
/-- `HALF`. -/
def half : Word := 0x3F000000#32
/-- `PZERO`. -/
def pzero : Word := 0x00000000#32
/-- `PI32`. -/
def pi32 : Word := 0x40490FDB#32
/-- `TWO_PI32`. -/
def twoPi32 : Word := 0x40C90FDB#32
/-- The magnitude field of an infinity. -/
def infBits : Nat := 0x7F800000

/-! ### Rounding (00_scope.md R8) -/

/-- `n / d` rounded to the nearest natural number, ties to even (`d` not zero). -/
def rne (n d : Nat) : Nat :=
  if 2 * (n % d) < d then n / d
  else if 2 * (n % d) > d then n / d + 1
  else n / d + n / d % 2

/-- The 31 magnitude bits of the binary32 nearest `n / d` units of 2^-149, ties to even. With `q` the
whole units, the result's last place is `2^s` units for `s = log2 q - 23`, and its bits are
`s * 2^23` plus the significand, whose carry moves into the exponent field by itself; a result
past the largest finite value is the infinity. -/
def roundMag (n d : Nat) : Nat :=
  let s := (n / d).log2 - 23
  min (s * 2 ^ 23 + rne n (d * 2 ^ s)) infBits

/-- A word from a sign and 31 magnitude bits. -/
def pack (neg : Bool) (m : Nat) : Word := BitVec.ofNat 32 (if neg then 2 ^ 31 + m else m)

/-- The square root of `n`, rounded down, found bit by bit from bit `i - 1`. -/
def isqrtFrom : Nat → Nat → Nat → Nat
  | 0, _, r => r
  | i + 1, n, r => isqrtFrom i n (if (r + 2 ^ i) * (r + 2 ^ i) ≤ n then r + 2 ^ i else r)

/-! ### Arithmetic (00_scope.md R9 to R12) -/

/-- `neg32`: bit 31 inverted, NaN included. -/
def neg32 (a : Word) : Word := a ^^^ 0x80000000#32

/-- `add32`: the sum rounded once. An exact zero sum is -0 only for two negative zeros; opposite
infinities give a NaN. -/
def add32 (P : Params) (a b : Word) : Word :=
  if isNaN a || isNaN b then P.nanResult
  else if isInf a then (if isInf b && signBit a != signBit b then P.nanResult else a)
  else if isInf b then b
  else
    let r := val a + val b
    if r = 0 then pack (signBit a && signBit b) 0
    else pack (decide (r < 0)) (roundMag r.natAbs 1)

/-- `sub32`: the difference rounded once, which is the sum with the negated operand. -/
def sub32 (P : Params) (a b : Word) : Word := add32 P a (neg32 b)

/-- `mul32`: the product rounded once; a zero times an infinity is a NaN. -/
def mul32 (P : Params) (a b : Word) : Word :=
  let neg := signBit a ^^ signBit b
  if isNaN a || isNaN b then P.nanResult
  else if isInf a || isInf b then
    (if isZero a || isZero b then P.nanResult else pack neg infBits)
  else pack neg (roundMag (mag a * mag b) (2 ^ 149))

/-- `div32`: the quotient rounded once; 0/0 and infinity over infinity are NaN, x/0 is an infinity. -/
def div32 (P : Params) (a b : Word) : Word :=
  let neg := signBit a ^^ signBit b
  if isNaN a || isNaN b then P.nanResult
  else if isInf a then (if isInf b then P.nanResult else pack neg infBits)
  else if isInf b then pack neg 0
  else if isZero b then (if isZero a then P.nanResult else pack neg infBits)
  else pack neg (roundMag (mag a * 2 ^ 149) (mag b))

/-- The magnitude bits of the square root of `m` units. The root is taken with one bit below the
unit and a sticky bit below that, so that rounding sees on which side of a tie it lies. -/
def sqrtMag (m : Nat) : Nat :=
  let n := m * 2 ^ 151
  let r := isqrtFrom 215 n 0
  roundMag (2 * r + if r * r = n then 0 else 1) 4

/-- `sqrt32`: the square root rounded once; -0 gives -0, a negative operand gives a NaN. -/
def sqrt32 (P : Params) (a : Word) : Word :=
  if isNaN a then P.nanResult
  else if isZero a then a
  else if signBit a then P.nanResult
  else if isInf a then a
  else pack false (sqrtMag (mag a))

/-- `lt32`: false if an operand is a NaN; -0 equals +0. -/
def lt32 (a b : Word) : Bool := !isNaN a && !isNaN b && decide (val a < val b)

/-- `le32`. -/
def le32 (a b : Word) : Bool := !isNaN a && !isNaN b && decide (val a ≤ val b)

/-- `gt32`. -/
def gt32 (a b : Word) : Bool := lt32 b a

/-- `ge32`. -/
def ge32 (a b : Word) : Bool := le32 b a

/-- `sgn32`, the sign function of the phase detector (00_scope.md R12). -/
def sgn32 (v : Word) : Word :=
  if isNaN v then v
  else if gt32 v pzero then one
  else if lt32 v pzero then neg32 one
  else pzero

/-- The binary32 nearest a decimal literal `±digits / 10^scale` (30_encoding.md R99). -/
def ofDecimal (neg : Bool) (digits scale : Nat) : Word :=
  pack neg (roundMag (digits * 2 ^ 149) (10 ^ scale))

end Sys2Proof.Machine
end

