-- ==== Sys2Proof/Machine/Dds.lean ====
section
/-! DEFINITION. This block's oscillator: `DDS_COS` and `DDS_SIN`, the correctly rounded binary32
cosine and sine (00_scope.md R17, 42_demodulator.md R164). The angle is exact; it is reduced by
pi/2 and evaluated in fixed point with 384 fraction bits, and the result is rounded once. Why the
remaining error never decides a rounding is said in log entry 8 (DEDUCED, unsafe). -/

namespace Sys2Proof.Machine

/-- 1.0 in fixed point. -/
def ddsOne : Nat := 2 ^ 384

/-- pi/2 in fixed point, rounded down. -/
def ddsHalfPi : Nat :=
  0x1921fb54442d18469898cc51701b839a252049c1114cf98e804177d4c76273644a29410f31c6809bbdf2a33679a748636

/-- The nested Taylor factor `1 - x2/(j(j+1)) * (1 - x2/((j+2)(j+3)) * ...)` to `n` terms, in fixed
point, where `x2` is the square of the reduced angle. -/
def ddsTaylor (x2 : Nat) : Nat → Nat → Nat
  | _, 0 => ddsOne
  | j, n + 1 => ddsOne - x2 * ddsTaylor x2 (j + 2) n / (ddsOne * (j * (j + 1)))

/-- cos r for a fixed-point r in [0, pi/2). -/
def ddsCosFix (r : Nat) : Nat := min (ddsTaylor (r * r / ddsOne) 1 40) ddsOne

/-- sin r for a fixed-point r in [0, pi/2). -/
def ddsSinFix (r : Nat) : Nat := min (r * ddsTaylor (r * r / ddsOne) 2 40 / ddsOne) ddsOne

/-- The magnitude of a finite angle in fixed point: 2^-149 is 2^235 of 2^-384. -/
def ddsAngle (theta : Word) : Nat := mag theta * 2 ^ 235

/-- The quarter turn, 0 to 3, in which the magnitude of the angle lies. -/
def ddsQuadrant (theta : Word) : Nat := ddsAngle theta / ddsHalfPi % 4

/-- The angle inside its quarter turn. -/
def ddsReduced (theta : Word) : Nat := ddsAngle theta % ddsHalfPi

/-- A fixed-point result as a binary32. -/
def ddsRound (neg : Bool) (v : Nat) : Word := pack neg (roundMag v (2 ^ 235))

/-- `DDS_COS` of this block. For a NaN or infinite angle R17 asks for a NaN and names no bits: the
model returns 0x7FC00000, which no register ever shows (log entry 11, DESIGN CHOICE). -/
def ddsCos (theta : Word) : Word :=
  if !isFinite theta then 0x7FC00000#32
  else
    match ddsQuadrant theta with
    | 0 => ddsRound false (ddsCosFix (ddsReduced theta))
    | 1 => ddsRound true (ddsSinFix (ddsReduced theta))
    | 2 => ddsRound true (ddsCosFix (ddsReduced theta))
    | _ => ddsRound false (ddsSinFix (ddsReduced theta))

/-- `DDS_SIN` of this block; the sine is odd, so the angle's sign goes to the result. -/
def ddsSin (theta : Word) : Word :=
  if !isFinite theta then 0x7FC00000#32
  else
    match ddsQuadrant theta with
    | 0 => ddsRound (signBit theta) (ddsSinFix (ddsReduced theta))
    | 1 => ddsRound (signBit theta) (ddsCosFix (ddsReduced theta))
    | 2 => ddsRound (!signBit theta) (ddsSinFix (ddsReduced theta))
    | _ => ddsRound (!signBit theta) (ddsCosFix (ddsReduced theta))

end Sys2Proof.Machine
end

