-- ==== Sys2Proof/Machine/Block.lean ====
section
/-! DEFINITION. The reference block: the parameter values of 00_scope.md R6, column "this block". -/

namespace Sys2Proof.Machine

/-- The identification word "AMM1" (10_state.md R37). -/
def blockId : Word := 0x414D4D31#32

/-- The filter coefficients of this block (40_common.md R118). -/
def blockCoef : List Word :=
  [0xBBB96DD0#32, 0x00000000#32, 0xBC8BC81A#32, 0x00000000#32, 0xBD6FF656#32,
   0x00000000#32, 0xBE275216#32, 0x00000000#32, 0xBF1E741A#32, 0x00000000#32,
   0x3F1E741A#32, 0x00000000#32, 0x3E275216#32, 0x00000000#32, 0x3D6FF656#32,
   0x00000000#32, 0x3C8BC81A#32, 0x00000000#32, 0x3BB96DD0#32]

/-- This block (00_scope.md R6). `BLOCK_BASE` is 256-byte aligned and otherwise OPEN. -/
def thisBlock : Params where
  hilbN := 19
  hilbCoef := blockCoef
  pllKp := 0x3CA3D70A#32
  pllKi := 0x3951B717#32
  pllWmax := 0x3F000000#32
  ddsCos := ddsCos
  ddsSin := ddsSin
  nanResult := 0x7FC00000#32
  blockBase := 256 * Config.blockPage

end Sys2Proof.Machine
end

