-- ==== Sys2Proof/Machine/Filter.lean ====
section
/-! DEFINITION. The quadrature filter component QF (40_common.md R113 to R118), shared by both units. -/

namespace Sys2Proof.Machine

/-- `D`, the group delay (N-1)/2 (00_scope.md R6). -/
def delay (P : Params) : Nat := (P.hilbN - 1) / 2

/-- `HILB_COEF[k]`, and +0.0 past the table (10_state.md R58). -/
def coef (P : Params) (k : Nat) : Word := P.hilbCoef.getD k pzero

/-- A delay line as CREATE, DESTROY and reset leave it: N entries of +0.0 (10_state.md R60). -/
def zeroLine (P : Params) : List Word := List.replicate P.hilbN pzero

/-- `QF.push`: shift by one, newest entry at index 0, N entries kept (40_common.md R114). -/
def qfPush (P : Params) (line : List Word) (v : Word) : List Word := (v :: line).take P.hilbN

/-- `QF.fir`: every tap multiplied, accumulated from +0.0 in the order k = 0, 1, ... (40_common.md R115). -/
def qfFir (P : Params) (line : List Word) : Word :=
  (P.hilbCoef.zip line).foldl (fun acc hl => add32 P acc (mul32 P hl.1 hl.2)) pzero

/-- `QF.inphase`: the entry pushed D steps earlier, read without arithmetic (40_common.md R116). -/
def qfInphase (P : Params) (line : List Word) : Word := line.getD (delay P) pzero

end Sys2Proof.Machine
end

