-- ==== Sys2Proof/Machine/Units.lean ====
section
/-! DEFINITION. The two units of a block as plain data (10_state.md R31, R32, R44 to R60), and
`InitUnit` (40_common.md R121). -/

namespace Sys2Proof.Machine

/-- The modulator's own state. `modX`, its input register, belongs to the host and stands in `State`. -/
structure ModUnit where
  /-- The lifecycle state (10_state.md R31). -/
  created : Bool
  /-- `MOD_M`, the configuration copy of m (R32, R47). -/
  m : Word
  /-- `MOD_CFO`, the configuration copy of carrierOffset (R32, R47). -/
  cfo : Word
  /-- `MOD_CFG.SB` (R48). -/
  sb : BitVec 2
  /-- `MOD_CFG.SC` (R48). -/
  sc : Bool
  /-- `MOD_YRE` (R45). -/
  yre : Word
  /-- `MOD_YIM` (R45). -/
  yim : Word
  /-- `MOD_NIDX` (R46). -/
  nidx : Word
  /-- `MLINE`, newest entry first (R60). -/
  mline : List Word
deriving DecidableEq, Repr

/-- The demodulator's own state. `demYre` and `demYim` belong to the host and stand in `State`. -/
structure DemUnit where
  /-- The lifecycle state (10_state.md R31). -/
  created : Bool
  /-- `DEM_M` (R52). -/
  m : Word
  /-- `DEM_CFO` (R52). -/
  cfo : Word
  /-- `DEM_CFG.SB` (R53). -/
  sb : BitVec 2
  /-- `DEM_CFG.SC` (R53). -/
  sc : Bool
  /-- `DEM_Z` (R50). -/
  z : Word
  /-- `DEM_NIDX` (R51). -/
  nidx : Word
  /-- `DEM_THETA` (R54). -/
  theta : Word
  /-- `DEM_OMEGA` (R55). -/
  omega : Word
  /-- `DEM_PERR` (R56). -/
  perr : Word
  /-- `LR`, newest entry first (R60). -/
  lr : List Word
  /-- `LI`, newest entry first (R60). -/
  li : List Word
deriving DecidableEq, Repr

/-- `InitUnit(MOD)` (40_common.md R121). -/
def initMod (P : Params) : ModUnit where
  created := false
  m := pzero
  cfo := pzero
  sb := 0
  sc := false
  yre := pzero
  yim := pzero
  nidx := 0
  mline := zeroLine P

/-- `InitUnit(DEM)` (40_common.md R121). -/
def initDem (P : Params) : DemUnit where
  created := false
  m := pzero
  cfo := pzero
  sb := 0
  sc := false
  z := pzero
  nidx := 0
  theta := pzero
  omega := pzero
  perr := pzero
  lr := zeroLine P
  li := zeroLine P

end Sys2Proof.Machine
end

