-- ==== Sys2Proof/Machine/State.lean ====
section
/-! DEFINITION. The state of the block (10_state.md R33, R60, R62), the host's side of the bus, the
reasons for which a step stops, and the state after reset (70_reset_and_hazards.md R250). -/

namespace Sys2Proof.Machine

/-- The host agent and its bus (10_state.md R30): fields of the model, not of the block (log entry 2). -/
structure HostSide where
  /-- What the host and the platform do next, first event first (43_host_access.md R206). -/
  pending : List HostEvent
  /-- The host variables read so far, in rising order of their numbers (30_encoding.md R98). -/
  vars : List (Nat × Word)
  /-- The word that the last read returned, if a read happened (43_host_access.md R201). -/
  rdata : Option Word
deriving DecidableEq, Repr

/-- The whole state: the block registers, the input registers that belong to the host, the two units,
and the host's side. The block has no memory, no program counter and no register file (10_state.md
R61, R62), and the constant registers are parameters (R63). -/
structure State where
  /-- `STATUS` (10_state.md R40). -/
  status : Word
  /-- `ERRFLAGS` (R41). -/
  errflags : Word
  /-- `MIDX`, the staged modulation index (R42). -/
  midx : Word
  /-- `CFO`, the staged carrier offset (R43). -/
  cfo : Word
  /-- `MOD_X` (R44). -/
  modX : Word
  /-- `DEM_YRE` (R49). -/
  demYre : Word
  /-- `DEM_YIM` (R49). -/
  demYim : Word
  /-- The MOD unit. -/
  mod : ModUnit
  /-- The DEM unit. -/
  dem : DemUnit
  /-- The host's side of the bus (log entry 2). -/
  hostSide : HostSide
deriving DecidableEq, Repr

/-- Why a step stops with a fault. No command and no admitted access raises one; an access raises the
first four by the treatment "stuck" of 93_implementation_defined.md U9 (log entries 4 and 6). -/
inductive Fault where
  /-- An access that is not 32 bits wide (20_memory.md R72, `BAD_ACCESS`). Safe: the model stops where
  the platform decides. -/
  | accessWidth (bytes : Nat)
  /-- An access at an offset that is not a multiple of 4 (R72, `BAD_ACCESS`). Safe. -/
  | accessMisaligned (off : Nat)
  /-- An access at an offset of 0x100 or more (R72, `BAD_ACCESS`). Safe. -/
  | accessOutside (off : Nat)
  /-- A host line writes a host variable that no earlier read filled (30_encoding.md R98). Safe: no
  such program has a meaning. -/
  | hvarNotRead
deriving DecidableEq, Repr

/-- Why a step is refused. -/
inductive Refusal where
  /-- An instruction without a meaning; no arm of `exec` answers it in this model. Safe. -/
  | notModelled (mnemonic : String)
  /-- An access of a second bus master (43_host_access.md R207, 60_exceptions.md R232). Safe: the spec
  places it outside (93_implementation_defined.md U8, "refuse"; log entry 5). -/
  | secondMaster
deriving DecidableEq, Repr

/-- A host that has done nothing and has nothing to do (log entry 2). -/
def HostSide.idle : HostSide where
  pending := []
  vars := []
  rdata := none

/-- The state after a block reset of a block with parameters `P` (70_reset_and_hazards.md R250). -/
def State.resetOf (P : Params) : State where
  status := 0
  errflags := 0
  midx := pzero
  cfo := pzero
  modX := pzero
  demYre := pzero
  demYim := pzero
  mod := initMod P
  dem := initDem P
  hostSide := HostSide.idle

/-- This block after reset (70_reset_and_hazards.md R250). -/
def State.reset : State := State.resetOf thisBlock

end Sys2Proof.Machine
end

