-- ==== Sys2Proof/Machine/Flags.lean ====
section
/-! DEFINITION. The error codes and the fields of the two error-reporting registers and of the
configuration registers (10_state.md R38, R40, R41, R48, R53; 60_exceptions.md R221, R225). -/

namespace Sys2Proof.Machine

/-- The error codes of 60_exceptions.md R221; codes 4 to 15 are never produced. -/
inductive ErrCode where
  | none
  | invalidParameter
  | illegalCommand
  | invalidState
deriving DecidableEq, Repr

/-- The number of an error code (60_exceptions.md R221). -/
def errNumber : ErrCode → BitVec 4
  | .none => 0
  | .invalidParameter => 1
  | .illegalCommand => 2
  | .invalidState => 3

/-- The `ERRFLAGS` bit that an error code sets, bit c for code c, and none for code 0 (60_exceptions.md R225). -/
def errFlagBit : ErrCode → Word
  | .none => 0x00000000#32
  | .invalidParameter => 0x00000002#32
  | .illegalCommand => 0x00000004#32
  | .invalidState => 0x00000008#32

/-- `STATUS.LASTERR`, bits 7:4 (10_state.md R40). -/
def lastErr (status : Word) : BitVec 4 := status.extractLsb' 4 4

/-- `STATUS.MOD_CREATED`, bit 0 (10_state.md R40). -/
def statusMod (status : Word) : Bool := status.getLsbD 0

/-- `STATUS.DEM_CREATED`, bit 1 (10_state.md R40). -/
def statusDem (status : Word) : Bool := status.getLsbD 1

/-- The three fields of `STATUS` in their places, every reserved bit 0 (10_state.md R40). -/
def statusFields (c : BitVec 4) (modCreated demCreated : Bool) : Word :=
  0#24 ++ c ++ 0#2 ++ BitVec.ofBool demCreated ++ BitVec.ofBool modCreated

/-- `STATUS` after a command: the fields written, the other bits kept (60_exceptions.md R225). -/
def statusAfter (old : Word) (c : ErrCode) (modCreated demCreated : Bool) : Word :=
  (old &&& 0xFFFFFF0C#32) ||| statusFields (errNumber c) modCreated demCreated

/-- `ERRFLAGS` after a host write of `v`: the flags written as 1 among bits 3:1 are cleared (43_host_access.md R203). -/
def errflagsClear (old v : Word) : Word := old &&& ~~~(v &&& 0x0000000E#32)

/-- `MOD_CFG` and `DEM_CFG`: SB in bits 1:0, SC in bit 2, zero above (10_state.md R48, R53). -/
def cfgWord (sb : BitVec 2) (sc : Bool) : Word := 0#29 ++ BitVec.ofBool sc ++ sb

/-- `PARAM`: N in bits 7:0, D in bits 15:8, zero above (10_state.md R38). -/
def paramWord (P : Params) : Word :=
  0#16 ++ BitVec.ofNat 8 (delay P) ++ BitVec.ofNat 8 P.hilbN

end Sys2Proof.Machine
end

