-- ==== Sys2Proof/Machine/Operands.lean ====
section
/-! DEFINITION. Where a command's operands come from (30_encoding.md R94). The two fields taken from
the command word are arguments of the create instructions. -/

namespace Sys2Proof.Machine

/-- The m that a create command validates and copies: the bits of `MIDX`. -/
def stagedM (s : State) : Word := s.midx

/-- The carrierOffset that a create command copies: the bits of `CFO`. -/
def stagedCfo (s : State) : Word := s.cfo

/-- The sample x of MOD.STEP: `MOD_X`. -/
def modInput (s : State) : Word := s.modX

/-- The sample y of DEM.STEP: `DEM_YRE` and `DEM_YIM`, real part first (00_scope.md R16). -/
def demInput (s : State) : Word × Word := (s.demYre, s.demYim)

end Sys2Proof.Machine
end

