-- ==== Sys2Proof/Machine/RegMap.lean ====
section
/-! DEFINITION. The register map of 10_state.md R33, the access classes of R34, and the byte lanes
and bus addresses of 20_memory.md R70 and R73. -/

namespace Sys2Proof.Machine

/-- The registers of the window (10_state.md R33), each under its own name. -/
inductive Reg where
  | id | param | cmd | status | errflags | midx | cfo
  | modX | modYre | modYim | modNidx | modM | modCfo | modCfg
  | demYre | demYim | demZ | demNidx | demM | demCfo | demCfg | demTheta | demOmega | demPerr
  | pllKp | pllKi | pllWmax
  /-- `HCOEF[k]`, k = 0..31. -/
  | hcoef (k : Nat)
  /-- A reserved offset (R59). -/
  | reserved (off : Nat)
deriving DecidableEq, Repr

/-- The access classes of 10_state.md R34. -/
inductive AccessClass where
  | ro | rw | wo | w1c | reserved
deriving DecidableEq, Repr

/-- The access column of 10_state.md R33. -/
def accessClass : Reg → AccessClass
  | .cmd => .wo
  | .errflags => .w1c
  | .midx | .cfo | .modX | .demYre | .demYim => .rw
  | .reserved _ => .reserved
  | _ => .ro

/-- The offset column of 10_state.md R33. -/
def regOffset : Reg → Nat
  | .id => 0x000
  | .param => 0x004
  | .cmd => 0x008
  | .status => 0x00C
  | .errflags => 0x010
  | .midx => 0x014
  | .cfo => 0x018
  | .modX => 0x020
  | .modYre => 0x024
  | .modYim => 0x028
  | .modNidx => 0x02C
  | .modM => 0x030
  | .modCfo => 0x034
  | .modCfg => 0x038
  | .demYre => 0x040
  | .demYim => 0x044
  | .demZ => 0x048
  | .demNidx => 0x04C
  | .demM => 0x050
  | .demCfo => 0x054
  | .demCfg => 0x058
  | .demTheta => 0x05C
  | .demOmega => 0x060
  | .demPerr => 0x064
  | .pllKp => 0x068
  | .pllKi => 0x06C
  | .pllWmax => 0x070
  | .hcoef k => 0x080 + 4 * k
  | .reserved off => off

/-- The registers of the first 32 words of the window, in order of their offsets. -/
def lowRegs : List Reg :=
  [.id, .param, .cmd, .status, .errflags, .midx, .cfo, .reserved 0x01C,
   .modX, .modYre, .modYim, .modNidx, .modM, .modCfo, .modCfg, .reserved 0x03C,
   .demYre, .demYim, .demZ, .demNidx, .demM, .demCfo, .demCfg, .demTheta,
   .demOmega, .demPerr, .pllKp, .pllKi, .pllWmax, .reserved 0x074, .reserved 0x078, .reserved 0x07C]

/-- The register at an aligned byte offset of the window. -/
def regAt (off : Nat) : Reg :=
  if off < 0x080 then lowRegs.getD (off / 4) (.reserved off) else .hcoef (off / 4 - 32)

/-- The bus address of an offset (20_memory.md R70). -/
def busAddress (P : Params) (off : Nat) : Nat := P.blockBase + off

/-- The block decodes offset bits 7:0 only (20_memory.md R70). -/
def decodedOffset (addr : Nat) : Nat := addr % 256

/-- Byte lane `i` of a word, bits 8i+7:8i: little-endian (20_memory.md R73). -/
def byteLane (w : Word) (i : Nat) : Byte := w.extractLsb' (8 * i) 8

/-- The word whose four byte lanes, lowest address first, are given (20_memory.md R73). -/
def ofLanes (b0 b1 b2 b3 : Byte) : Word := b3 ++ b2 ++ b1 ++ b0

end Sys2Proof.Machine
end

