-- ==== Sys2Proof/Machine/Ops.lean ====
section
/-! DEFINITION. The shared operations: recording the end of a command (the block's whole exception
model, 60_exceptions.md R220 and R225: nothing is saved and there is no return, R229 and R230),
validation (40_common.md R119), the sample index (R122), the platform reset, the register reads and
the plain register writes, and the host's variables. -/

namespace Sys2Proof.Machine

/-! ### The end of a command -/

/-- `Complete(c)` and `Error(c)` of 60_exceptions.md R225. -/
def complete (c : ErrCode) (s : State) : State :=
  { s with
    status := statusAfter s.status c s.mod.created s.dem.created
    errflags := s.errflags ||| errFlagBit c }

/-- `raise Error(c)`: the command ends here with no other effect (60_exceptions.md R220). -/
def raiseError (c : ErrCode) (s : State) : State := complete c s

/-! ### Shared parts of the commands -/

/-- `ValidConfig(m, sb)` (40_common.md R119). -/
def validConfig (m : Word) (sb : BitVec 2) : Bool := gt32 m pzero && le32 m one && sb != 3#2

/-- The sample index advances by one modulo 2^32 (40_common.md R122). -/
def nextIndex (n : Word) : Word := n + 1

/-- A block reset: everything but the host's side (70_reset_and_hazards.md R250, log entry 12). -/
def blockReset (P : Params) (s : State) : State := { State.resetOf P with hostSide := s.hostSide }

/-! ### Registers -/

/-- The content of a register as a read returns it (43_host_access.md R201, 10_state.md R33). -/
def readReg (P : Params) (s : State) : Reg → Word
  | .id => blockId
  | .param => paramWord P
  | .cmd => 0
  | .status => s.status
  | .errflags => s.errflags
  | .midx => s.midx
  | .cfo => s.cfo
  | .modX => s.modX
  | .modYre => s.mod.yre
  | .modYim => s.mod.yim
  | .modNidx => s.mod.nidx
  | .modM => s.mod.m
  | .modCfo => s.mod.cfo
  | .modCfg => cfgWord s.mod.sb s.mod.sc
  | .demYre => s.demYre
  | .demYim => s.demYim
  | .demZ => s.dem.z
  | .demNidx => s.dem.nidx
  | .demM => s.dem.m
  | .demCfo => s.dem.cfo
  | .demCfg => cfgWord s.dem.sb s.dem.sc
  | .demTheta => s.dem.theta
  | .demOmega => s.dem.omega
  | .demPerr => s.dem.perr
  | .pllKp => P.pllKp
  | .pllKi => P.pllKi
  | .pllWmax => P.pllWmax
  | .hcoef k => coef P k
  | .reserved _ => 0

/-- `MemRead(off, 4)` of an admitted read (43_host_access.md R201). -/
def memRead (P : Params) (s : State) (off : Nat) : Word := readReg P s (regAt off)

/-- A write of a register other than `CMD` (43_host_access.md R200): `ERRFLAGS` clears, the five RW
registers store the word, every other register ignores the write (R205). -/
def writeReg (r : Reg) (v : Word) (s : State) : State :=
  match r with
  | .errflags => { s with errflags := errflagsClear s.errflags v }
  | .midx => { s with midx := v }
  | .cfo => { s with cfo := v }
  | .modX => { s with modX := v }
  | .demYre => { s with demYre := v }
  | .demYim => { s with demYim := v }
  | _ => s

/-! ### Host variables (30_encoding.md R98) -/

/-- The word of host variable `t`, if a read filled it. -/
def getVar : List (Nat × Word) → Nat → Option Word
  | [], _ => none
  | (k, w) :: rest, t => if k = t then some w else getVar rest t

/-- Host variable `t` set to `v`; the list stays in rising order of its numbers. -/
def setVar (t : Nat) (v : Word) : List (Nat × Word) → List (Nat × Word)
  | [] => [(t, v)]
  | (k, w) :: rest =>
    if k < t then (k, w) :: setVar t v rest
    else if k = t then (t, v) :: rest
    else (t, v) :: (k, w) :: rest

/-- The word that a host write carries. -/
def valueOf (vars : List (Nat × Word)) : Value → Option Word
  | .word w => some w
  | .hvar t => getVar vars t

/-- The host takes the word that a read returned, into a host variable if its line names one. -/
def takeRead (dst : Option Nat) (v : Word) (h : HostSide) : HostSide :=
  { h with
    rdata := some v
    vars := match dst with
      | some t => setVar t v h.vars
      | none => h.vars }

end Sys2Proof.Machine
end

