-- ==== Sys2Proof/Machine/Common.lean ====
section
/-! DEFINITION. NOP (40_common.md R112). -/

namespace Sys2Proof.Machine

/-- NOP: `Complete(0)` and nothing else (40_common.md R112). -/
def execNop (s : State) : Host.Outcome State Fault Refusal := .next (complete .none s)

end Sys2Proof.Machine
end

