-- ==== Sys2Proof/Machine/Demodulator.lean ====
section
/-! DEFINITION. The demodulator commands (42_demodulator.md). Each command first makes the checks of
40_common.md R110 in their order. -/

namespace Sys2Proof.Machine

/-- `Create(DEM, mv, cv, sb, sc)` (42_demodulator.md R160). -/
def demCreateUnit (P : Params) (mv cv : Word) (sb : BitVec 2) (sc : Bool) : DemUnit :=
  { initDem P with m := mv, cfo := cv, sb := sb, sc := sc, created := true }

/-- DEM.CREATE on a block with parameters `P`. -/
def demCreate (P : Params) (sb : BitVec 2) (sc : Bool) (s : State) : State :=
  if s.dem.created then raiseError .invalidState s
  else if !validConfig (stagedM s) sb then raiseError .invalidParameter s
  else complete .none { s with dem := demCreateUnit P (stagedM s) (stagedCfo s) sb sc }

/-- DEM.CREATE (42_demodulator.md R160). -/
def execDemCreate (sb : BitVec 2) (sc : Bool) (s : State) : Host.Outcome State Fault Refusal :=
  .next (demCreate thisBlock sb sc s)

/-- Envelope detection: (|y| - 1)/m (42_demodulator.md R162). -/
def envelope (P : Params) (m yr yi : Word) : Word :=
  div32 P (sub32 P (sqrt32 P (add32 P (mul32 P yr yr) (mul32 P yi yi))) one) m

/-- Re(y·e^(-jθ)), the mixer's real part (R163). -/
def mixRe (P : Params) (theta yr yi : Word) : Word :=
  add32 P (mul32 P yr (P.ddsCos theta)) (mul32 P yi (P.ddsSin theta))

/-- Im(y·e^(-jθ)), the mixer's imaginary part (R163). -/
def mixIm (P : Params) (theta yr yi : Word) : Word :=
  sub32 P (mul32 P yi (P.ddsCos theta)) (mul32 P yr (P.ddsSin theta))

/-- The phase error of a mixed sample (R165). -/
def phaseError (P : Params) (vr vi : Word) : Word := mul32 P (sgn32 vr) vi

/-- The bound of the frequency estimate to ±PLL_WMAX; a NaN passes unchanged (R166). -/
def clampOmega (P : Params) (w : Word) : Word :=
  if gt32 w P.pllWmax then P.pllWmax
  else if lt32 w (neg32 P.pllWmax) then neg32 P.pllWmax
  else w

/-- The integral path: the next frequency estimate (R166). -/
def nextOmega (P : Params) (omega e : Word) : Word :=
  clampOmega P (add32 P omega (mul32 P P.pllKi e))

/-- The one correction of the phase by a full turn (R167). -/
def wrapPhase (P : Params) (th : Word) : Word :=
  if ge32 th pi32 then sub32 P th twoPi32
  else if lt32 th (neg32 pi32) then add32 P th twoPi32
  else th

/-- The phase update with the proportional path (R167). -/
def nextTheta (P : Params) (theta w e : Word) : Word :=
  wrapPhase P (add32 P (add32 P theta w) (mul32 P P.pllKp e))

/-- `Coherent(yr, yi)`: mix and form the output with the old θ, then detect, update ω and update θ
(R168). The unit's output and loop registers are written; the rest is kept. -/
def coherent (P : Params) (yr yi : Word) (u : DemUnit) : DemUnit :=
  let vr := mixRe P u.theta yr yi
  let vi := mixIm P u.theta yr yi
  let e := phaseError P vr vi
  let w := nextOmega P u.omega e
  { u with
    z := div32 P vr u.m
    perr := e
    omega := w
    theta := nextTheta P u.theta w e }

/-- The single-sideband recombination of the two lines (R169): r - H for the upper sideband, r + H for
the lower, the carrier removed if it is sent, halved and divided by m. -/
def recombine (P : Params) (m : Word) (sb : BitVec 2) (sc : Bool) (lr li : List Word) : Word :=
  let r := qfInphase P lr
  let p := qfFir P li
  let v := if sb = 1#2 then sub32 P r p else add32 P r p
  let t := if sc then v else sub32 P v one
  div32 P (mul32 P half t) m

/-- `Sideband(yr, yi)`: push both lines, then recombine (R169). -/
def sideband (P : Params) (yr yi : Word) (u : DemUnit) : DemUnit :=
  let lr := qfPush P u.lr yr
  let li := qfPush P u.li yi
  { u with lr := lr, li := li, z := recombine P u.m u.sb u.sc lr li }

/-- `Step(DEM)` on the sample `(yr, yi)` (42_demodulator.md R161). -/
def demStepUnit (P : Params) (yr yi : Word) (u : DemUnit) : DemUnit :=
  let v :=
    if u.sb = 0#2 then
      if u.sc then coherent P yr yi u
      else { u with z := envelope P u.m yr yi }
    else sideband P yr yi u
  { v with nidx := nextIndex u.nidx }

/-- DEM.STEP on a block with parameters `P`. -/
def demStep (P : Params) (s : State) : State :=
  if s.dem.created then
    complete .none { s with dem := demStepUnit P (demInput s).1 (demInput s).2 s.dem }
  else raiseError .invalidState s

/-- DEM.STEP (42_demodulator.md R161). -/
def execDemStep (s : State) : Host.Outcome State Fault Refusal := .next (demStep thisBlock s)

/-- DEM.DESTROY on a block with parameters `P`. -/
def demDestroy (P : Params) (s : State) : State :=
  if s.dem.created then complete .none { s with dem := initDem P }
  else raiseError .invalidState s

/-- DEM.DESTROY (42_demodulator.md R170). -/
def execDemDestroy (s : State) : Host.Outcome State Fault Refusal := .next (demDestroy thisBlock s)

end Sys2Proof.Machine
end

