-- ==== Sys2Proof/Machine/Modulator.lean ====
section
/-! DEFINITION. The modulator commands (41_modulator.md). Each command first makes the checks of
40_common.md R110 in their order, which is the priority of 60_exceptions.md R227; the legality of
the word is the decoder's. -/

namespace Sys2Proof.Machine

/-- `Create(MOD, mv, cv, sb, sc)` (41_modulator.md R130). -/
def modCreateUnit (P : Params) (mv cv : Word) (sb : BitVec 2) (sc : Bool) : ModUnit :=
  { initMod P with m := mv, cfo := cv, sb := sb, sc := sc, created := true }

/-- MOD.CREATE on a block with parameters `P`. -/
def modCreate (P : Params) (sb : BitVec 2) (sc : Bool) (s : State) : State :=
  if s.mod.created then raiseError .invalidState s
  else if !validConfig (stagedM s) sb then raiseError .invalidParameter s
  else complete .none { s with mod := modCreateUnit P (stagedM s) (stagedCfo s) sb sc }

/-- MOD.CREATE (41_modulator.md R130). -/
def execModCreate (sb : BitVec 2) (sc : Bool) (s : State) : Host.Outcome State Fault Refusal :=
  .next (modCreate thisBlock sb sc s)

/-- The real part of a double-sideband output: 1 + m·x with the carrier (R132), m·x without (R133). -/
def dsbOutput (P : Params) (m x : Word) (sc : Bool) : Word :=
  if sc then mul32 P m x else add32 P one (mul32 P m x)

/-- The single-sideband filter input: m·x, with the carrier term added if it is sent (R134, 40_common.md R120). -/
def ssbInput (P : Params) (m x : Word) (sc : Bool) : Word :=
  if sc then mul32 P m x else add32 P (mul32 P m x) one

/-- I + jQ for the upper sideband, I - jQ for the lower (R134). -/
def ssbQuadrature (sb : BitVec 2) (q : Word) : Word := if sb = 1#2 then q else neg32 q

/-- `Step(MOD)` on the sample `x` (41_modulator.md R131). A unit whose SB is not 0 or 1 takes the
lower-sideband branch, as the pseudocode is written (log entry 13). -/
def modStepUnit (P : Params) (x : Word) (u : ModUnit) : ModUnit :=
  if u.sb = 0#2 then
    { u with
      yre := dsbOutput P u.m x u.sc
      yim := pzero
      nidx := nextIndex u.nidx }
  else
    let line := qfPush P u.mline (ssbInput P u.m x u.sc)
    { u with
      mline := line
      yre := qfInphase P line
      yim := ssbQuadrature u.sb (qfFir P line)
      nidx := nextIndex u.nidx }

/-- MOD.STEP on a block with parameters `P`. -/
def modStep (P : Params) (s : State) : State :=
  if s.mod.created then complete .none { s with mod := modStepUnit P (modInput s) s.mod }
  else raiseError .invalidState s

/-- MOD.STEP (41_modulator.md R131). -/
def execModStep (s : State) : Host.Outcome State Fault Refusal := .next (modStep thisBlock s)

/-- MOD.DESTROY on a block with parameters `P`. -/
def modDestroy (P : Params) (s : State) : State :=
  if s.mod.created then complete .none { s with mod := initMod P }
  else raiseError .invalidState s

/-- MOD.DESTROY (41_modulator.md R136). -/
def execModDestroy (s : State) : Host.Outcome State Fault Refusal := .next (modDestroy thisBlock s)

end Sys2Proof.Machine
end

