-- ==== Sys2Proof/Machine/Dispatch.lean ====
section
/-! DEFINITION. One arm per command: the meaning of every row of spec/opcode_table.json. -/

namespace Sys2Proof.Machine

def exec (i : Instr) (s : State) : Host.Outcome State Fault Refusal :=
  match i with
  | .nop => Sys2Proof.Machine.execNop s
  | .modCreate sb sc => Sys2Proof.Machine.execModCreate sb sc s
  | .modStep => Sys2Proof.Machine.execModStep s
  | .modDestroy => Sys2Proof.Machine.execModDestroy s
  | .demCreate sb sc => Sys2Proof.Machine.execDemCreate sb sc s
  | .demStep => Sys2Proof.Machine.execDemStep s
  | .demDestroy => Sys2Proof.Machine.execDemDestroy s

end Sys2Proof.Machine
end

