-- ==== Sys2Proof/WellFormed.lean ====
section
/-! DEFINITION. What is well formed: an admitted host access, a host event list that can be performed,
and the constraints on the implementation parameters. An `Instr` needs no check: each field's type
holds exactly the values that its encoding admits (30_encoding.md R91, R92). -/

namespace Sys2Proof

open Machine

/-- `Admitted(off, n)` of 43_host_access.md R207: 32 bits wide, aligned, inside the window. -/
def admitted (off width : Nat) : Bool := width == 4 && off % 4 == 0 && decide (off < 0x100)

/-- An access that the block performs: the owner's, admitted, and, for a write of a host variable, one
that the host has read (30_encoding.md R98). -/
def accessWf (known : List Nat) (a : Access) : Bool :=
  a.master == .owner && admitted a.off a.width &&
    match a.kind with
    | .write (.hvar t) => known.contains t
    | _ => true

/-- The host variables known after an access. -/
def knownAfter (known : List Nat) (a : Access) : List Nat :=
  match a.kind with
  | .read (some t) => t :: known
  | _ => known

/-- Every access of the list is well formed, given the variables read before it. -/
def eventsWf : List Nat → List HostEvent → Bool
  | _, [] => true
  | known, .reset :: es => eventsWf known es
  | known, .access a :: es => accessWf known a && eventsWf (knownAfter known a) es

/-- The constraint (d) of 40_common.md R113 at tap `k`: a tap that is not zero is the negation of its mirror. -/
def tapAntisymmetric (P : Params) (k : Nat) : Bool :=
  isZero (coef P k) || coef P (P.hilbN - 1 - k) == neg32 (coef P k)

/-- The constraints of 40_common.md R113 on the filter. -/
def filterWf (P : Params) : Bool :=
  P.hilbN % 2 == 1 && decide (3 ≤ P.hilbN) && decide (P.hilbN ≤ 31) &&
  P.hilbCoef.length == P.hilbN &&
  coef P (delay P) == pzero &&
  (List.range P.hilbN).all (fun k => k % 2 != delay P % 2 || coef P k == pzero) &&
  (List.range P.hilbN).all (tapAntisymmetric P)

/-- The constraints of 00_scope.md R6 on the loop parameters, the NaN and the base address. -/
def loopWf (P : Params) : Bool :=
  gt32 P.pllKp pzero && gt32 P.pllKi pzero && gt32 P.pllWmax pzero && isQuietNaN P.nanResult &&
  P.blockBase % 256 == 0

/-- A finite word in [-1, 1]. -/
def inUnit (w : Word) : Bool := le32 (neg32 one) w && le32 w one

/-- The three requirements of 00_scope.md R17 on the oscillator. -/
structure DdsWf (P : Params) : Prop where
  cos_zero : P.ddsCos pzero = one
  sin_zero : P.ddsSin pzero = pzero
  cos_nan : ∀ w, isFinite w = false → isNaN (P.ddsCos w) = true
  sin_nan : ∀ w, isFinite w = false → isNaN (P.ddsSin w) = true
  cos_unit : ∀ w, isFinite w = true → inUnit (P.ddsCos w) = true
  sin_unit : ∀ w, isFinite w = true → inUnit (P.ddsSin w) = true

/-- A parameter record that meets every constraint of 00_scope.md R6. -/
structure ParamsWf (P : Params) : Prop where
  filter : filterWf P = true
  loop : loopWf P = true
  dds : DdsWf P

end Sys2Proof
end

