-- ==== Sys2Proof/Machine/HostAccess.lean ====
section
/-! DEFINITION. What the block does with one event from outside: a host write, a host read
(43_host_access.md R200, R201) or a platform reset (70_reset_and_hazards.md R250). -/

namespace Sys2Proof.Machine

/-- `Execute(w)`: the decoded command runs, and an illegal word ends with IllegalCommand (40_common.md R110). -/
def execute (w : Word) (s : State) : Host.Outcome State Fault Refusal :=
  match decode w with
  | .command i => exec i s
  | .illegal _ => .next (raiseError .illegalCommand s)

/-- `MemWrite(off, 4, v)` of an admitted write (43_host_access.md R200). -/
def memWrite (off : Nat) (v : Word) (s : State) : Host.Outcome State Fault Refusal :=
  match regAt off with
  | .cmd => execute v s
  | r => .next (writeReg r v s)

/-- The reason for which an access that is not admitted has no step (43_host_access.md R207). -/
def accessFault (a : Access) : Fault :=
  if a.width != 4 then .accessWidth a.width
  else if a.off % 4 != 0 then .accessMisaligned a.off
  else .accessOutside a.off

/-- One access. A second master's is refused (60_exceptions.md R232), one that is not admitted has no
step (R207); a read returns the register and changes nothing of the block (20_memory.md R76). -/
def performAccess (a : Access) (s : State) : Host.Outcome State Fault Refusal :=
  if a.master != .owner then .refused .secondMaster
  else if !admitted a.off a.width then .fault (accessFault a)
  else
    match a.kind with
    | .read dst => .next { s with hostSide := takeRead dst (memRead thisBlock s a.off) s.hostSide }
    | .write v =>
      match valueOf s.hostSide.vars v with
      | some w => memWrite a.off w s
      | none => .fault .hvarNotRead

/-- One event from outside. -/
def performEvent (e : HostEvent) (s : State) : Host.Outcome State Fault Refusal :=
  match e with
  | .access a => performAccess a s
  | .reset => .next (blockReset thisBlock s)

/-- The host's side with its first event taken off. -/
def dropEvent (s : State) : State :=
  { s with hostSide := { s.hostSide with pending := s.hostSide.pending.tail } }

/-- The events `es` placed before what is pending. -/
def placeEvents (es : List HostEvent) (s : State) : State :=
  { s with hostSide := { s.hostSide with pending := es ++ s.hostSide.pending } }

/-- The host's write of a word at an offset: `WR reg, value` (30_encoding.md R98). -/
def hostWrite (off : Nat) (v : Value) : HostEvent := .access ⟨.owner, 4, off, .write v⟩

/-- The host's read at an offset: `RD reg -> hvar` (30_encoding.md R98). -/
def hostRead (off : Nat) (dst : Option Nat) : HostEvent := .access ⟨.owner, 4, off, .read dst⟩

/-- The host's write of a command word to `CMD` (30_encoding.md R90). -/
def commandWrite (w : Word) : HostEvent := hostWrite (regOffset .cmd) (.word w)

end Sys2Proof.Machine
end

