-- ==== Sys2Proof/Machine/Step.lean ====
section
/-! DEFINITION. One step of the machine: the first pending event of the host, performed whole
(20_memory.md R77, R79; 70_reset_and_hazards.md R262). -/

namespace Sys2Proof.Machine

/-- One step. With nothing pending the block does nothing (70_reset_and_hazards.md R251, log entry 3). -/
def step (s : State) : Host.Outcome State Fault Refusal :=
  match s.hostSide.pending with
  | [] => .next s
  | e :: _ => performEvent e (dropEvent s)

/-- `s` with the host about to write the command word `w` to `CMD`: the next step runs exactly it. A
command reaches the block only so (43_host_access.md R202, log entry 2). -/
def State.withFetchWord (s : State) (nbits w : Nat) : State :=
  placeEvents [commandWrite (BitVec.ofNat 32 (w % 2 ^ nbits))] s

end Sys2Proof.Machine
end

