-- ==== Sys2Proof/Machine/Program.lean ====
section
/-! DEFINITION. The host's line syntax and its pseudo-instructions (30_encoding.md R98 to R100) as
abstract syntax, and the sequence of host events that a program assembles to. The text is read in
Sys2Proof/Machine/Assembler.lean; labels and comments carry no meaning (log entry 15). -/

namespace Sys2Proof.Machine

/-- `reg` of 30_encoding.md R98: a register by its name, `HCOEF[k]` included, or `@offset`. -/
inductive RegRef where
  | named (r : Reg)
  | offset (off : Nat)
deriving DecidableEq, Repr

/-- `value` of R98: a hex word, an `f:` literal, or a host variable. A decimal is ±digits / 10^scale. -/
inductive Literal where
  | hex (w : Word)
  | decimal (neg : Bool) (digits scale : Nat)
  | nan
  | posInf
  | negInf
  | negZero
  | hvar (t : Nat)
deriving DecidableEq, Repr

/-- `stmt` of R98 with the pseudo-instructions of R100; REPEAT is unrolled before (`unroll`). A command carries its
`sb` code (DSB, USB, LSB, SB3) and `SC` flag in the instruction. -/
inductive Stmt where
  | wr (r : RegRef) (v : Literal)
  | rd (r : RegRef) (dst : Option Nat)
  | command (i : Instr)
  | modOpen (m c : Literal) (sb : BitVec 2) (sc : Bool)
  | demOpen (m c : Literal) (sb : BitVec 2) (sc : Bool)
  | modulate (x : Literal) (ta tb : Nat)
  | demodulate (ya yb : Literal) (tz : Nat)
  | loopback (x : Literal) (tz : Nat)
  | clrerr
  | check (ts : Nat)
deriving DecidableEq, Repr

/-- A line: an optional label, a statement, an optional comment (R98). -/
structure Line where
  label : Option String
  stmt : Stmt
  comment : Option String
deriving DecidableEq, Repr

/-- The offset that a register reference names. -/
def refOffset : RegRef → Nat
  | .named r => regOffset r
  | .offset off => off

/-- The value that a literal stands for (R98, R99). -/
def literalValue : Literal → Value
  | .hex w => .word w
  | .decimal neg digits scale => .word (ofDecimal neg digits scale)
  | .nan => .word 0x7FC00000#32
  | .posInf => .word 0x7F800000#32
  | .negInf => .word 0xFF800000#32
  | .negZero => .word 0x80000000#32
  | .hvar t => .hvar t

/-- `WR reg, value` on a named register. -/
def writeTo (r : Reg) (v : Literal) : HostEvent := hostWrite (regOffset r) (literalValue v)

/-- `RD reg -> t` on a named register. -/
def readTo (r : Reg) (t : Nat) : HostEvent := hostRead (regOffset r) (some t)

/-- The write of a command's word to `CMD` (R98). -/
def issue (i : Instr) : HostEvent := commandWrite (encode i)

/-- The accesses of `MODULATE x -> ta, tb` (R100). -/
def modulateEvents (x : Literal) (ta tb : Nat) : List HostEvent :=
  [writeTo .modX x, issue .modStep, readTo .modYre ta, readTo .modYim tb]

/-- The accesses of `DEMODULATE ya, yb -> tz` (R100). -/
def demodulateEvents (ya yb : Literal) (tz : Nat) : List HostEvent :=
  [writeTo .demYre ya, writeTo .demYim yb, issue .demStep, readTo .demZ tz]

/-- The accesses that a statement assembles to (R98, R100). -/
def assemble : Stmt → List HostEvent
  | .wr r v => [hostWrite (refOffset r) (literalValue v)]
  | .rd r dst => [hostRead (refOffset r) dst]
  | .command i => [issue i]
  | .modOpen m c sb sc => [writeTo .midx m, writeTo .cfo c, issue (.modCreate sb sc)]
  | .demOpen m c sb sc => [writeTo .midx m, writeTo .cfo c, issue (.demCreate sb sc)]
  | .modulate x ta tb => modulateEvents x ta tb
  | .demodulate ya yb tz => demodulateEvents ya yb tz
  | .loopback x tz => modulateEvents x 90 91 ++ demodulateEvents (.hvar 90) (.hvar 91) tz
  | .clrerr => [writeTo .errflags (.hex 0x0000000E#32)]
  | .check ts => [readTo .status ts]

/-- The accesses of a program, line after line: the host has no other control flow (R100). -/
def assembleLines (lines : List Line) : List HostEvent :=
  lines.flatMap fun l => assemble l.stmt

end Sys2Proof.Machine
end

