-- ==== Sys2Proof/Safety.lean ====
section
/-! DEFINITION. The terms in which claims about the machine are stated: the value of a binary32 word and
what it is to be the correctly rounded result, the invariant of the block, runs of host events, and
the histories of a unit. -/

namespace Sys2Proof.Safety

open Machine

/-! ### Correct rounding -/

/-- The real value of a finite word (00_scope.md R7). -/
noncomputable def value (w : Word) : ℝ := (val w : ℝ) * (2 : ℝ) ^ (-149 : ℤ)

/-- The place of a word that is not a NaN among the extended reals, where -0 equals +0 (00_scope.md R11). -/
noncomputable def extendedValue (w : Word) : EReal :=
  if isInf w then (if signBit w then ⊥ else ⊤) else (value w : EReal)

/-- The least magnitude that rounds to an infinity: half a last place above the largest finite value. -/
noncomputable def overflowBound : ℝ := (2 : ℝ) ^ 128 - (2 : ℝ) ^ 103

/-- `r` is the exact real `x` rounded once to binary32, to nearest with ties to even (00_scope.md R8):
an infinity past the overflow bound; else a finite word that no finite word comes nearer to `x`
than, whose last fraction bit is 0 if another value is just as near. A result that is not an exact
zero has the sign of `x`. -/
def Nearest (x : ℝ) (r : Word) : Prop :=
  (overflowBound ≤ |x| → isInf r = true) ∧
  (|x| < overflowBound → isFinite r = true ∧
    ∀ c, isFinite c = true →
      |value r - x| ≤ |value c - x| ∧
      (|value c - x| = |value r - x| → value c ≠ value r → r.getLsbD 0 = false)) ∧
  (x ≠ 0 → (signBit r = true ↔ x < 0))

/-! ### The invariant of the block -/

/-- The frequency estimate is a NaN or within ±PLL_WMAX (10_state.md R55). -/
def omegaBounded (P : Params) (w : Word) : Bool :=
  isNaN w || (le32 (neg32 P.pllWmax) w && le32 w P.pllWmax)

/-- The host variables stand in rising order of their numbers, so equal sets of variables are equal data. -/
def varsSorted : List (Nat × Word) → Bool
  | [] => true
  | [_] => true
  | a :: b :: rest => decide (a.1 < b.1) && varsSorted (b :: rest)

/-- What holds of the MOD unit in every state that a run reaches. -/
structure ModInv (P : Params) (u : ModUnit) : Prop where
  /-- `MLINE` has N entries (10_state.md R60). -/
  line : u.mline.length = P.hilbN
  /-- A unit that is NOT_CREATED holds only zeros (60_exceptions.md R237). -/
  idle : u.created = false → u = initMod P
  /-- A CREATED unit holds a valid configuration (40_common.md R119), so m > 0 and SB is not 3. -/
  config : u.created = true → validConfig u.m u.sb = true
  /-- Double sideband never touches the line (10_state.md R64). -/
  unused : u.sb = 0#2 → u.mline = zeroLine P

/-- What holds of the DEM unit in every state that a run reaches. -/
structure DemInv (P : Params) (u : DemUnit) : Prop where
  /-- `LR` has N entries (10_state.md R60). -/
  lineR : u.lr.length = P.hilbN
  /-- `LI` has N entries (10_state.md R60). -/
  lineI : u.li.length = P.hilbN
  /-- A unit that is NOT_CREATED holds only zeros (60_exceptions.md R237). -/
  idle : u.created = false → u = initDem P
  /-- A CREATED unit holds a valid configuration (40_common.md R119). -/
  config : u.created = true → validConfig u.m u.sb = true
  /-- The frequency estimate is bounded (10_state.md R55). -/
  omega : omegaBounded P u.omega = true
  /-- Only the coherent mode moves the loop (10_state.md R64). -/
  loop : ¬(u.sb = 0#2 ∧ u.sc = true) →
    u.theta = pzero ∧ u.omega = pzero ∧ u.perr = pzero
  /-- Double sideband never touches the lines (10_state.md R64). -/
  unused : u.sb = 0#2 → u.lr = zeroLine P ∧ u.li = zeroLine P

/-- The invariant of a block. -/
structure Inv (P : Params) (s : State) : Prop where
  /-- `STATUS` shows the lifecycle states, and its reserved bits read 0 (10_state.md R31, R40). -/
  status : s.status = statusFields (lastErr s.status) s.mod.created s.dem.created
  /-- Error codes 4 to 15 are never produced (60_exceptions.md R221). -/
  code : (lastErr s.status).toNat ≤ 3
  /-- The reserved bits of `ERRFLAGS` read 0 (10_state.md R41). -/
  errflags : s.errflags &&& 0xFFFFFFF1#32 = 0
  mod : ModInv P s.mod
  dem : DemInv P s.dem
  /-- The host variables are in canonical order (log entry 2). -/
  vars : varsSorted s.hostSide.vars = true

/-! ### Runs -/

/-- The machine has performed the events `es`, given before what is pending in `s`, and stands in `t`. -/
def RunsTo (es : List HostEvent) (s t : State) : Prop :=
  Host.Core.run Sys2Proof.core es.length (placeEvents es s) = .next t

/-- The accesses by which a host modulates one sample: the write of `MOD_X` and the step. -/
def modulateSample (x : Word) : List HostEvent :=
  [hostWrite (regOffset .modX) (.word x), commandWrite 0x00000002#32]

/-- The accesses by which a host modulates a list of samples, first sample first. -/
def modulateSamples (xs : List Word) : List HostEvent := xs.flatMap modulateSample

/-- The accesses by which a host demodulates one sample: the writes of both parts and the step. -/
def demodulateSample (y : Word × Word) : List HostEvent :=
  [hostWrite (regOffset .demYre) (.word y.1), hostWrite (regOffset .demYim) (.word y.2),
   commandWrite 0x00000012#32]

/-- The accesses by which a host demodulates a list of samples, first sample first. -/
def demodulateSamples (ys : List (Word × Word)) : List HostEvent := ys.flatMap demodulateSample

/-- The events whose performance is the write of the word `w` to `CMD` by the owner. -/
def isCommand (e : HostEvent) (w : Word) (s : State) : Prop :=
  ∃ v, e = hostWrite (regOffset .cmd) v ∧ valueOf s.hostSide.vars v = some w

/-! ### Commands and their checks -/

/-- The commands of the MOD unit. -/
def isModCommand : Instr → Bool
  | .modCreate _ _ => true
  | .modStep => true
  | .modDestroy => true
  | .nop => false
  | .demCreate _ _ => false
  | .demStep => false
  | .demDestroy => false

/-- The commands of the DEM unit. -/
def isDemCommand : Instr → Bool
  | .demCreate _ _ => true
  | .demStep => true
  | .demDestroy => true
  | .nop => false
  | .modCreate _ _ => false
  | .modStep => false
  | .modDestroy => false

/-- The unit's lifecycle state forbids the command (60_exceptions.md R224). -/
def stateWrong (s : State) : Instr → Bool
  | .nop => false
  | .modCreate _ _ => s.mod.created
  | .modStep => !s.mod.created
  | .modDestroy => !s.mod.created
  | .demCreate _ _ => s.dem.created
  | .demStep => !s.dem.created
  | .demDestroy => !s.dem.created

/-- The command creates a unit and its configuration is invalid (60_exceptions.md R222). -/
def configWrong (s : State) : Instr → Bool
  | .modCreate sb _ => !validConfig s.midx sb
  | .demCreate sb _ => !validConfig s.midx sb
  | .nop => false
  | .modStep => false
  | .modDestroy => false
  | .demStep => false
  | .demDestroy => false

/-- `s` with error `c` recorded as 60_exceptions.md R225 says, and nothing else changed. -/
def errorRecorded (c : ErrCode) (s : State) : State :=
  { s with
    status := statusAfter s.status c s.mod.created s.dem.created
    errflags := s.errflags ||| errFlagBit c }

/-- A word of [-PI32, PI32). -/
def inPhaseRange (th : Word) : Bool := ge32 th (neg32 pi32) && lt32 th pi32

/-- The loop is poisoned: phase error, frequency estimate and phase are NaN (42_demodulator.md R168). -/
def loopNaN (u : DemUnit) : Bool := isNaN u.perr && isNaN u.omega && isNaN u.theta

/-- The unit runs in the coherent mode: CREATED, double sideband, the carrier suppressed. -/
def coherentMode (u : DemUnit) : Bool := u.created && u.sb == 0#2 && u.sc

/-! ### Delay lines and impulses (40_common.md R114, R117) -/

/-- The line after pushing the values `xs`, first value first, into a zero line. -/
def pushAll (P : Params) (xs : List Word) : List Word := xs.foldl (qfPush P) (zeroLine P)

/-- The values pushed up to push `n` of a unit impulse at push `p`. -/
def impulse (p n : Nat) : List Word := (List.range (n + 1)).map fun i => if i = p then one else pzero

/-- The filter's coefficients are finite and none is -0, so that a product with 1.0 is the tap itself. -/
def plainTaps (P : Params) : Bool := P.hilbCoef.all fun h => isFinite h && h != 0x80000000#32

/-- The product that tap `k` contributes for a line (40_common.md R115). -/
def tapProduct (P : Params) (line : List Word) (k : Nat) : Word :=
  mul32 P (coef P k) (line.getD k pzero)

/-- The accumulator of 40_common.md R115 after the taps 0 to n-1 of a line. -/
def tapSumTo (P : Params) (line : List Word) (n : Nat) : Word :=
  (List.range n).foldl (fun acc k => add32 P acc (tapProduct P line k)) pzero

/-- The sum over a line, tap by tap from k = 0, accumulated in binary32 (40_common.md R115). -/
def tapSum (P : Params) (line : List Word) : Word := tapSumTo P line P.hilbN

end Sys2Proof.Safety
end

