-- ==== Sys2Proof/Certificates/Slice0/Obligations.lean ====
section
/-! DEFINITION. The statements for the provers. Each docstring names the rules it formalises and says
where a clause is the model's own choice. A next state is written as the old state with the fields
that change, so each such statement is also the frame of its instruction: everything not named is
unchanged, the host's side included. The block has no memory (10_state.md R62). -/

open Sys2Proof Sys2Proof.Machine Sys2Proof.Safety

/-! ### Arithmetic (00_scope.md R8 to R13) -/

/-- R8, R11: `add32` and `sub32` of finite operands are the exact sum and difference rounded once; an
exact zero sum is -0 only for two negative zeros, and an exact zero difference only for -0 less +0 (R9;
IEEE 754, log entry 9). -/
def Obligations.AddAndSubAreCorrectlyRounded : Prop :=
  ∀ (P : Params) (a b : Word), isFinite a = true → isFinite b = true →
    Nearest (value a + value b) (add32 P a b) ∧
    Nearest (value a - value b) (sub32 P a b) ∧
    (value a + value b = 0 →
      add32 P a b = if signBit a && signBit b then 0x80000000#32 else 0#32) ∧
    (value a - value b = 0 →
      sub32 P a b = if signBit a && !signBit b then 0x80000000#32 else 0#32)

/-- R8, R11: `mul32` of finite operands is the exact product rounded once, with the product's sign. -/
def Obligations.MulIsCorrectlyRounded : Prop :=
  ∀ (P : Params) (a b : Word), isFinite a = true → isFinite b = true →
    Nearest (value a * value b) (mul32 P a b) ∧
    signBit (mul32 P a b) = (signBit a ^^ signBit b)

/-- R8, R11: `div32` of finite operands by a divisor that is not zero is the exact quotient rounded once. -/
def Obligations.DivIsCorrectlyRounded : Prop :=
  ∀ (P : Params) (a b : Word), isFinite a = true → isFinite b = true → value b ≠ 0 →
    Nearest (value a / value b) (div32 P a b) ∧
    signBit (div32 P a b) = (signBit a ^^ signBit b)

/-- R8, R11: `sqrt32` of a finite operand that is not negative is the exact root rounded once. -/
def Obligations.SqrtIsCorrectlyRounded : Prop :=
  ∀ (P : Params) (a : Word), isFinite a = true → 0 ≤ value a →
    Nearest (Real.sqrt (value a)) (sqrt32 P a) ∧
    (value a = 0 → sqrt32 P a = a)

/-- R11: the comparisons order finite words by their values (so -0 equals +0), place the infinities at
the ends, and are false if an operand is a NaN; all four, on any two words that are no NaN, infinite
ones included, are the order of the extended reals. -/
def Obligations.ComparisonsOrderValues : Prop :=
  (∀ a b, isNaN a = true ∨ isNaN b = true →
    lt32 a b = false ∧ le32 a b = false ∧ gt32 a b = false ∧ ge32 a b = false) ∧
  (∀ a b, isFinite a = true → isFinite b = true →
    (lt32 a b = true ↔ value a < value b) ∧ (le32 a b = true ↔ value a ≤ value b) ∧
    (gt32 a b = true ↔ value b < value a) ∧ (ge32 a b = true ↔ value b ≤ value a)) ∧
  (∀ a, isFinite a = true → lt32 a 0x7F800000#32 = true ∧ lt32 0xFF800000#32 a = true) ∧
  lt32 0xFF800000#32 0x7F800000#32 = true ∧
  ∀ a b, isNaN a = false → isNaN b = false →
    (lt32 a b = true ↔ extendedValue a < extendedValue b) ∧
    (le32 a b = true ↔ extendedValue a ≤ extendedValue b) ∧
    (gt32 a b = true ↔ extendedValue b < extendedValue a) ∧
    (ge32 a b = true ↔ extendedValue b ≤ extendedValue a)

/-- R10: every NaN result is `NAN_RESULT`, whatever the operands' payloads; an operand that is a NaN and
every invalid operation give it; it is 0x7FC00000 in this block; `neg32` only flips bit 31. -/
def Obligations.NanResultsAreCanonical : Prop :=
  (∀ (P : Params) (a b : Word),
    (isNaN a = true ∨ isNaN b = true →
      add32 P a b = P.nanResult ∧ sub32 P a b = P.nanResult ∧ mul32 P a b = P.nanResult ∧
      div32 P a b = P.nanResult) ∧
    (isNaN a = true → sqrt32 P a = P.nanResult) ∧
    (isInf a = true → isInf b = true →
      div32 P a b = P.nanResult ∧
      (signBit a ≠ signBit b → add32 P a b = P.nanResult) ∧
      (signBit a = signBit b → sub32 P a b = P.nanResult)) ∧
    (isInf a = true → isZero b = true → mul32 P a b = P.nanResult ∧ mul32 P b a = P.nanResult) ∧
    (isZero a = true → isZero b = true → div32 P a b = P.nanResult) ∧
    (lt32 a pzero = true → sqrt32 P a = P.nanResult) ∧
    (isNaN (add32 P a b) = true → add32 P a b = P.nanResult) ∧
    (isNaN (sub32 P a b) = true → sub32 P a b = P.nanResult) ∧
    (isNaN (mul32 P a b) = true → mul32 P a b = P.nanResult) ∧
    (isNaN (div32 P a b) = true → div32 P a b = P.nanResult) ∧
    (isNaN (sqrt32 P a) = true → sqrt32 P a = P.nanResult)) ∧
  thisBlock.nanResult = 0x7FC00000#32 ∧
  (∀ (a : Word) (i : Nat), i < 32 →
    (neg32 a).getLsbD i = if i = 31 then !a.getLsbD 31 else a.getLsbD i)

/-- R9, R11: infinite operands and zero divisors where the result is not a NaN (IEEE 754, log entry 9). -/
def Obligations.InfinitiesFollowIEEE : Prop :=
  ∀ (P : Params) (a b : Word),
    (isInf a = true → isFinite b = true →
      add32 P a b = a ∧ add32 P b a = a ∧ sub32 P a b = a ∧ sub32 P b a = neg32 a) ∧
    (isInf a = true → isInf b = true → signBit a = signBit b → add32 P a b = a) ∧
    (isInf a = true → isNaN b = false → isZero b = false →
      mul32 P a b = pack (signBit a ^^ signBit b) 0x7F800000 ∧
      mul32 P b a = pack (signBit a ^^ signBit b) 0x7F800000) ∧
    (isInf a = true → isFinite b = true →
      div32 P a b = pack (signBit a ^^ signBit b) 0x7F800000 ∧
      div32 P b a = pack (signBit a ^^ signBit b) 0) ∧
    (isFinite a = true → isZero a = false → isZero b = true →
      div32 P a b = pack (signBit a ^^ signBit b) 0x7F800000) ∧
    sqrt32 P 0x7F800000#32 = 0x7F800000#32

/-- R12: the sign function of the phase detector. -/
def Obligations.SignFunctionHasFourCases : Prop :=
  ∀ v : Word,
    (isNaN v = true → sgn32 v = v) ∧
    (gt32 v pzero = true → sgn32 v = 0x3F800000#32) ∧
    (lt32 v pzero = true → sgn32 v = 0xBF800000#32) ∧
    (isNaN v = false → gt32 v pzero = false → lt32 v pzero = false → sgn32 v = 0x00000000#32)

/-- R99: an `f:` literal is its decimal correctly rounded, and the rule's four examples. -/
def Obligations.DecimalLiteralsAreCorrectlyRounded : Prop :=
  (∀ digits scale : Nat,
    Nearest ((digits : ℝ) / 10 ^ scale) (ofDecimal false digits scale) ∧
    ofDecimal true digits scale = neg32 (ofDecimal false digits scale)) ∧
  ofDecimal false 1 1 = 0x3DCCCCCD#32 ∧ ofDecimal false 1 0 = 0x3F800000#32 ∧
  ofDecimal true 1 0 = 0xBF800000#32 ∧ ofDecimal false 9 1 = 0x3F666666#32

/-! ### Parameters, oscillator and filter -/

/-- R6, R113: this block's filter satisfies (a) to (d), and its loop parameters, NaN and base address
meet their constraints. -/
def Obligations.BlockParametersAreAdmissible : Prop :=
  filterWf thisBlock = true ∧ loopWf thisBlock = true ∧
  thisBlock.hilbN = 19 ∧ delay thisBlock = 9

/-- R17: the three requirements on the oscillator: the exact values at +0.0, a NaN for a NaN or infinite
angle, results in [-1, 1]. -/
def Obligations.OscillatorMeetsItsRequirements : Prop := DdsWf thisBlock

/-- R17, 42_demodulator.md R164: the oscillator is the cosine and the sine. For every angle up to 2^20
radians, far beyond the loop's own range, both functions are within 2^-24 of the real ones; and for
every angle up to 1 the sine is within 2^-23 of the angle's size, so it does not vanish for small angles.
That the last half place is right as well (correct rounding, log entry 8) is no part of this. -/
def Obligations.OscillatorIsNearCosineAndSine : Prop :=
  ∀ theta : Word, isFinite theta = true →
    (|value theta| ≤ 2 ^ 20 →
      |value (thisBlock.ddsCos theta) - Real.cos (value theta)| ≤ 2 ^ (-24 : ℤ) ∧
      |value (thisBlock.ddsSin theta) - Real.sin (value theta)| ≤ 2 ^ (-24 : ℤ)) ∧
    (|value theta| ≤ 1 →
      |value (thisBlock.ddsSin theta) - Real.sin (value theta)| ≤
        2 ^ (-23 : ℤ) * |value theta| + 2 ^ (-149 : ℤ))

/-- R114, R116: a push moves every entry by one and puts the new value first, and after pushing `xs` into a
zero line entry k holds the value pushed k pushes before the last, or +0.0 if there was none; the in-phase branch is
entry D, the value pushed D pushes before the last. -/
def Obligations.LineHoldsTheLastPushes : Prop :=
  (∀ (P : Params) (ln : List Word) (v : Word), ln.length = P.hilbN → 0 < P.hilbN →
    (qfPush P ln v)[0]? = some v ∧
    ∀ k, k + 1 < P.hilbN → (qfPush P ln v)[k + 1]? = ln[k]?) ∧
  (∀ (P : Params) (xs : List Word), (pushAll P xs).length = P.hilbN ∧
    ∀ k, k < P.hilbN →
      (pushAll P xs)[k]? =
        some (if k < xs.length then xs.getD (xs.length - 1 - k) pzero else pzero)) ∧
  (∀ (P : Params) (ln : List Word), delay P < ln.length →
    some (qfInphase P ln) = ln[delay P]?) ∧
  ∀ (P : Params) (xs : List Word), 0 < P.hilbN →
    qfInphase P (pushAll P xs) =
      if delay P < xs.length then xs.getD (xs.length - 1 - delay P) pzero else pzero

/-- R115: the filter output is the sum over all N taps in the order k = 0, 1, ..., and what entries that
are not finite make of it: a NaN entry under any tap, an infinite entry under a zero tap and two
infinite products of opposite signs make it a NaN; a single infinite entry under a tap that is not zero
makes it the infinity with the product's sign. The rule asks for the last that every other entry is
finite; the accumulation also needs that the taps before it have not overflowed to the opposite
infinity, which then gives a NaN, and entries of up to 2^123 before it cannot (taps within [-1, 1], which
this block's are; log entry 16). -/
def Obligations.FilterSumsEveryTap : Prop :=
  (∀ (P : Params) (ln : List Word), P.hilbCoef.length = P.hilbN → ln.length = P.hilbN →
    qfFir P ln = tapSum P ln ∧
    (isNaN P.nanResult = true →
      (∀ (k : Nat) (v : Word), ln[k]? = some v → isNaN v = true → qfFir P ln = P.nanResult) ∧
      (∀ (k : Nat) (v : Word), ln[k]? = some v → isInf v = true → isZero (coef P k) = true →
        qfFir P ln = P.nanResult) ∧
      (∀ j k : Nat, j < P.hilbN → k < P.hilbN →
        isInf (tapProduct P ln j) = true → isInf (tapProduct P ln k) = true →
        signBit (tapProduct P ln j) ≠ signBit (tapProduct P ln k) → qfFir P ln = P.nanResult) ∧
      (P.hilbCoef.all inUnit = true → ∀ (k : Nat) (v r : Word),
        ln[k]? = some v → isInf v = true → isZero (coef P k) = false →
        (∀ (j : Nat) (u : Word), ln[j]? = some u → j ≠ k → isFinite u = true) →
        r = pack (signBit (coef P k) ^^ signBit v) 0x7F800000 →
        (tapSumTo P ln k ≠ neg32 r → qfFir P ln = r) ∧
        (tapSumTo P ln k = neg32 r → qfFir P ln = P.nanResult) ∧
        (P.hilbN ≤ 31 →
          (∀ (j : Nat) (u : Word), ln[j]? = some u → j < k → |value u| ≤ 2 ^ 123) →
          qfFir P ln = r)))) ∧
  thisBlock.hilbCoef.all inUnit = true

/-- R117: the response to a unit impulse at push p. The in-phase branch is 1.0 at push p + D alone; the
filter gives its taps at pushes p to p + N - 1 and +0.0 elsewhere; D = 9 in this block. The taps are
taken finite and none -0 (`plainTaps`), which this block's are. -/
def Obligations.ImpulseComesOutDelayed : Prop :=
  (∀ (P : Params), filterWf P = true → plainTaps P = true → ∀ p n : Nat,
    qfInphase P (pushAll P (impulse p n)) = (if n = p + delay P then one else pzero) ∧
    qfFir P (pushAll P (impulse p n)) =
      if p ≤ n ∧ n ≤ p + P.hilbN - 1 then coef P (n - p) else pzero) ∧
  plainTaps thisBlock = true ∧ delay thisBlock = 9

/-! ### Encoding -/

/-- R95: decoding and encoding are inverse on the whole command set, every SB code included. -/
def Obligations.DecodeAndEncodeAgree : Prop :=
  ∀ (i : Instr) (w : Word), decode w = .command i ↔ encode i = w

/-- R95: exactly one row of the opcode map matches a legal word, that of its command, and no row matches
any other word; the sixteen create words in full. -/
def Obligations.ExactlyOneRowMatchesLegalWords : Prop :=
  (∀ (w : Word) (i : Instr), decode w = .command i →
    ((opcodeMap.filter (matchesRow w)).map (·.mnemonic)) = [mnemonicOf i]) ∧
  (∀ (w : Word) (why : Illegal), decode w = .illegal why → opcodeMap.filter (matchesRow w) = []) ∧
  ([0, 1, 2, 3].map fun sb => encode (.modCreate sb false)) =
    [0x00000001#32, 0x00000101#32, 0x00000201#32, 0x00000301#32] ∧
  ([0, 1, 2, 3].map fun sb => encode (.modCreate sb true)) =
    [0x00000401#32, 0x00000501#32, 0x00000601#32, 0x00000701#32] ∧
  ([0, 1, 2, 3].map fun sb => encode (.demCreate sb false)) =
    [0x00000011#32, 0x00000111#32, 0x00000211#32, 0x00000311#32] ∧
  ([0, 1, 2, 3].map fun sb => encode (.demCreate sb true)) =
    [0x00000411#32, 0x00000511#32, 0x00000611#32, 0x00000711#32]

/-- R95, R98: some words written out from the encodings decode to the commands they stand for. -/
def Obligations.SampleWordsDecode : Prop :=
  decode 0x00000000#32 = .command .nop ∧
  decode 0x00000501#32 = .command (.modCreate 1 true) ∧
  decode 0x00000002#32 = .command .modStep ∧
  decode 0x00000003#32 = .command .modDestroy ∧
  decode 0x00000611#32 = .command (.demCreate 2 true) ∧
  decode 0x00000012#32 = .command .demStep ∧
  decode 0x00000013#32 = .command .demDestroy

/-- R96: a word matches no row exactly if its opcode is unknown or its reserved field is not zero; its
write to `CMD` records error 2 and changes nothing else; the rule's five examples. -/
def Obligations.IllegalWordsRecordErrorTwo : Prop :=
  (∀ w : Word, opcodeMap.any (matchesRow w) = false ↔
    w.extractLsb' 0 8 ∉ [0x00#8, 0x01#8, 0x02#8, 0x03#8, 0x11#8, 0x12#8, 0x13#8] ∨
    (w.extractLsb' 0 8 ∈ [0x01#8, 0x11#8] ∧ w.extractLsb' 11 21 ≠ 0) ∨
    (w.extractLsb' 0 8 ∈ [0x00#8, 0x02#8, 0x03#8, 0x12#8, 0x13#8] ∧ w.extractLsb' 8 24 ≠ 0)) ∧
  (∀ (w : Word) (s : State), opcodeMap.any (matchesRow w) = false →
    step (placeEvents [commandWrite w] s) = .next (errorRecorded .illegalCommand s)) ∧
  decode 0x00000004#32 = .illegal .unknownOpcode ∧
  decode 0x00000010#32 = .illegal .unknownOpcode ∧
  decode 0x00000102#32 = .illegal .reservedBits ∧
  decode 0x00000801#32 = .illegal .reservedBits ∧
  decode 0x80000000#32 = .illegal .reservedBits

/-! ### Steps and host accesses -/

/-- R110, R202: a write of a command word to `CMD` runs exactly that command, whether the host writes a
literal or a word it read earlier; and so does the word that `withFetchWord` places. -/
def Obligations.StepRunsTheDecodedCommand : Prop :=
  (∀ (s : State) (v : Value) (rest : List HostEvent) (w : Word) (i : Instr),
    s.hostSide.pending = hostWrite 0x008 v :: rest →
    valueOf s.hostSide.vars v = some w → decode w = .command i →
    step s = exec i { s with hostSide := { s.hostSide with pending := rest } }) ∧
  ∀ (s : State) (w : Nat) (i : Instr), decode (BitVec.ofNat 32 w) = .command i →
    step (s.withFetchWord 32 w) = exec i s

/-- R204: a write to one of the five RW registers stores the word exactly, and no other register of the
window, no unit and no other part of the state changes. -/
def Obligations.RwRegistersKeepTheWrittenWord : Prop :=
  ∀ (off : Nat) (v : Word) (s : State), off ∈ [0x014, 0x018, 0x020, 0x040, 0x044] →
    ∃ t, step (placeEvents [hostWrite off (.word v)] s) = .next t ∧
      memRead thisBlock t off = v ∧
      (∀ off', off' % 4 = 0 → off' < 0x100 → off' ≠ off →
        memRead thisBlock t off' = memRead thisBlock s off') ∧
      t.mod = s.mod ∧ t.dem = s.dem ∧ t.status = s.status ∧ t.errflags = s.errflags ∧
      t.hostSide = s.hostSide

/-- R205: a write to any offset but `CMD`, `ERRFLAGS` and the five RW registers is ignored. -/
def Obligations.WritesElsewhereAreIgnored : Prop :=
  ∀ (off : Nat) (v : Word) (s : State), off % 4 = 0 → off < 0x100 →
    off ∉ [0x008, 0x010, 0x014, 0x018, 0x020, 0x040, 0x044] →
    step (placeEvents [hostWrite off (.word v)] s) = .next s

/-- R203: a write to `ERRFLAGS` clears exactly the flags written as 1 among bits 3:1. -/
def Obligations.ErrflagsWriteClearsWrittenOnes : Prop :=
  ∀ (v : Word) (s : State), ∃ x : Word,
    step (placeEvents [hostWrite 0x010 (.word v)] s) = .next { s with errflags := x } ∧
    (∀ i, i < 32 → x.getLsbD i =
      (s.errflags.getLsbD i && !(decide (1 ≤ i ∧ i ≤ 3) && v.getLsbD i))) ∧
    (v = 0x0000000E#32 → s.errflags &&& 0xFFFFFFF1#32 = 0 → x = 0) ∧
    (v = 0x00000000#32 → x = s.errflags)

/-- R76, R201: an admitted read returns the register and changes nothing of the block; and which register
each offset of the window is: the table of 10_state.md R33 over the fields of any state, with SB in bits
1:0 and SC in bit 2 of the two configuration registers (R48, R53). -/
def Obligations.ReadsHaveNoSideEffect : Prop :=
  (∀ (off : Nat) (dst : Option Nat) (s : State), off % 4 = 0 → off < 0x100 →
    ∃ h : HostSide,
      step (placeEvents [hostRead off dst] s) = .next { s with hostSide := h } ∧
      h.pending = s.hostSide.pending ∧ h.rdata = some (memRead thisBlock s off) ∧
      (∀ t, dst = some t → getVar h.vars t = some (memRead thisBlock s off)) ∧
      (∀ t, dst ≠ some t → getVar h.vars t = getVar s.hostSide.vars t)) ∧
  ∀ s : State, ∃ modCfg demCfg : Word,
    ((List.range 64).map fun k => memRead thisBlock s (4 * k)) =
      [0x414D4D31#32, 0x00000913#32, 0#32, s.status, s.errflags, s.midx, s.cfo, 0#32,
       s.modX, s.mod.yre, s.mod.yim, s.mod.nidx, s.mod.m, s.mod.cfo, modCfg, 0#32,
       s.demYre, s.demYim, s.dem.z, s.dem.nidx, s.dem.m, s.dem.cfo, demCfg, s.dem.theta,
       s.dem.omega, s.dem.perr, 0x3CA3D70A#32, 0x3951B717#32, 0x3F000000#32, 0#32, 0#32, 0#32] ++
      [0xBBB96DD0#32, 0#32, 0xBC8BC81A#32, 0#32, 0xBD6FF656#32, 0#32, 0xBE275216#32, 0#32,
       0xBF1E741A#32, 0#32, 0x3F1E741A#32, 0#32, 0x3E275216#32, 0#32, 0x3D6FF656#32, 0#32,
       0x3C8BC81A#32, 0#32, 0x3BB96DD0#32] ++ List.replicate 13 0#32 ∧
    modCfg.extractLsb' 0 2 = s.mod.sb ∧ modCfg.getLsbD 2 = s.mod.sc ∧ modCfg.extractLsb' 3 29 = 0 ∧
    demCfg.extractLsb' 0 2 = s.dem.sb ∧ demCfg.getLsbD 2 = s.dem.sc ∧ demCfg.extractLsb' 3 29 = 0

/-- R59: reserved offsets read 0 and ignore writes, and an offset of 0x100 or more is outside the window. -/
def Obligations.ReservedOffsetsReadZero : Prop :=
  (∀ (off : Nat) (v : Word) (s : State), off ∈ [0x01C, 0x03C, 0x074, 0x078, 0x07C] →
    memRead thisBlock s off = 0x00000000#32 ∧
    step (placeEvents [hostWrite off (.word v)] s) = .next s) ∧
  ∀ off n : Nat, 0x100 ≤ off → admitted off n = false

/-- R207, R72: which accesses are admitted; that an access that is not ends in the fault that names why,
and that a second master's access is refused, are the model's forms of "no step" (log entries 4, 5). -/
def Obligations.AccessesNotAdmittedHaveNoStep : Prop :=
  (∀ off n : Nat, admitted off n = true ↔ n = 4 ∧ off % 4 = 0 ∧ off < 0x100) ∧
  (∀ (a : Access) (s : State), a.master = .owner → admitted a.off a.width = false →
    ∃ f, step (placeEvents [.access a] s) = .fault f ∧
      (f = .accessWidth a.width ∨ f = .accessMisaligned a.off ∨ f = .accessOutside a.off)) ∧
  ∀ (a : Access) (s : State), a.master = .other →
    step (placeEvents [.access a] s) = .refused .secondMaster

/-- R250, R33: what a block reset leaves in every state: both units zero and NOT_CREATED, every register
at its reset value, and what every offset of the window then reads. The rule says nothing of the host's
side, and neither does this statement. -/
def Obligations.ResetClearsTheBlock : Prop :=
  ((List.range 64).map fun k => memRead thisBlock State.reset (4 * k)) =
    [0x414D4D31#32, 0x00000913#32, 0#32, 0#32, 0#32, 0#32, 0#32, 0#32] ++
    List.replicate 16 0#32 ++
    [0#32, 0#32, 0x3CA3D70A#32, 0x3951B717#32, 0x3F000000#32, 0#32, 0#32, 0#32] ++
    [0xBBB96DD0#32, 0#32, 0xBC8BC81A#32, 0#32, 0xBD6FF656#32, 0#32, 0xBE275216#32, 0#32,
     0xBF1E741A#32, 0#32, 0x3F1E741A#32, 0#32, 0x3E275216#32, 0#32, 0x3D6FF656#32, 0#32,
     0x3C8BC81A#32, 0#32, 0x3BB96DD0#32] ++ List.replicate 13 0#32 ∧
  ∀ s : State, ∃ h : HostSide, step (placeEvents [.reset] s) = .next
    { status := 0, errflags := 0, midx := 0, cfo := 0, modX := 0, demYre := 0, demYim := 0,
      mod := { created := false, m := 0, cfo := 0, sb := 0, sc := false, yre := 0, yim := 0,
               nidx := 0, mline := List.replicate 19 0 },
      dem := { created := false, m := 0, cfo := 0, sb := 0, sc := false, z := 0, nidx := 0,
               theta := 0, omega := 0, perr := 0, lr := List.replicate 19 0,
               li := List.replicate 19 0 },
      hostSide := h }

/-- R70, R73: the block recovers the offset from a bus address of its window, and the four little-endian
byte lanes of a word hold its bits 8i+7:8i. -/
def Obligations.BusAddressesAndByteLanes : Prop :=
  (∀ (P : Params) (off : Nat), P.blockBase % 256 = 0 → off < 0x100 →
    decodedOffset (busAddress P off) = off) ∧
  (∀ w : Word, ofLanes (byteLane w 0) (byteLane w 1) (byteLane w 2) (byteLane w 3) = w) ∧
  ∀ (w : Word) (i j : Nat), i < 4 → j < 8 → (byteLane w i).getLsbD j = w.getLsbD (8 * i + j)

/-! ### Errors -/

/-- R225: what the end of a command records: the code in `STATUS.LASTERR`, the flag of a code that is
not 0, the two lifecycle bits; no other bit and nothing else. -/
def Obligations.CommandEndRecordsItsCode : Prop :=
  ∀ (c : ErrCode) (s : State), ∃ st ef : Word,
    complete c s = { s with status := st, errflags := ef } ∧
    lastErr st = errNumber c ∧ statusMod st = s.mod.created ∧ statusDem st = s.dem.created ∧
    (∀ i, i < 32 → i ∉ [0, 1, 4, 5, 6, 7] → st.getLsbD i = s.status.getLsbD i) ∧
    (∀ i, i < 32 → ef.getLsbD i =
      (s.errflags.getLsbD i || (decide (c ≠ .none) && decide (i = (errNumber c).toNat)))) ∧
    raiseError c s = complete c s

/-- R220: every command word completes, and errors are precise: after a command that ended with an error
code, the state is the one before it but for the code's record in the two error registers. -/
def Obligations.FailedCommandsChangeNothingElse : Prop :=
  ∀ (w : Word) (s : State), ∃ t, execute w s = .next t ∧
    (lastErr t.status ≠ 0 → ∃ c, errNumber c = lastErr t.status ∧ t = errorRecorded c s)

/-- R227: exactly one code is reported: IllegalCommand on the word, then InvalidState on the lifecycle,
then InvalidParameter on the configuration, else 0; and the rule's two examples. -/
def Obligations.ErrorPriorityIsFixed : Prop :=
  (∀ (w : Word) (s : State), ∃ t, execute w s = .next t ∧
    (∀ why, decode w = .illegal why → lastErr t.status = 2 ∧ t = errorRecorded .illegalCommand s) ∧
    (∀ i, decode w = .command i → stateWrong s i = true →
      lastErr t.status = 3 ∧ t = errorRecorded .invalidState s) ∧
    (∀ i, decode w = .command i → stateWrong s i = false → configWrong s i = true →
      lastErr t.status = 1 ∧ t = errorRecorded .invalidParameter s) ∧
    (∀ i, decode w = .command i → stateWrong s i = false → configWrong s i = false →
      lastErr t.status = 0 ∧ t.errflags = s.errflags)) ∧
  (∀ s : State, s.mod.created = true →
    execute 0x00000301#32 s = .next (errorRecorded .invalidState s)) ∧
  ∀ s : State, execute 0x00000B01#32 s = .next (errorRecorded .illegalCommand s)

/-- R224: a create of a CREATED unit and a step or destroy of a NOT_CREATED unit record error 3 and
change no unit. -/
def Obligations.LifecycleMisuseRecordsErrorThree : Prop :=
  ∀ s : State,
    (s.mod.created = true → ∀ sb sc,
      exec (.modCreate sb sc) s = .next (errorRecorded .invalidState s)) ∧
    (s.dem.created = true → ∀ sb sc,
      exec (.demCreate sb sc) s = .next (errorRecorded .invalidState s)) ∧
    (s.mod.created = false →
      exec .modStep s = .next (errorRecorded .invalidState s) ∧
      exec .modDestroy s = .next (errorRecorded .invalidState s)) ∧
    (s.dem.created = false →
      exec .demStep s = .next (errorRecorded .invalidState s) ∧
      exec .demDestroy s = .next (errorRecorded .invalidState s))

/-- R119: a configuration is valid iff the two comparisons and the sideband code hold, which is iff m lies
in (0, 1] as a real number (so no NaN and no infinity) and the code is not 3; the rule's boundary words. -/
def Obligations.ValidConfigurationIsTheInterval : Prop :=
  (∀ (m : Word) (sb : BitVec 2), validConfig m sb = true ↔
    gt32 m 0x00000000#32 = true ∧ le32 m 0x3F800000#32 = true ∧ (sb = 0 ∨ sb = 1 ∨ sb = 2)) ∧
  (∀ (m : Word) (sb : BitVec 2), validConfig m sb = true ↔
    isFinite m = true ∧ 0 < value m ∧ value m ≤ 1 ∧ (sb = 0 ∨ sb = 1 ∨ sb = 2)) ∧
  validConfig 0x00000001#32 0 = true ∧ validConfig 0x3F800000#32 0 = true ∧
  validConfig 0x3F800001#32 0 = false ∧ validConfig 0x80000000#32 0 = false ∧
  validConfig 0x7F800000#32 0 = false ∧ validConfig 0x7FC00000#32 0 = false

/-- R222: a create of a NOT_CREATED unit with an invalid configuration records error 1, and the unit
stays NOT_CREATED and unchanged. -/
def Obligations.InvalidConfigurationRecordsErrorOne : Prop :=
  ∀ (sb : BitVec 2) (sc : Bool) (s : State), validConfig s.midx sb = false →
    (s.mod.created = false →
      exec (.modCreate sb sc) s = .next (errorRecorded .invalidParameter s)) ∧
    (s.dem.created = false →
      exec (.demCreate sb sc) s = .next (errorRecorded .invalidParameter s))

/-! ### The commands -/

/-- R112: NOP clears `LASTERR`, keeps `ERRFLAGS` and changes no unit, in every state. -/
def Obligations.NopOnlyRecordsSuccess : Prop :=
  ∀ s : State, exec .nop s = .next
    { s with status := statusAfter s.status .none s.mod.created s.dem.created }

/-- R130: a successful MOD.CREATE copies m, the carrier offset and the two fields of the word, and zeroes
the rest of the unit. -/
def Obligations.ModCreateLoadsTheConfiguration : Prop :=
  ∀ (sb : BitVec 2) (sc : Bool) (s : State), s.mod.created = false →
    validConfig s.midx sb = true →
    exec (.modCreate sb sc) s = .next { s with
      status := statusAfter s.status .none true s.dem.created
      mod := { created := true, m := s.midx, cfo := s.cfo, sb := sb, sc := sc,
               yre := 0, yim := 0, nidx := 0, mline := List.replicate 19 0 } }

/-- R132: the double-sideband output with the carrier is 1 + m·x, purely real. -/
def Obligations.ModStepDoubleSidebandWithCarrier : Prop :=
  ∀ s : State, s.mod.created = true → s.mod.sb = 0 → s.mod.sc = false →
    exec .modStep s = .next { s with
      status := statusAfter s.status .none true s.dem.created
      mod := { s.mod with
        yre := add32 thisBlock 0x3F800000#32 (mul32 thisBlock s.mod.m s.modX)
        yim := 0x00000000#32
        nidx := s.mod.nidx + 1 } }

/-- R133: the double-sideband output without the carrier is m·x, purely real. -/
def Obligations.ModStepDoubleSidebandSuppressed : Prop :=
  ∀ s : State, s.mod.created = true → s.mod.sb = 0 → s.mod.sc = true →
    exec .modStep s = .next { s with
      status := statusAfter s.status .none true s.dem.created
      mod := { s.mod with
        yre := mul32 thisBlock s.mod.m s.modX
        yim := 0x00000000#32
        nidx := s.mod.nidx + 1 } }

/-- R131, R134: a single-sideband step pushes a = m·x (plus 1.0 with the carrier), puts out the entry 9
pushes old and the tap sum over the pushed line, positive for the upper sideband and negated for the
lower. -/
def Obligations.ModStepSingleSideband : Prop :=
  ∀ s : State, s.mod.created = true → s.mod.mline.length = 19 →
    s.mod.sb = 1 ∨ s.mod.sb = 2 →
    ∃ (a q : Word) (ln : List Word),
      (s.mod.sc = true → a = mul32 thisBlock s.mod.m s.modX) ∧
      (s.mod.sc = false → a = add32 thisBlock (mul32 thisBlock s.mod.m s.modX) 0x3F800000#32) ∧
      ln.length = 19 ∧ ln[0]? = some a ∧ (∀ k, k < 18 → ln[k + 1]? = s.mod.mline[k]?) ∧
      (s.mod.sb = 1 → q = tapSum thisBlock ln) ∧
      (s.mod.sb = 2 → q = neg32 (tapSum thisBlock ln)) ∧
      exec .modStep s = .next { s with
        status := statusAfter s.status .none true s.dem.created
        mod := { s.mod with
          mline := ln, yre := ln.getD 9 0, yim := q
          nidx := s.mod.nidx + 1 } }

/-- R136: MOD.DESTROY of a CREATED unit zeroes the whole unit and nothing else. -/
def Obligations.ModDestroyZeroesTheUnit : Prop :=
  ∀ s : State, s.mod.created = true →
    exec .modDestroy s = .next { s with
      status := statusAfter s.status .none false s.dem.created
      mod := { created := false, m := 0, cfo := 0, sb := 0, sc := false, yre := 0, yim := 0,
               nidx := 0, mline := List.replicate 19 0 } }

/-- R160: a successful DEM.CREATE copies the configuration and zeroes the rest of the unit; the frequency
estimate starts at +0.0 whatever `CFO` holds. -/
def Obligations.DemCreateLoadsTheConfiguration : Prop :=
  ∀ (sb : BitVec 2) (sc : Bool) (s : State), s.dem.created = false →
    validConfig s.midx sb = true →
    exec (.demCreate sb sc) s = .next { s with
      status := statusAfter s.status .none s.mod.created true
      dem := { created := true, m := s.midx, cfo := s.cfo, sb := sb, sc := sc, z := 0, nidx := 0,
               theta := 0, omega := 0, perr := 0, lr := List.replicate 19 0,
               li := List.replicate 19 0 } }

/-- R161, R162: envelope detection, z = (sqrt(yr² + yi²) - 1)/m, with the loop and the lines untouched. -/
def Obligations.DemStepEnvelope : Prop :=
  ∀ s : State, s.dem.created = true → s.dem.sb = 0 → s.dem.sc = false →
    exec .demStep s = .next { s with
      status := statusAfter s.status .none s.mod.created true
      dem := { s.dem with
        z := div32 thisBlock
          (sub32 thisBlock
            (sqrt32 thisBlock
              (add32 thisBlock (mul32 thisBlock s.demYre s.demYre)
                (mul32 thisBlock s.demYim s.demYim)))
            0x3F800000#32)
          s.dem.m
        nidx := s.dem.nidx + 1 } }

/-- R161, R163 to R168: the coherent step: the sample is mixed with the old phase, z is formed from the
mixed real part, and then the phase error, the clamped frequency estimate and the wrapped phase are
committed; the lines are untouched. -/
def Obligations.DemStepCoherent : Prop :=
  ∀ s : State, s.dem.created = true → s.dem.sb = 0 → s.dem.sc = true →
    ∃ vr vi e w0 w th0 th : Word,
      vr = add32 thisBlock (mul32 thisBlock s.demYre (ddsCos s.dem.theta))
        (mul32 thisBlock s.demYim (ddsSin s.dem.theta)) ∧
      vi = sub32 thisBlock (mul32 thisBlock s.demYim (ddsCos s.dem.theta))
        (mul32 thisBlock s.demYre (ddsSin s.dem.theta)) ∧
      e = mul32 thisBlock (sgn32 vr) vi ∧
      w0 = add32 thisBlock s.dem.omega (mul32 thisBlock 0x3951B717#32 e) ∧
      (gt32 w0 0x3F000000#32 = true → w = 0x3F000000#32) ∧
      (lt32 w0 0xBF000000#32 = true → w = 0xBF000000#32) ∧
      (gt32 w0 0x3F000000#32 = false → lt32 w0 0xBF000000#32 = false → w = w0) ∧
      th0 = add32 thisBlock (add32 thisBlock s.dem.theta w) (mul32 thisBlock 0x3CA3D70A#32 e) ∧
      (ge32 th0 0x40490FDB#32 = true → th = sub32 thisBlock th0 0x40C90FDB#32) ∧
      (lt32 th0 0xC0490FDB#32 = true → th = add32 thisBlock th0 0x40C90FDB#32) ∧
      (ge32 th0 0x40490FDB#32 = false → lt32 th0 0xC0490FDB#32 = false → th = th0) ∧
      exec .demStep s = .next { s with
        status := statusAfter s.status .none s.mod.created true
        dem := { s.dem with
          z := div32 thisBlock vr s.dem.m, perr := e, omega := w, theta := th
          nidx := s.dem.nidx + 1 } }

/-- R161, R169: the single-sideband step pushes both parts, takes the delayed real part r and the tap sum
p of the imaginary line, and puts out (r ∓ p, less the carrier) halved and divided by m; the loop is
untouched. -/
def Obligations.DemStepSingleSideband : Prop :=
  ∀ s : State, s.dem.created = true → s.dem.lr.length = 19 → s.dem.li.length = 19 →
    s.dem.sb = 1 ∨ s.dem.sb = 2 →
    ∃ (lr li : List Word) (v t : Word),
      lr.length = 19 ∧ lr[0]? = some s.demYre ∧ (∀ k, k < 18 → lr[k + 1]? = s.dem.lr[k]?) ∧
      li.length = 19 ∧ li[0]? = some s.demYim ∧ (∀ k, k < 18 → li[k + 1]? = s.dem.li[k]?) ∧
      (s.dem.sb = 1 → v = sub32 thisBlock (lr.getD 9 0) (tapSum thisBlock li)) ∧
      (s.dem.sb = 2 → v = add32 thisBlock (lr.getD 9 0) (tapSum thisBlock li)) ∧
      (s.dem.sc = false → t = sub32 thisBlock v 0x3F800000#32) ∧
      (s.dem.sc = true → t = v) ∧
      exec .demStep s = .next { s with
        status := statusAfter s.status .none s.mod.created true
        dem := { s.dem with
          lr := lr, li := li
          z := div32 thisBlock (mul32 thisBlock 0x3F000000#32 t) s.dem.m
          nidx := s.dem.nidx + 1 } }

/-- R170: DEM.DESTROY of a CREATED unit zeroes the whole unit and nothing else. -/
def Obligations.DemDestroyZeroesTheUnit : Prop :=
  ∀ s : State, s.dem.created = true →
    exec .demDestroy s = .next { s with
      status := statusAfter s.status .none s.mod.created false
      dem := { created := false, m := 0, cfo := 0, sb := 0, sc := false, z := 0, nidx := 0,
               theta := 0, omega := 0, perr := 0, lr := List.replicate 19 0,
               li := List.replicate 19 0 } }

/-! ### The carrier loop -/

/-- R166, R55: after every coherent step the frequency estimate is within ±PLL_WMAX or a NaN, whatever
the parameters and the unit held. -/
def Obligations.FrequencyEstimateStaysBounded : Prop :=
  ∀ (P : Params) (yr yi : Word) (u : DemUnit), gt32 P.pllWmax pzero = true →
    omegaBounded P (coherent P yr yi u).omega = true

/-- R167, R54: one correction returns a phase less than three half turns away to [-PI32, PI32) and leaves
a phase in that range alone; a NaN or infinite phase stays one; PI32 wraps to -PI32. 0x4116CBE4 is
the largest word below 3·PI32. -/
def Obligations.OneCorrectionWrapsThePhase : Prop :=
  (∀ (P : Params) (th : Word),
    (ge32 th 0xC116CBE4#32 = true → le32 th 0x4116CBE4#32 = true →
      inPhaseRange (wrapPhase P th) = true) ∧
    (inPhaseRange th = true → wrapPhase P th = th) ∧
    (isNaN th = true → wrapPhase P th = th) ∧
    (isInf th = true → wrapPhase P th = th)) ∧
  ∀ P : Params, wrapPhase P pi32 = neg32 pi32

/-- R168 (i): with the loop at rest and a real finite input, a coherent step leaves θ and ω at +0.0 with a
zero phase error, and puts out yr/m. (For yr = -0 the mixer's sum is +0, so that word is left out of
the last clause, as in 95_test_vectors.md V4 step 4; log entry 16.) -/
def Obligations.RealInputLeavesTheLoopAtRest : Prop :=
  ∀ s : State, s.dem.created = true → s.dem.sb = 0 → s.dem.sc = true →
    s.dem.theta = pzero → s.dem.omega = pzero → s.demYim = pzero → isFinite s.demYre = true →
    ∃ t, exec .demStep s = .next t ∧
      t.dem.theta = pzero ∧ t.dem.omega = pzero ∧ isZero t.dem.perr = true ∧
      (s.demYre ≠ 0x80000000#32 → t.dem.z = div32 thisBlock s.demYre s.dem.m)

/-- R168 (ii): a NaN in the sample, or a phase that is not finite, makes z, e, ω and θ NaN. An infinite
sample at a finite phase and frequency makes e a NaN or an infinity, always a NaN at θ = +0.0; a NaN e
makes ω and θ NaN; an infinite e clamps ω to ±PLL_WMAX and makes θ an infinity, all three of one sign, so
that the next step is poisoned. The unit stays in the coherent mode, and a poisoned loop stays
poisoned over every later list of samples that the host writes and steps. -/
def Obligations.NanPoisonsTheLoop : Prop :=
  (∀ s : State, coherentMode s.dem = true →
    (isNaN s.demYre = true ∨ isNaN s.demYim = true ∨ isFinite s.dem.theta = false) →
    ∃ t, exec .demStep s = .next t ∧ coherentMode t.dem = true ∧
      isNaN t.dem.z = true ∧ loopNaN t.dem = true) ∧
  (∀ s : State, coherentMode s.dem = true →
    isNaN s.demYre = false → isNaN s.demYim = false →
    (isInf s.demYre = true ∨ isInf s.demYim = true) →
    isFinite s.dem.theta = true → isFinite s.dem.omega = true →
    ∃ t, exec .demStep s = .next t ∧ coherentMode t.dem = true ∧
      (loopNaN t.dem = true ∨
        (t.dem.perr = 0x7F800000#32 ∧ t.dem.omega = 0x3F000000#32 ∧ t.dem.theta = 0x7F800000#32) ∨
        (t.dem.perr = 0xFF800000#32 ∧ t.dem.omega = 0xBF000000#32 ∧ t.dem.theta = 0xFF800000#32)) ∧
      (s.dem.theta = pzero → loopNaN t.dem = true)) ∧
  ∀ (ys : List (Word × Word)) (y : Word × Word) (s : State), coherentMode s.dem = true →
    isFinite s.dem.theta = false →
    ∃ t, RunsTo (demodulateSamples (ys ++ [y])) s t ∧ coherentMode t.dem = true ∧
      isNaN t.dem.z = true ∧ loopNaN t.dem = true

/-- R172: the matched suppressed-carrier round trip, as the host performs it: the accesses of
`LOOPBACK x -> t` (30_encoding.md R100), the copy of the modulator's output through two host variables
included, run to their end, put (m·x)/m into `DEM_Z` and into the host variable, and leave the loop at
rest. The product is taken finite and not -0 (log entry 16). -/
def Obligations.MatchedSuppressedRoundTrip : Prop :=
  ∀ (x : Word) (tz : Nat) (s : State), s.mod.created = true → s.mod.sb = 0 → s.mod.sc = true →
    s.dem.created = true → s.dem.sb = 0 → s.dem.sc = true → s.dem.m = s.mod.m →
    s.dem.theta = pzero → s.dem.omega = pzero →
    isFinite (mul32 thisBlock s.mod.m x) = true →
    mul32 thisBlock s.mod.m x ≠ 0x80000000#32 →
    ∃ t, RunsTo (assemble (.loopback (.hex x) tz)) s t ∧
      t.dem.z = div32 thisBlock (mul32 thisBlock s.mod.m x) s.mod.m ∧
      getVar t.hostSide.vars tz = some t.dem.z ∧
      t.mod.yre = mul32 thisBlock s.mod.m x ∧ t.mod.yim = pzero ∧
      t.demYre = t.mod.yre ∧ t.demYim = t.mod.yim ∧
      t.dem.theta = pzero ∧ t.dem.omega = pzero

/-! ### Whole-machine rules -/

/-- R135: two modulators with the same m, SC and line, one upper and one lower sideband, driven with the
same samples by the host, put out the same real part and imaginary parts that differ exactly in bit 31. -/
def Obligations.SidebandsMirrorEachOther : Prop :=
  ∀ (xs : List Word) (x : Word) (s₁ s₂ : State),
    s₁.mod.created = true → s₂.mod.created = true → s₁.mod.sb = 1 → s₂.mod.sb = 2 →
    s₁.mod.m = s₂.mod.m → s₁.mod.sc = s₂.mod.sc → s₁.mod.mline = s₂.mod.mline →
    ∃ t₁ t₂, RunsTo (modulateSamples (xs ++ [x])) s₁ t₁ ∧
      RunsTo (modulateSamples (xs ++ [x])) s₂ t₂ ∧
      t₁.mod.yre = t₂.mod.yre ∧ t₂.mod.yim = t₁.mod.yim ^^^ 0x80000000#32

/-- R122: n steps of a CREATED unit advance its sample index by n modulo 2^32 and record no error; a step
of a NOT_CREATED unit does not advance it. -/
def Obligations.SampleIndexCountsSteps : Prop :=
  (∀ (n : Nat) (s : State), s.mod.created = true →
    ∃ t, RunsTo (List.replicate n (commandWrite 0x00000002#32)) s t ∧
      t.mod.nidx = s.mod.nidx + BitVec.ofNat 32 n ∧ t.errflags = s.errflags) ∧
  (∀ (n : Nat) (s : State), s.dem.created = true →
    ∃ t, RunsTo (List.replicate n (commandWrite 0x00000012#32)) s t ∧
      t.dem.nidx = s.dem.nidx + BitVec.ofNat 32 n ∧ t.errflags = s.errflags) ∧
  ∀ s : State,
    (s.mod.created = false → ∃ t, exec .modStep s = .next t ∧ t.mod.nidx = s.mod.nidx) ∧
    (s.dem.created = false → ∃ t, exec .demStep s = .next t ∧ t.dem.nidx = s.dem.nidx)

/-- R111: a command for one unit leaves the other unit and the host's registers unchanged, and what it
does to its own unit and which code it records depend only on that unit, its input and, for a create,
the staging registers. -/
def Obligations.CommandsStayInTheirUnit : Prop :=
  (∀ (i : Instr) (s₁ s₂ : State), isModCommand i = true →
    s₁.mod = s₂.mod → s₁.modX = s₂.modX →
    (∀ sb sc, i = .modCreate sb sc → s₁.midx = s₂.midx ∧ s₁.cfo = s₂.cfo) →
    ∃ t₁ t₂, exec i s₁ = .next t₁ ∧ exec i s₂ = .next t₂ ∧
      t₁ = { s₁ with mod := t₁.mod, status := t₁.status, errflags := t₁.errflags } ∧
      t₁.mod = t₂.mod ∧ lastErr t₁.status = lastErr t₂.status) ∧
  ∀ (i : Instr) (s₁ s₂ : State), isDemCommand i = true →
    s₁.dem = s₂.dem → s₁.demYre = s₂.demYre → s₁.demYim = s₂.demYim →
    (∀ sb sc, i = .demCreate sb sc → s₁.midx = s₂.midx ∧ s₁.cfo = s₂.cfo) →
    ∃ t₁ t₂, exec i s₁ = .next t₁ ∧ exec i s₂ = .next t₂ ∧
      t₁ = { s₁ with dem := t₁.dem, status := t₁.status, errflags := t₁.errflags } ∧
      t₁.dem = t₂.dem ∧ lastErr t₁.status = lastErr t₂.status

/-- R32, R258: over every step that leaves a CREATED unit CREATED, its configuration copy does not change. -/
def Obligations.ConfigurationIsFixedForLife : Prop :=
  ∀ s t : State, step s = .next t →
    (s.mod.created = true → t.mod.created = true →
      t.mod.m = s.mod.m ∧ t.mod.cfo = s.mod.cfo ∧ t.mod.sb = s.mod.sb ∧ t.mod.sc = s.mod.sc) ∧
    (s.dem.created = true → t.dem.created = true →
      t.dem.m = s.dem.m ∧ t.dem.cfo = s.dem.cfo ∧ t.dem.sb = s.dem.sb ∧ t.dem.sc = s.dem.sc)

/-- R31: a unit becomes CREATED only by its own successful create command, and NOT_CREATED only by its own
successful destroy command or a reset. -/
def Obligations.LifecycleMovesOnlyByItsCommands : Prop :=
  ∀ (s t : State) (e : HostEvent) (rest : List HostEvent),
    s.hostSide.pending = e :: rest → step s = .next t →
    (s.mod.created = false → t.mod.created = true →
      lastErr t.status = 0 ∧ ∃ sb sc, isCommand e (encode (.modCreate sb sc)) s) ∧
    (s.mod.created = true → t.mod.created = false →
      e = .reset ∨ (lastErr t.status = 0 ∧ isCommand e (encode .modDestroy) s)) ∧
    (s.dem.created = false → t.dem.created = true →
      lastErr t.status = 0 ∧ ∃ sb sc, isCommand e (encode (.demCreate sb sc)) s) ∧
    (s.dem.created = true → t.dem.created = false →
      e = .reset ∨ (lastErr t.status = 0 ∧ isCommand e (encode .demDestroy) s))

/-- R40, R41: `STATUS` changes only by a command or a reset, and a set error flag stays set over every
step but a reset or a host write of 1 to it. -/
def Obligations.ErrorRegistersAreSticky : Prop :=
  ∀ (s t : State) (e : HostEvent) (rest : List HostEvent),
    s.hostSide.pending = e :: rest → step s = .next t →
    (t.status ≠ s.status → e = .reset ∨ ∃ w, isCommand e w s) ∧
    ∀ i, s.errflags.getLsbD i = true → t.errflags.getLsbD i = false →
      e = .reset ∨ ∃ v w, e = hostWrite 0x010 v ∧ valueOf s.hostSide.vars v = some w ∧
        w.getLsbD i = true

/-- R137, R173, R46, R51: no step reads the carrier offset copy or the sample index: units that differ
only in these step to units that differ only in these. -/
def Obligations.CarrierOffsetFeedsNoOutput : Prop :=
  (∀ (P : Params) (x c n : Word) (u : ModUnit),
    modStepUnit P x { u with cfo := c, nidx := n } =
      { modStepUnit P x u with cfo := c, nidx := n + 1 }) ∧
  ∀ (P : Params) (yr yi c n : Word) (u : DemUnit),
    demStepUnit P yr yi { u with cfo := c, nidx := n } =
      { demStepUnit P yr yi u with cfo := c, nidx := n + 1 }

/-- The invariant holds right after reset (R250, R237). -/
def Obligations.ResetMeetsTheInvariant : Prop := Inv thisBlock State.reset

/-- Every step keeps the invariant (R31, R40, R41, R55, R60, R64, R119, R221, R237), from every state
that meets it, reached or not. That the host variables stay sorted is the model's own (log entry 2). -/
def Obligations.StepKeepsTheInvariant : Prop :=
  ∀ s t : State, Inv thisBlock s → step s = .next t → Inv thisBlock t

/-- R79, R226: a sequence of admitted accesses of the owner, each host variable read before it is
written, runs to its end: no command, no operand and no state stops it. The list of pending events is the
model's (log entry 2), and so are that a variable must be read before it is written (log entry 6) and
that a reset is an event of the list and keeps the host's variables (log entry 12). -/
def Obligations.AdmittedAccessesRunToTheEnd : Prop :=
  ∀ (es : List HostEvent) (s : State),
    eventsWf (s.hostSide.vars.map Prod.fst) es = true →
    ∃ t, RunsTo es s t ∧ t.hostSide.pending = s.hostSide.pending
end

