-- ==== Sys2Proof/Laws/Dds.lean ====
section
/-! SUPPORT. The oscillator's fixed-point parts stay in [0, 1], and a NaN or infinite angle gives a NaN
(00_scope.md R17). -/

namespace Sys2Proof.Machine

set_option Elab.async false

theorem ddsCosFix_le (r : Nat) : ddsCosFix r ≤ ddsOne := by
  unfold ddsCosFix
  generalize ddsTaylor _ _ _ = x
  generalize ddsOne = y
  exact Nat.min_le_right x y

theorem ddsSinFix_le (r : Nat) : ddsSinFix r ≤ ddsOne := by
  unfold ddsSinFix
  generalize ddsTaylor _ _ _ = x
  generalize ddsOne = y
  exact Nat.min_le_right _ y

theorem ddsCos_of_not_finite {w : Word} (h : isFinite w = false) : ddsCos w = 0x7FC00000#32 := by
  unfold ddsCos; rw [h]; rfl

theorem ddsSin_of_not_finite {w : Word} (h : isFinite w = false) : ddsSin w = 0x7FC00000#32 := by
  unfold ddsSin; rw [h]; rfl

end Sys2Proof.Machine
end

