-- ==== Sys2Proof/Laws/Decode.lean ====
section
/-! SUPPORT. The fields of an encoded word, and a word from its fields. -/

namespace Sys2Proof

set_option Elab.async false

@[simp] theorem opField_wordS (op : BitVec 8) : opField (wordS op) = op := by
  revert op; decide +kernel

@[simp] theorem rsvdS_wordS (op : BitVec 8) : rsvdS (wordS op) = 0 := by
  revert op; decide +kernel

@[simp] theorem opField_wordC (op : BitVec 8) (sb : BitVec 2) (sc : Bool) :
    opField (wordC op sb sc) = op := by
  revert op sb sc; decide +kernel

@[simp] theorem sbField_wordC (op : BitVec 8) (sb : BitVec 2) (sc : Bool) :
    sbField (wordC op sb sc) = sb := by
  revert op sb sc; decide +kernel

@[simp] theorem scField_wordC (op : BitVec 8) (sb : BitVec 2) (sc : Bool) :
    scField (wordC op sb sc) = sc := by
  revert op sb sc; decide +kernel

@[simp] theorem rsvdC_wordC (op : BitVec 8) (sb : BitVec 2) (sc : Bool) :
    rsvdC (wordC op sb sc) = 0 := by
  revert op sb sc; decide +kernel

/-- A word of format S whose reserved field is zero is the word of its opcode. -/
theorem wordS_opField {w : Word} (h : rsvdS w = 0) : wordS (opField w) = w := by
  apply BitVec.eq_of_getLsbD_eq
  intro i hi
  have hb : ∀ j, (rsvdS w).getLsbD j = false := by simp [h]
  have hr := hb (i - 8)
  simp only [rsvdS, BitVec.getLsbD_extractLsb'] at hr
  simp only [wordS, opField, BitVec.getLsbD_append, BitVec.getLsbD_extractLsb', BitVec.getLsbD_zero]
  by_cases h8 : i < 8
  · simp [h8]
  · rw [show 8 + (i - 8) = i by omega] at hr
    have : i - 8 < 24 := by omega
    simp [h8, this] at hr ⊢
    exact hr

/-- A word of format C whose reserved field is zero is the word of its fields. -/
theorem wordC_fields {w : Word} (h : rsvdC w = 0) :
    wordC (opField w) (sbField w) (scField w) = w := by
  apply BitVec.eq_of_getLsbD_eq
  intro i hi
  have hb : ∀ j, (rsvdC w).getLsbD j = false := by simp [h]
  have hr := hb (i - 11)
  simp only [rsvdC, BitVec.getLsbD_extractLsb'] at hr
  simp only [wordC, opField, sbField, scField, BitVec.getLsbD_append, BitVec.getLsbD_extractLsb',
    BitVec.getLsbD_zero, BitVec.getLsbD_ofBool]
  by_cases h8 : i < 8
  · simp [h8]
  by_cases h10 : i < 10
  · have h2 : i - 8 < 2 := by omega
    simp [h8, h2, show 8 + (i - 8) = i by omega]
  by_cases h11 : i < 11
  · obtain rfl : i = 10 := by omega
    simp
  · rw [show 11 + (i - 11) = i by omega] at hr
    have h21 : i - 11 < 21 := by omega
    have h2 : ¬ i - 8 < 2 := by omega
    have h1' : ¬ i - 8 - 2 < 1 := by omega
    simp [h8, h2, h1', h21] at hr ⊢
    exact hr

/-- What a format S row answers. -/
theorem formatS_eq_command {w : Word} {i j : Instr} :
    formatS w i = .command j ↔ rsvdS w = 0 ∧ i = j := by
  unfold formatS; split <;> simp_all

/-- What a format C row answers. -/
theorem formatC_eq_command {w : Word} {k : BitVec 2 → Bool → Instr} {j : Instr} :
    formatC w k = .command j ↔ rsvdC w = 0 ∧ k (sbField w) (scField w) = j := by
  unfold formatC; split <;> simp_all

end Sys2Proof
end

