-- ==== Sys2Proof/Laws/State.lean ====
section
/-! SUPPORT. One lemma per field of the state and per update, true by rfl, so that no proof unfolds a
record update. -/

namespace Sys2Proof.Machine

set_option Elab.async false

/-! ### `complete` -/

@[simp] theorem complete_status (c : ErrCode) (s : State) :
    (complete c s).status = statusAfter s.status c s.mod.created s.dem.created := rfl
@[simp] theorem complete_errflags (c : ErrCode) (s : State) :
    (complete c s).errflags = s.errflags ||| errFlagBit c := rfl
@[simp] theorem complete_midx (c : ErrCode) (s : State) :
    (complete c s).midx = s.midx := rfl
@[simp] theorem complete_cfo (c : ErrCode) (s : State) :
    (complete c s).cfo = s.cfo := rfl
@[simp] theorem complete_modX (c : ErrCode) (s : State) :
    (complete c s).modX = s.modX := rfl
@[simp] theorem complete_demYre (c : ErrCode) (s : State) :
    (complete c s).demYre = s.demYre := rfl
@[simp] theorem complete_demYim (c : ErrCode) (s : State) :
    (complete c s).demYim = s.demYim := rfl
@[simp] theorem complete_mod (c : ErrCode) (s : State) :
    (complete c s).mod = s.mod := rfl
@[simp] theorem complete_dem (c : ErrCode) (s : State) :
    (complete c s).dem = s.dem := rfl
@[simp] theorem complete_hostSide (c : ErrCode) (s : State) :
    (complete c s).hostSide = s.hostSide := rfl

/-! ### `raiseError` -/

@[simp] theorem raiseError_status (c : ErrCode) (s : State) :
    (raiseError c s).status = statusAfter s.status c s.mod.created s.dem.created := rfl
@[simp] theorem raiseError_errflags (c : ErrCode) (s : State) :
    (raiseError c s).errflags = s.errflags ||| errFlagBit c := rfl
@[simp] theorem raiseError_midx (c : ErrCode) (s : State) :
    (raiseError c s).midx = s.midx := rfl
@[simp] theorem raiseError_cfo (c : ErrCode) (s : State) :
    (raiseError c s).cfo = s.cfo := rfl
@[simp] theorem raiseError_modX (c : ErrCode) (s : State) :
    (raiseError c s).modX = s.modX := rfl
@[simp] theorem raiseError_demYre (c : ErrCode) (s : State) :
    (raiseError c s).demYre = s.demYre := rfl
@[simp] theorem raiseError_demYim (c : ErrCode) (s : State) :
    (raiseError c s).demYim = s.demYim := rfl
@[simp] theorem raiseError_mod (c : ErrCode) (s : State) :
    (raiseError c s).mod = s.mod := rfl
@[simp] theorem raiseError_dem (c : ErrCode) (s : State) :
    (raiseError c s).dem = s.dem := rfl
@[simp] theorem raiseError_hostSide (c : ErrCode) (s : State) :
    (raiseError c s).hostSide = s.hostSide := rfl

/-! ### `dropEvent` -/

@[simp] theorem dropEvent_status (s : State) :
    (dropEvent s).status = s.status := rfl
@[simp] theorem dropEvent_errflags (s : State) :
    (dropEvent s).errflags = s.errflags := rfl
@[simp] theorem dropEvent_midx (s : State) :
    (dropEvent s).midx = s.midx := rfl
@[simp] theorem dropEvent_cfo (s : State) :
    (dropEvent s).cfo = s.cfo := rfl
@[simp] theorem dropEvent_modX (s : State) :
    (dropEvent s).modX = s.modX := rfl
@[simp] theorem dropEvent_demYre (s : State) :
    (dropEvent s).demYre = s.demYre := rfl
@[simp] theorem dropEvent_demYim (s : State) :
    (dropEvent s).demYim = s.demYim := rfl
@[simp] theorem dropEvent_mod (s : State) :
    (dropEvent s).mod = s.mod := rfl
@[simp] theorem dropEvent_dem (s : State) :
    (dropEvent s).dem = s.dem := rfl
@[simp] theorem dropEvent_hostSide (s : State) :
    (dropEvent s).hostSide = { s.hostSide with pending := s.hostSide.pending.tail } := rfl

/-! ### `placeEvents` -/

@[simp] theorem placeEvents_status (es : List HostEvent) (s : State) :
    (placeEvents es s).status = s.status := rfl
@[simp] theorem placeEvents_errflags (es : List HostEvent) (s : State) :
    (placeEvents es s).errflags = s.errflags := rfl
@[simp] theorem placeEvents_midx (es : List HostEvent) (s : State) :
    (placeEvents es s).midx = s.midx := rfl
@[simp] theorem placeEvents_cfo (es : List HostEvent) (s : State) :
    (placeEvents es s).cfo = s.cfo := rfl
@[simp] theorem placeEvents_modX (es : List HostEvent) (s : State) :
    (placeEvents es s).modX = s.modX := rfl
@[simp] theorem placeEvents_demYre (es : List HostEvent) (s : State) :
    (placeEvents es s).demYre = s.demYre := rfl
@[simp] theorem placeEvents_demYim (es : List HostEvent) (s : State) :
    (placeEvents es s).demYim = s.demYim := rfl
@[simp] theorem placeEvents_mod (es : List HostEvent) (s : State) :
    (placeEvents es s).mod = s.mod := rfl
@[simp] theorem placeEvents_dem (es : List HostEvent) (s : State) :
    (placeEvents es s).dem = s.dem := rfl
@[simp] theorem placeEvents_hostSide (es : List HostEvent) (s : State) :
    (placeEvents es s).hostSide = { s.hostSide with pending := es ++ s.hostSide.pending } := rfl

/-! ### `blockReset` -/

@[simp] theorem blockReset_status (P : Params) (s : State) :
    (blockReset P s).status = 0 := rfl
@[simp] theorem blockReset_errflags (P : Params) (s : State) :
    (blockReset P s).errflags = 0 := rfl
@[simp] theorem blockReset_midx (P : Params) (s : State) :
    (blockReset P s).midx = pzero := rfl
@[simp] theorem blockReset_cfo (P : Params) (s : State) :
    (blockReset P s).cfo = pzero := rfl
@[simp] theorem blockReset_modX (P : Params) (s : State) :
    (blockReset P s).modX = pzero := rfl
@[simp] theorem blockReset_demYre (P : Params) (s : State) :
    (blockReset P s).demYre = pzero := rfl
@[simp] theorem blockReset_demYim (P : Params) (s : State) :
    (blockReset P s).demYim = pzero := rfl
@[simp] theorem blockReset_mod (P : Params) (s : State) :
    (blockReset P s).mod = initMod P := rfl
@[simp] theorem blockReset_dem (P : Params) (s : State) :
    (blockReset P s).dem = initDem P := rfl
@[simp] theorem blockReset_hostSide (P : Params) (s : State) :
    (blockReset P s).hostSide = s.hostSide := rfl

/-! ### The host's side -/

@[simp] theorem takeRead_pending (dst : Option Nat) (v : Word) (h : HostSide) :
    (takeRead dst v h).pending = h.pending := rfl
@[simp] theorem takeRead_rdata (dst : Option Nat) (v : Word) (h : HostSide) :
    (takeRead dst v h).rdata = some v := rfl
@[simp] theorem takeRead_vars_none (v : Word) (h : HostSide) :
    (takeRead none v h).vars = h.vars := rfl
@[simp] theorem takeRead_vars_some (t : Nat) (v : Word) (h : HostSide) :
    (takeRead (some t) v h).vars = setVar t v h.vars := rfl

/-- Placing one event and taking it off again is no change. -/
@[simp] theorem dropEvent_placeEvents_cons (e : HostEvent) (s : State) :
    dropEvent (placeEvents [e] s) = s := rfl

/-- Placing events one after the other is placing them together. -/
theorem placeEvents_append (es fs : List HostEvent) (s : State) :
    placeEvents (es ++ fs) s = placeEvents es (placeEvents fs s) := by
  simp [placeEvents]

@[simp] theorem placeEvents_nil (s : State) : placeEvents [] s = s := rfl

/-! ### The end of a command as one record -/

/-- A command that ends without an error changes only `STATUS`. -/
theorem complete_none (s : State) :
    complete .none s =
      { s with status := statusAfter s.status .none s.mod.created s.dem.created } := by
  simp [complete, errFlagBit]

/-- A write of a register other than `CMD` leaves the units, `STATUS` and the host's side. -/
@[simp] theorem writeReg_mod (r : Reg) (v : Word) (s : State) : (writeReg r v s).mod = s.mod := by
  cases r <;> rfl
@[simp] theorem writeReg_dem (r : Reg) (v : Word) (s : State) : (writeReg r v s).dem = s.dem := by
  cases r <;> rfl
@[simp] theorem writeReg_status (r : Reg) (v : Word) (s : State) :
    (writeReg r v s).status = s.status := by
  cases r <;> rfl
@[simp] theorem writeReg_hostSide (r : Reg) (v : Word) (s : State) :
    (writeReg r v s).hostSide = s.hostSide := by
  cases r <;> rfl

end Sys2Proof.Machine
end

