-- ==== Sys2Proof/Laws/Dispatch.lean ====
section
/-! SUPPORT. What a command, an access, an event and a step can do, each said once: later proofs cite these
and do not unfold the definitions. -/

namespace Sys2Proof.Machine

set_option Elab.async false

/-- The three ways in which a guarded command ends. -/
theorem execModCreate_cases (sb : BitVec 2) (sc : Bool) (s : State) :
    (s.mod.created = true ∧ execModCreate sb sc s = .next (raiseError .invalidState s)) ∨
    (s.mod.created = false ∧ validConfig s.midx sb = false ∧
      execModCreate sb sc s = .next (raiseError .invalidParameter s)) ∨
    (s.mod.created = false ∧ validConfig s.midx sb = true ∧
      execModCreate sb sc s = .next
        (complete .none { s with mod := modCreateUnit thisBlock s.midx s.cfo sb sc })) := by
  cases hc : s.mod.created <;> cases hv : validConfig s.midx sb <;>
    simp [execModCreate, modCreate, stagedM, stagedCfo, hc, hv]

theorem execDemCreate_cases (sb : BitVec 2) (sc : Bool) (s : State) :
    (s.dem.created = true ∧ execDemCreate sb sc s = .next (raiseError .invalidState s)) ∨
    (s.dem.created = false ∧ validConfig s.midx sb = false ∧
      execDemCreate sb sc s = .next (raiseError .invalidParameter s)) ∨
    (s.dem.created = false ∧ validConfig s.midx sb = true ∧
      execDemCreate sb sc s = .next
        (complete .none { s with dem := demCreateUnit thisBlock s.midx s.cfo sb sc })) := by
  cases hc : s.dem.created <;> cases hv : validConfig s.midx sb <;>
    simp [execDemCreate, demCreate, stagedM, stagedCfo, hc, hv]

theorem execModStep_cases (s : State) :
    (s.mod.created = false ∧ execModStep s = .next (raiseError .invalidState s)) ∨
    (s.mod.created = true ∧ execModStep s = .next
      (complete .none { s with mod := modStepUnit thisBlock s.modX s.mod })) := by
  cases hc : s.mod.created <;> simp [execModStep, modStep, modInput, hc]

theorem execDemStep_cases (s : State) :
    (s.dem.created = false ∧ execDemStep s = .next (raiseError .invalidState s)) ∨
    (s.dem.created = true ∧ execDemStep s = .next
      (complete .none { s with dem := demStepUnit thisBlock s.demYre s.demYim s.dem })) := by
  cases hc : s.dem.created <;> simp [execDemStep, demStep, demInput, hc]

theorem execModDestroy_cases (s : State) :
    (s.mod.created = false ∧ execModDestroy s = .next (raiseError .invalidState s)) ∨
    (s.mod.created = true ∧ execModDestroy s = .next
      (complete .none { s with mod := initMod thisBlock })) := by
  cases hc : s.mod.created <;> simp [execModDestroy, modDestroy, hc]

theorem execDemDestroy_cases (s : State) :
    (s.dem.created = false ∧ execDemDestroy s = .next (raiseError .invalidState s)) ∨
    (s.dem.created = true ∧ execDemDestroy s = .next
      (complete .none { s with dem := initDem thisBlock })) := by
  cases hc : s.dem.created <;> simp [execDemDestroy, demDestroy, hc]

/-- What a command can do, said once: it records an error that the unit's state or the configuration
calls for, or it records success over a change of its one unit. -/
theorem exec_cases (i : Instr) (s : State) :
    (∃ c, exec i s = .next (raiseError c s) ∧ c ≠ .none) ∨
    (∃ u, exec i s = .next (complete .none { s with mod := u })) ∨
    (∃ u, exec i s = .next (complete .none { s with dem := u })) := by
  cases i with
  | nop => exact .inr (.inl ⟨s.mod, rfl⟩)
  | modCreate sb sc =>
    obtain ⟨-, h⟩ | ⟨-, -, h⟩ | ⟨-, -, h⟩ := execModCreate_cases sb sc s
    · exact .inl ⟨_, h, by decide⟩
    · exact .inl ⟨_, h, by decide⟩
    · exact .inr (.inl ⟨_, h⟩)
  | modStep =>
    obtain ⟨-, h⟩ | ⟨-, h⟩ := execModStep_cases s
    · exact .inl ⟨_, h, by decide⟩
    · exact .inr (.inl ⟨_, h⟩)
  | modDestroy =>
    obtain ⟨-, h⟩ | ⟨-, h⟩ := execModDestroy_cases s
    · exact .inl ⟨_, h, by decide⟩
    · exact .inr (.inl ⟨_, h⟩)
  | demCreate sb sc =>
    obtain ⟨-, h⟩ | ⟨-, -, h⟩ | ⟨-, -, h⟩ := execDemCreate_cases sb sc s
    · exact .inl ⟨_, h, by decide⟩
    · exact .inl ⟨_, h, by decide⟩
    · exact .inr (.inr ⟨_, h⟩)
  | demStep =>
    obtain ⟨-, h⟩ | ⟨-, h⟩ := execDemStep_cases s
    · exact .inl ⟨_, h, by decide⟩
    · exact .inr (.inr ⟨_, h⟩)
  | demDestroy =>
    obtain ⟨-, h⟩ | ⟨-, h⟩ := execDemDestroy_cases s
    · exact .inl ⟨_, h, by decide⟩
    · exact .inr (.inr ⟨_, h⟩)

/-- What a word written to `CMD` does: the decoded command, or IllegalCommand. -/
theorem execute_cases (w : Word) (s : State) :
    (∃ i, decode w = .command i ∧ execute w s = exec i s) ∨
    (∃ why, decode w = .illegal why ∧ execute w s = .next (raiseError .illegalCommand s)) := by
  cases h : decode w with
  | command i => exact .inl ⟨i, rfl, by simp [execute, h]⟩
  | illegal why => exact .inr ⟨why, rfl, by simp [execute, h]⟩

/-- An aligned offset inside the window names `CMD` only at 0x008. -/
theorem regAt_eq_cmd_iff {off : Nat} (hw : off < 0x100) (ha : off % 4 = 0) :
    regAt off = .cmd ↔ off = 0x008 := by
  have h : ∀ k : Fin 64, regAt (4 * k.val) = .cmd ↔ 4 * k.val = 0x008 := by decide +kernel
  have hk := h ⟨off / 4, by omega⟩
  simp only [show 4 * (off / 4) = off by omega] at hk
  exact hk

/-- An aligned offset inside the window names `ERRFLAGS` only at 0x010. -/
theorem regAt_eq_errflags_iff {off : Nat} (hw : off < 0x100) (ha : off % 4 = 0) :
    regAt off = .errflags ↔ off = 0x010 := by
  have h : ∀ k : Fin 64, regAt (4 * k.val) = .errflags ↔ 4 * k.val = 0x010 := by decide +kernel
  have hk := h ⟨off / 4, by omega⟩
  simp only [show 4 * (off / 4) = off by omega] at hk
  exact hk

/-- What an admitted write does: a command, or a plain register write. -/
theorem memWrite_cases (off : Nat) (v : Word) (s : State) :
    (regAt off = .cmd ∧ memWrite off v s = execute v s) ∨
    (regAt off ≠ .cmd ∧ memWrite off v s = .next (writeReg (regAt off) v s)) := by
  by_cases h : regAt off = .cmd
  · exact .inl ⟨h, by simp [memWrite, h]⟩
  · refine .inr ⟨h, ?_⟩
    unfold memWrite
    split
    · exact absurd ‹_› h
    · rfl

/-- What admission says (43_host_access.md R207). -/
theorem admitted_eq_true {off width : Nat} :
    admitted off width = true ↔ width = 4 ∧ off % 4 = 0 ∧ off < 0x100 := by
  simp [admitted, and_assoc]

/-- What an access that answers a next state was and did. -/
theorem performAccess_next {a : Access} {s t : State} (h : performAccess a s = .next t) :
    a.master = .owner ∧ admitted a.off a.width = true ∧
    ((∃ dst, a.kind = .read dst ∧
        t = { s with hostSide := takeRead dst (memRead thisBlock s a.off) s.hostSide }) ∨
      ∃ v w, a.kind = .write v ∧ valueOf s.hostSide.vars v = some w ∧
        memWrite a.off w s = .next t) := by
  obtain ⟨master, width, off, kind⟩ := a
  cases master with
  | other => simp [performAccess] at h
  | owner =>
    cases ha : admitted off width with
    | false => simp [performAccess, ha] at h
    | true =>
      refine ⟨rfl, rfl, ?_⟩
      cases kind with
      | read dst =>
        simp only [performAccess, ha] at h
        exact .inl ⟨dst, rfl, by simpa using h.symm⟩
      | write v =>
        simp only [performAccess, ha] at h
        cases hv : valueOf s.hostSide.vars v with
        | none => simp [hv] at h
        | some w => exact .inr ⟨v, w, rfl, hv, by simpa [hv] using h⟩

/-- What a step that answers a next state did: nothing with nothing pending, a reset, a read, a plain
register write, or a command word written to `CMD` by the owner. -/
theorem step_cases {s t : State} (h : step s = .next t) :
    (s.hostSide.pending = [] ∧ t = s) ∨
    ∃ e rest, s.hostSide.pending = e :: rest ∧
      ((e = .reset ∧ t = blockReset thisBlock (dropEvent s)) ∨
       (∃ off dst, e = hostRead off dst ∧ admitted off 4 = true ∧
          t = { dropEvent s with
            hostSide := takeRead dst (memRead thisBlock s off) (dropEvent s).hostSide }) ∨
       (∃ off v w, e = hostWrite off v ∧ admitted off 4 = true ∧
          valueOf s.hostSide.vars v = some w ∧ off ≠ 0x008 ∧
          t = writeReg (regAt off) w (dropEvent s)) ∨
       (∃ v w, e = hostWrite 0x008 v ∧ valueOf s.hostSide.vars v = some w ∧
          execute w (dropEvent s) = .next t)) := by
  cases hp : s.hostSide.pending with
  | nil =>
    simp only [step, hp] at h
    exact .inl ⟨rfl, by simpa using h.symm⟩
  | cons e rest =>
    simp only [step, hp] at h
    refine .inr ⟨e, rest, rfl, ?_⟩
    cases e with
    | reset =>
      simp only [performEvent] at h
      exact .inl ⟨rfl, by simpa using h.symm⟩
    | access a =>
      simp only [performEvent] at h
      obtain ⟨master, width, off, kind⟩ := a
      obtain ⟨hm, ha, hk⟩ := performAccess_next h
      obtain ⟨hw, h4, hlt⟩ := admitted_eq_true.mp ha
      simp only at hm hw h4 hlt hk
      subst hm hw
      rcases hk with ⟨dst, rfl, ht⟩ | ⟨v, w, rfl, hv, hmw⟩
      · exact .inr (.inl ⟨off, dst, rfl, ha, ht⟩)
      · obtain ⟨hr, hx⟩ | ⟨hr, hx⟩ := memWrite_cases off w (dropEvent s)
        · rw [regAt_eq_cmd_iff hlt h4] at hr
          subst hr
          exact .inr (.inr (.inr ⟨v, w, rfl, hv, by rw [← hx]; exact hmw⟩))
        · rw [Ne, regAt_eq_cmd_iff hlt h4] at hr
          rw [hx] at hmw
          exact .inr (.inr (.inl ⟨off, v, w, rfl, ha, hv, hr, by simpa using hmw.symm⟩))

end Sys2Proof.Machine
end

