-- ==== Sys2Proof/Laws/Rounding.lean ====
section
/-! SUPPORT. The rounding operation said once: `pack neg (roundMag n d)` is the word nearest `n / d`
units of 2^-149 (00_scope.md R8). Every arithmetic primitive ends in it. -/

namespace Sys2Proof.Machine

set_option Elab.async false

/-! ### Fields of a packed word -/

theorem toNat_pack {neg : Bool} {m : Nat} (h : m < 2 ^ 31) :
    (pack neg m).toNat = (if neg then 2 ^ 31 else 0) + m := by
  cases neg <;> simp [pack] <;> omega

theorem expField_pack {neg : Bool} {m : Nat} (h : m < 2 ^ 31) :
    expField (pack neg m) = m / 2 ^ 23 := by
  simp only [expField, BitVec.extractLsb'_toNat, toNat_pack h, Nat.shiftRight_eq_div_pow]
  cases neg <;> simp <;> omega

theorem fracField_pack {neg : Bool} {m : Nat} (h : m < 2 ^ 31) :
    fracField (pack neg m) = m % 2 ^ 23 := by
  simp only [fracField, BitVec.extractLsb'_toNat, toNat_pack h, Nat.shiftRight_eq_div_pow]
  cases neg <;> simp
  omega

theorem signBit_pack {neg : Bool} {m : Nat} (h : m < 2 ^ 31) : signBit (pack neg m) = neg := by
  simp only [signBit, BitVec.getLsbD, toNat_pack h, Nat.testBit, Nat.shiftRight_eq_div_pow]
  cases neg
  · simp only [Bool.false_eq_true, if_false]
    rw [show (0 + m) / 2 ^ 31 = 0 by omega]
    rfl
  · simp only [if_true]
    rw [show (2 ^ 31 + m) / 2 ^ 31 = 1 by omega]
    rfl

theorem lowBit_pack {neg : Bool} {m : Nat} (h : m < 2 ^ 31) :
    (pack neg m).getLsbD 0 = decide (m % 2 = 1) := by
  simp only [BitVec.getLsbD, toNat_pack h, Nat.testBit_zero]
  cases neg <;> simp
  omega

/-- The magnitude that 31 magnitude bits stand for, in units of 2^-149. -/
def magBits (m : Nat) : Nat :=
  if m < 2 ^ 23 then m else (2 ^ 23 + m % 2 ^ 23) * 2 ^ (m / 2 ^ 23 - 1)

theorem mag_pack {neg : Bool} {m : Nat} (h : m < 2 ^ 31) : mag (pack neg m) = magBits m := by
  unfold mag magBits
  rw [expField_pack h, fracField_pack h]
  by_cases hm : m < 2 ^ 23
  · rw [if_pos (Nat.div_eq_of_lt hm), if_pos hm, Nat.mod_eq_of_lt hm]
  · rw [if_neg (by omega), if_neg hm]

/-- A word is its sign and its magnitude bits. -/
theorem eq_pack (w : Word) : w = pack (signBit w) (w.toNat % 2 ^ 31) := by
  apply BitVec.eq_of_toNat_eq
  have hm : w.toNat % 2 ^ 31 < 2 ^ 31 := Nat.mod_lt _ (by decide)
  rw [toNat_pack hm]
  have hw := w.isLt
  by_cases h : w.toNat < 2 ^ 31
  · have : signBit w = false := by
      simp only [signBit, BitVec.getLsbD, Nat.testBit, Nat.shiftRight_eq_div_pow]
      rw [Nat.div_eq_of_lt h]; rfl
    simp only [this, Bool.false_eq_true, if_false]
    omega
  · have : signBit w = true := by
      simp only [signBit, BitVec.getLsbD, Nat.testBit, Nat.shiftRight_eq_div_pow]
      rw [show w.toNat / 2 ^ 31 = 1 by omega]; rfl
    simp only [this, if_true]
    omega

/-- A packed word is finite just below the infinity's bits. -/
theorem isFinite_pack {neg : Bool} {m : Nat} (h : m < 2 ^ 31) :
    isFinite (pack neg m) = true ↔ m < infBits := by
  unfold isFinite
  rw [expField_pack h]
  unfold infBits
  simp only [bne_iff_ne, ne_eq]
  omega

/-! ### Rounding to a natural number -/

/-- `rne n d` is the natural number nearest `n / d`, and even if another is as near. -/
theorem rne_nearest (n d k : Nat) (hd : 0 < d) :
    |(n : ℤ) - d * rne n d| ≤ |(n : ℤ) - d * k| ∧
    (|(n : ℤ) - d * k| = |(n : ℤ) - d * rne n d| → k ≠ rne n d → rne n d % 2 = 0) := by
  have hn : (n : ℤ) = d * (n / d : ℕ) + (n % d : ℕ) := by exact_mod_cast (Nat.div_add_mod n d).symm
  have hr : n % d < d := Nat.mod_lt _ hd
  generalize hq : n / d = q at *
  generalize hr' : n % d = r at *
  have hlow : ∀ j : ℤ, j ≤ q → (r : ℤ) ≤ |(n : ℤ) - d * j| ∧ (j < q → (r : ℤ) < |(n : ℤ) - d * j|) := by
    intro j hj
    have : (n : ℤ) - d * j = r + d * (q - j) := by rw [hn]; ring
    rw [this]
    have hdj : 0 ≤ (d : ℤ) * (q - j) := mul_nonneg (by positivity) (by omega)
    rw [abs_of_nonneg (by positivity)]
    refine ⟨by omega, fun hlt => ?_⟩
    have : 0 < (d : ℤ) * (q - j) := mul_pos (by exact_mod_cast hd) (by omega)
    omega
  have hhigh : ∀ j : ℤ, q + 1 ≤ j →
      (d : ℤ) - r ≤ |(n : ℤ) - d * j| ∧ (q + 1 < j → (d : ℤ) - r < |(n : ℤ) - d * j|) := by
    intro j hj
    have : (n : ℤ) - d * j = -((d : ℤ) - r + d * (j - q - 1)) := by rw [hn]; ring
    rw [this, abs_neg]
    have hdj : 0 ≤ (d : ℤ) * (j - q - 1) := mul_nonneg (by positivity) (by omega)
    have hdr : (0 : ℤ) < d - r := by omega
    rw [abs_of_nonneg (by omega)]
    refine ⟨by omega, fun hlt => ?_⟩
    have : 0 < (d : ℤ) * (j - q - 1) := mul_pos (by exact_mod_cast hd) (by omega)
    omega
  have hatq : |(n : ℤ) - d * q| = r := by
    rw [hn]; simp
  have hatq1 : |(n : ℤ) - d * (q + 1 : ℕ)| = d - r := by
    rw [hn, show (d : ℤ) * (q : ℕ) + (r : ℕ) - d * (q + 1 : ℕ) = -((d : ℤ) - r) by push_cast; ring,
      abs_neg, abs_of_nonneg (by omega)]
  have hk : (k : ℤ) ≤ q ∨ (q : ℤ) + 1 ≤ k := by omega
  unfold rne
  rw [hq, hr']
  split_ifs with h1 h2
  · rw [hatq]
    rcases hk with hk | hk
    · refine ⟨(hlow k hk).1, fun he hne => ?_⟩
      have := (hlow k hk).2 (by omega)
      omega
    · have := (hhigh k hk).1
      exact ⟨by omega, fun he _ => by omega⟩
  · rw [hatq1]
    rcases hk with hk | hk
    · have := (hlow k hk).1
      exact ⟨by omega, fun he _ => by omega⟩
    · refine ⟨(hhigh k hk).1, fun he hne => ?_⟩
      have := (hhigh k hk).2 (by omega)
      omega
  · have h2r : 2 * r = d := by omega
    have hself : |(n : ℤ) - d * (q + q % 2 : ℕ)| = r := by
      rcases Nat.mod_two_eq_zero_or_one q with h | h <;> rw [h]
      · simpa using hatq
      · rw [hatq1]; omega
    rw [hself]
    refine ⟨?_, fun _ _ => by omega⟩
    rcases hk with hk | hk
    · exact (hlow k hk).1
    · have := (hhigh k hk).1
      omega

/-- `rne n d` reaches an even number just when `n / d` reaches half below it. -/
theorem rne_ge_even {n d k : Nat} (hd : 0 < d) (hk : k % 2 = 0) :
    k ≤ rne n d ↔ d * (2 * k) ≤ 2 * n + d := by
  have hn := Nat.div_add_mod n d
  have hr : n % d < d := Nat.mod_lt _ hd
  unfold rne
  generalize n / d = q at *
  generalize n % d = r at *
  subst hn
  constructor
  · intro h
    have hle : k ≤ q ∨ k = q + 1 := by split_ifs at h <;> omega
    rcases hle with hle | rfl
    · have := Nat.mul_le_mul_left d hle
      nlinarith
    · split_ifs at h
      · omega
      · nlinarith
      · nlinarith
  · intro h
    have h2 : k ≤ q + 1 := by
      by_contra hc
      have := Nat.mul_le_mul_left d (show q + 2 ≤ k by omega)
      nlinarith
    rcases Nat.lt_or_ge q k with hlt | hge
    · obtain rfl : k = q + 1 := by omega
      have h2r : d ≤ 2 * r := by nlinarith
      split_ifs <;> omega
    · split_ifs <;> omega

theorem rne_mono_bounds {n d lo hi : Nat} (hd : 0 < d) (h1 : d * lo ≤ n) (h2 : n < d * hi) :
    lo ≤ rne n d ∧ rne n d ≤ hi := by
  have hq1 : lo ≤ n / d := (Nat.le_div_iff_mul_le hd).mpr (by rw [mul_comm]; exact h1)
  have hq2 : n / d < hi := Nat.div_lt_of_lt_mul h2
  unfold rne
  split_ifs <;> omega

/-! ### Rounding to binary32 -/

/-- The magnitude bits before the cap at infinity. -/
def rawMag (n d : Nat) : Nat :=
  ((n / d).log2 - 23) * 2 ^ 23 + rne n (d * 2 ^ ((n / d).log2 - 23))

theorem roundMag_eq (n d : Nat) : roundMag n d = min (rawMag n d) infBits := rfl

theorem magBits_scaled {s r : Nat} (h : s = 0 ∨ 2 ^ 23 ≤ r) (hr : r ≤ 2 ^ 24) :
    magBits (s * 2 ^ 23 + r) = r * 2 ^ s := by
  unfold magBits
  rcases Nat.lt_or_ge r (2 ^ 23) with hlt | hge
  · obtain rfl : s = 0 := by omega
    rw [if_pos (by omega)]; omega
  · rw [if_neg (by omega)]
    rcases Nat.lt_or_ge r (2 ^ 24) with h24 | h24
    · rw [show (s * 2 ^ 23 + r) / 2 ^ 23 = s + 1 by omega,
        show (s * 2 ^ 23 + r) % 2 ^ 23 = r - 2 ^ 23 by omega]
      rw [show 2 ^ 23 + (r - 2 ^ 23) = r by omega]
      simp
    · obtain rfl : r = 2 ^ 24 := by omega
      rw [show (s * 2 ^ 23 + 2 ^ 24) / 2 ^ 23 = s + 2 by omega,
        show (s * 2 ^ 23 + 2 ^ 24) % 2 ^ 23 = 0 by omega]
      rw [show s + 2 - 1 = s + 1 by omega, pow_succ]
      ring

/-- Every magnitude is a whole number of `2^s` units, or lies below the binade that starts at `2^(23+s)`. -/
theorem magBits_grid (m s : Nat) :
    (∃ k, magBits m = k * 2 ^ s) ∨ (0 < s ∧ magBits m < 2 ^ 23 * 2 ^ s) := by
  rcases Nat.eq_zero_or_pos s with rfl | hs
  · exact .inl ⟨magBits m, by simp⟩
  unfold magBits
  by_cases hm : m < 2 ^ 23
  · rw [if_pos hm]
    refine .inr ⟨hs, lt_of_lt_of_le hm ?_⟩
    exact Nat.le_mul_of_pos_right _ (by positivity)
  rw [if_neg hm]
  rcases Nat.lt_or_ge (m / 2 ^ 23 - 1) s with hlt | hge
  · refine .inr ⟨hs, ?_⟩
    obtain ⟨j, hj⟩ := Nat.exists_eq_add_of_lt hlt
    rw [hj, show m / 2 ^ 23 - 1 + j + 1 = (m / 2 ^ 23 - 1) + (j + 1) by ring, pow_add, pow_succ]
    have h1 : 2 ^ 23 + m % 2 ^ 23 < 2 ^ 24 := by omega
    have h2 : 0 < 2 ^ (m / 2 ^ 23 - 1) := by positivity
    have h3 : 1 ≤ 2 ^ j := Nat.one_le_two_pow
    calc (2 ^ 23 + m % 2 ^ 23) * 2 ^ (m / 2 ^ 23 - 1)
        < 2 ^ 24 * 2 ^ (m / 2 ^ 23 - 1) := Nat.mul_lt_mul_of_pos_right h1 h2
      _ ≤ 2 ^ 24 * 2 ^ (m / 2 ^ 23 - 1) * 2 ^ j := Nat.le_mul_of_pos_right _ (by omega)
      _ = 2 ^ 23 * (2 ^ (m / 2 ^ 23 - 1) * (2 ^ j * 2)) := by ring
  · refine .inl ⟨(2 ^ 23 + m % 2 ^ 23) * 2 ^ (m / 2 ^ 23 - 1 - s), ?_⟩
    rw [mul_assoc, ← pow_add, Nat.sub_add_cancel hge]

/-- Where the rounding happens: the shift `s` and the significand `r = rne n (d 2^s)`. -/
theorem rawMag_shape (n d : Nat) (hd : 0 < d) :
    ∃ s, rawMag n d = s * 2 ^ 23 + rne n (d * 2 ^ s) ∧
      (s = 0 ∨ d * 2 ^ s * 2 ^ 23 ≤ n) ∧ n < d * 2 ^ s * 2 ^ 24 := by
  refine ⟨(n / d).log2 - 23, rfl, ?_, ?_⟩
  · rcases Nat.eq_zero_or_pos ((n / d).log2 - 23) with h | h
    · exact .inl h
    · refine .inr ?_
      have hq0 : n / d ≠ 0 := by
        intro h0; rw [h0] at h; simp at h
      have := Nat.log2_self_le hq0
      rw [Nat.le_div_iff_mul_le hd] at this
      calc d * 2 ^ ((n / d).log2 - 23) * 2 ^ 23
          = 2 ^ ((n / d).log2 - 23 + 23) * d := by rw [pow_add]; ring
        _ = 2 ^ (n / d).log2 * d := by rw [Nat.sub_add_cancel (by omega)]
        _ ≤ n := this
  · have h := Nat.lt_log2_self (n := n / d)
    have h2 : 2 ^ ((n / d).log2 + 1) ≤ 2 ^ ((n / d).log2 - 23) * 2 ^ 24 := by
      rw [← pow_add]; exact Nat.pow_le_pow_right (by decide) (by omega)
    have := (Nat.div_lt_iff_lt_mul hd).mp (lt_of_lt_of_le h h2)
    calc n < 2 ^ ((n / d).log2 - 23) * 2 ^ 24 * d := this
      _ = d * 2 ^ ((n / d).log2 - 23) * 2 ^ 24 := by ring

/-- No magnitude lies nearer `n / d` than the rounded one, whose last bit is 0 if another is as near. -/
theorem rawMag_nearest (n d m : Nat) (hd : 0 < d) :
    |(n : ℤ) - d * magBits (rawMag n d)| ≤ |(n : ℤ) - d * magBits m| ∧
    (|(n : ℤ) - d * magBits m| = |(n : ℤ) - d * magBits (rawMag n d)| →
      magBits m ≠ magBits (rawMag n d) → rawMag n d % 2 = 0) := by
  obtain ⟨s, hraw, hlo, hhi⟩ := rawMag_shape n d hd
  have hds : 0 < d * 2 ^ s := by positivity
  set r := rne n (d * 2 ^ s) with hr
  have hr24 : r ≤ 2 ^ 24 := by
    have := (rne_mono_bounds (lo := 0) (hi := 2 ^ 24) hds (by simp) hhi).2
    exact this
  have hr23 : s = 0 ∨ 2 ^ 23 ≤ r := by
    rcases hlo with h | h
    · exact .inl h
    · exact .inr (rne_mono_bounds hds h hhi).1
  have hmag : magBits (rawMag n d) = r * 2 ^ s := by rw [hraw, magBits_scaled hr23 hr24]
  have hgrid : ∀ k : ℕ, (n : ℤ) - d * (k * 2 ^ s : ℕ) = n - (d * 2 ^ s : ℕ) * k := by
    intro k; push_cast; ring
  have hpar : rawMag n d % 2 = r % 2 := by rw [hraw]; omega
  rw [hmag, hgrid, hpar]
  rcases magBits_grid m s with ⟨k, hk⟩ | ⟨hs, hlt⟩
  · rw [hk, hgrid]
    obtain ⟨h1, h2⟩ := rne_nearest n (d * 2 ^ s) k hds
    refine ⟨h1, fun he hne => h2 he ?_⟩
    rintro rfl
    exact hne rfl
  · have hn : d * 2 ^ s * 2 ^ 23 ≤ n := hlo.resolve_left (by omega)
    have hstrict : |(n : ℤ) - (d * 2 ^ s : ℕ) * (2 ^ 23 : ℕ)| < |(n : ℤ) - d * magBits m| := by
      have h1 : d * magBits m < d * 2 ^ s * 2 ^ 23 := by
        calc d * magBits m < d * (2 ^ 23 * 2 ^ s) := Nat.mul_lt_mul_of_pos_left hlt hd
          _ = d * 2 ^ s * 2 ^ 23 := by ring
      have hn' : ((d * 2 ^ s : ℕ) : ℤ) * (2 ^ 23 : ℕ) ≤ n := by exact_mod_cast hn
      have h1' : (d : ℤ) * magBits m < ((d * 2 ^ s : ℕ) : ℤ) * (2 ^ 23 : ℕ) := by exact_mod_cast h1
      rw [abs_of_nonneg (by omega), abs_of_nonneg (by omega)]
      omega
    have h1 := (rne_nearest n (d * 2 ^ s) (2 ^ 23) hds).1
    rw [← hr] at h1
    exact ⟨le_of_lt (lt_of_le_of_lt h1 hstrict),
      fun he _ => absurd he (ne_of_gt (lt_of_le_of_lt h1 hstrict))⟩

/-- Where rounding reaches the infinity. -/
theorem infBits_le_rawMag (n d : Nat) (hd : 0 < d) :
    infBits ≤ rawMag n d ↔ d * (2 ^ 277 - 2 ^ 252) ≤ n := by
  have hleft : ∀ r, 255 * 2 ^ 23 ≤ 253 * 2 ^ 23 + r ↔ 2 ^ 24 ≤ r := by intro r; omega
  have hsmall : ∀ s r, s < 253 → r ≤ 2 ^ 24 → ¬ 255 * 2 ^ 23 ≤ s * 2 ^ 23 + r := by
    intro s r; omega
  have hlarge : ∀ s r, 253 < s → 2 ^ 23 ≤ r → 255 * 2 ^ 23 ≤ s * 2 ^ 23 + r := by
    intro s r; omega
  obtain ⟨s, hraw, hlo, hhi⟩ := rawMag_shape n d hd
  have hds : 0 < d * 2 ^ s := by positivity
  have hr24 : rne n (d * 2 ^ s) ≤ 2 ^ 24 :=
    (rne_mono_bounds (lo := 0) (hi := 2 ^ 24) hds (by simp) hhi).2
  have hr23 : s = 0 ∨ 2 ^ 23 ≤ rne n (d * 2 ^ s) := by
    rcases hlo with h | h
    · exact .inl h
    · exact .inr (rne_mono_bounds hds h hhi).1
  have hinf : infBits = 255 * 2 ^ 23 := rfl
  have hb1 : 2 ^ 252 * 2 ^ 24 < 2 ^ 277 - 2 ^ 252 := by decide +kernel
  have hb2 : 2 ^ 253 * (2 * 2 ^ 24) = 2 * (2 ^ 277 - 2 ^ 252) + 2 ^ 253 := by decide +kernel
  have hb3 : 2 ^ 277 - 2 ^ 252 ≤ 2 ^ 254 * 2 ^ 23 := by decide +kernel
  generalize 2 ^ 277 - 2 ^ 252 = bound at hb1 hb2 hb3 ⊢
  rw [hraw, hinf]
  rcases Nat.lt_trichotomy s 253 with h | rfl | h
  · constructor
    · intro hle; exact absurd hle (hsmall s _ h hr24)
    · intro hle
      exfalso
      have h1 : (2 : ℕ) ^ s ≤ 2 ^ 252 := Nat.pow_le_pow_right (by decide) (Nat.le_of_lt_succ h)
      have h2 : d * 2 ^ s * 2 ^ 24 ≤ d * (2 ^ 252 * 2 ^ 24) := by
        rw [mul_assoc]; exact Nat.mul_le_mul_left d (Nat.mul_le_mul_right _ h1)
      have h3 : d * (2 ^ 252 * 2 ^ 24) < d * bound :=
        Nat.mul_lt_mul_of_pos_left hb1 hd
      exact absurd hle (not_le.mpr (lt_trans (lt_of_lt_of_le hhi h2) h3))
  · have hev : 2 ^ 24 ≤ rne n (d * 2 ^ 253) ↔ d * 2 ^ 253 * (2 * 2 ^ 24) ≤ 2 * n + d * 2 ^ 253 :=
      rne_ge_even hds (by decide)
    rw [hleft, hev]
    have e1 : d * 2 ^ 253 * (2 * 2 ^ 24) = 2 * (d * bound) + d * 2 ^ 253 := by
      rw [mul_assoc, hb2, mul_add, Nat.mul_left_comm]
    rw [e1]
    constructor
    · intro hh
      have := Nat.le_of_add_le_add_right hh
      exact Nat.le_of_mul_le_mul_left this (by decide)
    · intro hh
      exact Nat.add_le_add_right (Nat.mul_le_mul_left 2 hh) _
  · constructor
    · intro _
      have hn : d * 2 ^ s * 2 ^ 23 ≤ n := hlo.resolve_left (Nat.ne_of_gt (Nat.zero_lt_of_lt h))
      have h1 : (2 : ℕ) ^ 254 ≤ 2 ^ s := Nat.pow_le_pow_right (by decide) h
      have h2 : d * (2 ^ 254 * 2 ^ 23) ≤ d * 2 ^ s * 2 ^ 23 := by
        rw [mul_assoc]; exact Nat.mul_le_mul_left d (Nat.mul_le_mul_right _ h1)
      have h3 : d * bound ≤ d * (2 ^ 254 * 2 ^ 23) :=
        Nat.mul_le_mul_left d hb3
      exact le_trans h3 (le_trans h2 hn)
    · intro _
      exact hlarge s _ h (hr23.resolve_left (Nat.ne_of_gt (Nat.zero_lt_of_lt h)))

theorem roundMag_le (n d : Nat) : roundMag n d ≤ infBits := by
  rw [roundMag_eq]; exact Nat.min_le_right _ _

theorem roundMag_lt (n d : Nat) : roundMag n d < 2 ^ 31 :=
  lt_of_le_of_lt (roundMag_le n d) (by decide)

/-- A whole number of units that a binary32 magnitude holds is rounded to itself. -/
theorem roundMag_magBits {m : Nat} (hm : m < infBits) : magBits (roundMag (magBits m) 1) = magBits m := by
  have h := (rawMag_nearest (magBits m) 1 m (by decide)).1
  simp only [Nat.cast_one, one_mul, sub_self, abs_zero] at h
  have h0 : (magBits m : ℤ) - magBits (rawMag (magBits m) 1) = 0 := by
    have := abs_nonneg ((magBits m : ℤ) - magBits (rawMag (magBits m) 1))
    exact abs_eq_zero.mp (le_antisymm h this)
  have heq : magBits (rawMag (magBits m) 1) = magBits m := by omega
  rw [roundMag_eq, Nat.min_eq_left, heq]
  by_contra hc
  have hge := (infBits_le_rawMag (magBits m) 1 (by decide)).mp (by omega)
  have hmax : magBits m ≤ (2 ^ 24 - 1) * 2 ^ 253 := by
    unfold magBits
    have : infBits = 255 * 2 ^ 23 := rfl
    split_ifs with h23
    · exact le_trans (le_of_lt h23) (by decide +kernel)
    · exact Nat.mul_le_mul (by omega) (Nat.pow_le_pow_right (by decide) (by omega))
  have : (2 ^ 24 - 1) * 2 ^ 253 < 1 * (2 ^ 277 - 2 ^ 252) := by decide +kernel
  exact absurd (le_trans hge hmax) (not_le.mpr this)

end Sys2Proof.Machine
end

