-- ==== Sys2Proof/Laws/Nearest.lean ====
section
/-! SUPPORT. The rounding operation against the real numbers: a packed rounded quotient is the correctly
rounded real (00_scope.md R8, `Safety.Nearest`). -/

namespace Sys2Proof.Safety

set_option Elab.async false

open Machine

/-- One unit, 2^-149, as a real. -/
noncomputable def unit32 : ℝ := (2 : ℝ) ^ (-149 : ℤ)

theorem unit32_pos : 0 < unit32 := by unfold unit32; positivity

/-- The sign of a word as a factor. -/
def signFactor (neg : Bool) : ℝ := if neg then -1 else 1

theorem abs_signFactor (neg : Bool) : |signFactor neg| = 1 := by
  cases neg <;> simp [signFactor]

theorem value_pack {neg : Bool} {m : Nat} (h : m < 2 ^ 31) :
    value (pack neg m) = signFactor neg * (magBits m * unit32) := by
  unfold value val
  rw [signBit_pack h, mag_pack h]
  cases neg <;> simp [signFactor, unit32]

theorem overflowBound_eq : overflowBound = ((2 ^ 277 - 2 ^ 252 : ℕ) : ℝ) * unit32 := by
  have h : (2 : ℕ) ^ 252 ≤ 2 ^ 277 := Nat.pow_le_pow_right (by decide) (by decide)
  rw [Nat.cast_sub h]
  unfold overflowBound unit32
  rw [sub_mul, Nat.cast_pow, Nat.cast_pow, Nat.cast_ofNat, ← zpow_natCast, ← zpow_natCast,
    ← zpow_natCast, ← zpow_natCast, ← zpow_add₀ (by norm_num), ← zpow_add₀ (by norm_num)]
  norm_num

/-- A distance between a real quotient and a magnitude, scaled to integers. -/
theorem abs_quotient_sub {n d m : Nat} (hd : 0 < d) :
    |(n : ℝ) / d - m| * d = ((|(n : ℤ) - d * m| : ℤ) : ℝ) := by
  have hd' : (0 : ℝ) < d := by exact_mod_cast hd
  push_cast
  rw [show (n : ℝ) / d - m = ((n : ℝ) - d * m) / d by field_simp, abs_div, abs_of_pos hd',
    div_mul_cancel₀ _ (ne_of_gt hd')]

/-- No magnitude is nearer to the quotient than the rounded one (`rawMag_nearest` over the reals). -/
theorem rawMag_nearest_real (n d m : Nat) (hd : 0 < d) :
    |(magBits (rawMag n d) : ℝ) - n / d| ≤ |(magBits m : ℝ) - n / d| ∧
    (|(magBits m : ℝ) - n / d| = |(magBits (rawMag n d) : ℝ) - n / d| →
      magBits m ≠ magBits (rawMag n d) → rawMag n d % 2 = 0) := by
  have hd' : (0 : ℝ) < d := by exact_mod_cast hd
  obtain ⟨h1, h2⟩ := rawMag_nearest n d m hd
  have e := abs_quotient_sub (n := n) (m := magBits m) hd
  have e' := abs_quotient_sub (n := n) (m := magBits (rawMag n d)) hd
  rw [abs_sub_comm (magBits (rawMag n d) : ℝ), abs_sub_comm (magBits m : ℝ)]
  constructor
  · have : ((|(n : ℤ) - d * magBits (rawMag n d)| : ℤ) : ℝ) ≤ (|(n : ℤ) - d * magBits m| : ℤ) := by
      exact_mod_cast h1
    rw [← e, ← e'] at this
    exact le_of_mul_le_mul_right this hd'
  · intro he
    refine h2 ?_
    have : ((|(n : ℤ) - d * magBits m| : ℤ) : ℝ) = (|(n : ℤ) - d * magBits (rawMag n d)| : ℤ) := by
      rw [← e, ← e', he]
    exact_mod_cast this

/-- The word packed from a sign and a rounded quotient is the correctly rounded signed quotient. -/
theorem nearest_pack (neg : Bool) (n d : Nat) (x : ℝ) (hd : 0 < d)
    (hx : x = signFactor neg * ((n : ℝ) / d * unit32)) :
    Nearest x (pack neg (roundMag n d)) := by
  have hd' : (0 : ℝ) < d := by exact_mod_cast hd
  have hu := unit32_pos
  have hlt := roundMag_lt n d
  have hq : (0 : ℝ) ≤ (n : ℝ) / d := by positivity
  have habs : |x| = (n : ℝ) / d * unit32 := by
    rw [hx, abs_mul, abs_signFactor, one_mul, abs_of_nonneg (by positivity)]
  have hover : overflowBound ≤ |x| ↔ infBits ≤ rawMag n d := by
    rw [habs, overflowBound_eq, infBits_le_rawMag n d hd, mul_le_mul_iff_left₀ hu,
      le_div_iff₀ hd', mul_comm]
    exact_mod_cast Iff.rfl
  refine ⟨fun h => ?_, fun h => ?_, fun h => ?_⟩
  · have hr : roundMag n d = infBits := by
      rw [roundMag_eq, Nat.min_eq_right (hover.mp h)]
    rw [hr, isInf, expField_pack (by decide), fracField_pack (by decide)]
    decide
  · have hraw : rawMag n d < infBits := not_le.mp fun hc => absurd (hover.mpr hc) (not_le.mpr h)
    have hr : roundMag n d = rawMag n d := by rw [roundMag_eq, Nat.min_eq_left (le_of_lt hraw)]
    rw [hr] at hlt ⊢
    refine ⟨(isFinite_pack hlt).mpr hraw, fun c hc => ?_⟩
    have hm : c.toNat % 2 ^ 31 < 2 ^ 31 := Nat.mod_lt _ (by decide)
    rw [eq_pack c] at hc ⊢
    generalize signBit c = negc at *
    generalize c.toNat % 2 ^ 31 = m at *
    rw [value_pack hlt, value_pack hm, lowBit_pack hlt, hx]
    have hdist : |signFactor neg * (magBits (rawMag n d) * unit32) -
        signFactor neg * ((n : ℝ) / d * unit32)| =
        |(magBits (rawMag n d) : ℝ) - n / d| * unit32 := by
      rw [← mul_sub, abs_mul, abs_signFactor, one_mul, ← sub_mul, abs_mul, abs_of_pos hu]
    rw [hdist]
    by_cases hs : negc = neg
    · subst hs
      have hdistc : |signFactor negc * (magBits m * unit32) -
          signFactor negc * ((n : ℝ) / d * unit32)| =
          |(magBits m : ℝ) - n / d| * unit32 := by
        rw [← mul_sub, abs_mul, abs_signFactor, one_mul, ← sub_mul, abs_mul, abs_of_pos hu]
      rw [hdistc]
      obtain ⟨h1, h2⟩ := rawMag_nearest_real n d m hd
      refine ⟨mul_le_mul_of_nonneg_right h1 (le_of_lt hu), fun he hne => ?_⟩
      have := h2 (mul_right_cancel₀ (ne_of_gt hu) he) (by
        intro hcon; exact hne (by rw [hcon]))
      simp [this]
    · have hdistc : |signFactor negc * (magBits m * unit32) -
          signFactor neg * ((n : ℝ) / d * unit32)| =
          ((magBits m : ℝ) + n / d) * unit32 := by
        have hf : signFactor negc = -signFactor neg := by
          cases negc <;> cases neg <;> simp_all [signFactor]
        rw [hf, show -signFactor neg * ((magBits m : ℝ) * unit32) -
            signFactor neg * ((n : ℝ) / d * unit32) =
            -(signFactor neg * (((magBits m : ℝ) + n / d) * unit32)) by ring,
          abs_neg, abs_mul, abs_signFactor, one_mul, abs_of_nonneg (by positivity)]
      rw [hdistc]
      obtain ⟨h1, h2⟩ := rawMag_nearest_real n d 0 hd
      have h0 : magBits 0 = 0 := rfl
      rw [h0, Nat.cast_zero, zero_sub, abs_neg, abs_of_nonneg hq] at h1 h2
      have hmn : (0 : ℝ) ≤ magBits m := by positivity
      refine ⟨mul_le_mul_of_nonneg_right (by linarith) (le_of_lt hu), fun he hne => ?_⟩
      have he' := mul_right_cancel₀ (ne_of_gt hu) he
      have hm0 : (magBits m : ℝ) = 0 := by linarith
      have := h2 (by linarith) (by
        intro hcon
        apply hne
        rw [hm0, ← hcon]; simp)
      simp [this]
  · rw [signBit_pack hlt]
    have hpos : 0 < (n : ℝ) / d * unit32 := by
      rcases lt_or_eq_of_le (show 0 ≤ (n : ℝ) / d * unit32 by positivity) with hp | hp
      · exact hp
      · exact absurd (by rw [hx, ← hp, mul_zero]) h
    rw [hx]
    cases neg
    · simp [signFactor]; exact le_of_lt hpos
    · simp only [signFactor, if_true, true_iff, neg_mul, one_mul, Left.neg_neg_iff]; exact hpos

end Sys2Proof.Safety
end

