-- ==== Sys2Proof/Laws/Float.lean ====
section
/-! SUPPORT. The small lemmas of binary32: classes, negation, magnitudes, exact products by 1.0 and sums
with zero, NaN results. -/

namespace Sys2Proof.Machine

set_option Elab.async false

/-! ### Classes -/

theorem isFinite_eq_true {w : Word} : isFinite w = true ↔ expField w ≠ 255 := by
  simp [isFinite]

/-- A finite word is no NaN and no infinity. -/
theorem isNaN_of_isFinite {w : Word} (h : isFinite w = true) : isNaN w = false := by
  simp [isNaN, isFinite_eq_true.mp h]

theorem isInf_of_isFinite {w : Word} (h : isFinite w = true) : isInf w = false := by
  simp [isInf, isFinite_eq_true.mp h]

theorem isNaN_of_isInf {w : Word} (h : isInf w = true) : isNaN w = false := by
  simp only [isInf, Bool.and_eq_true, beq_iff_eq] at h
  simp [isNaN, h.2]

theorem not_isFinite_of_isNaN {w : Word} (h : isNaN w = true) : isFinite w = false := by
  simp only [isNaN, Bool.and_eq_true, beq_iff_eq] at h
  simp [isFinite, h.1]

/-- Every word is finite, an infinity or a NaN. -/
theorem word_class (w : Word) : isFinite w = true ∨ isInf w = true ∨ isNaN w = true := by
  simp only [isFinite, isInf, isNaN, Bool.and_eq_true, beq_iff_eq, bne_iff_ne]
  by_cases h : expField w = 255 <;> by_cases h' : fracField w = 0 <;> simp [h, h']

/-- The magnitude of a word from its magnitude bits. -/
theorem mag_eq_magBits (w : Word) : mag w = magBits (w.toNat % 2 ^ 31) := by
  have hm : w.toNat % 2 ^ 31 < 2 ^ 31 := Nat.mod_lt _ (by decide)
  conv_lhs => rw [eq_pack w]
  exact mag_pack hm

theorem isFinite_iff_lt (w : Word) : isFinite w = true ↔ w.toNat % 2 ^ 31 < infBits := by
  have hm : w.toNat % 2 ^ 31 < 2 ^ 31 := Nat.mod_lt _ (by decide)
  conv_lhs => rw [eq_pack w]
  exact isFinite_pack hm

/-- A packed rounded magnitude is never a NaN. -/
theorem isNaN_pack_roundMag (neg : Bool) (n d : Nat) : isNaN (pack neg (roundMag n d)) = false := by
  have hlt := roundMag_lt n d
  have hle := roundMag_le n d
  have hi : infBits = 255 * 2 ^ 23 := rfl
  rw [isNaN, expField_pack hlt, fracField_pack hlt]
  rcases Nat.lt_or_eq_of_le hle with h | h
  · have : (roundMag n d) / 2 ^ 23 ≠ 255 := by omega
    simp only [Bool.and_eq_false_iff, beq_eq_false_iff_ne]
    exact .inl this
  · rw [h]; decide

/-! ### Negation -/

theorem toNat_neg32_mod (a : Word) : (neg32 a).toNat % 2 ^ 31 = a.toNat % 2 ^ 31 := by
  have h : (neg32 a).setWidth 31 = a.setWidth 31 := by
    simp [neg32, BitVec.setWidth_xor]
  simpa [BitVec.toNat_setWidth] using congrArg BitVec.toNat h

@[simp] theorem signBit_neg32 (a : Word) : signBit (neg32 a) = !signBit a := by
  simp [signBit, neg32]

/-- Negation changes the sign and keeps the magnitude bits. -/
theorem neg32_eq_pack (a : Word) : neg32 a = pack (!signBit a) (a.toNat % 2 ^ 31) := by
  conv_lhs => rw [eq_pack (neg32 a), signBit_neg32, toNat_neg32_mod]

@[simp] theorem mag_neg32 (a : Word) : mag (neg32 a) = mag a := by
  rw [mag_eq_magBits, mag_eq_magBits, toNat_neg32_mod]

@[simp] theorem isFinite_neg32 (a : Word) : isFinite (neg32 a) = isFinite a := by
  rw [Bool.eq_iff_iff, isFinite_iff_lt, isFinite_iff_lt, toNat_neg32_mod]

theorem expField_neg32 (a : Word) : expField (neg32 a) = expField a := by
  have hm : a.toNat % 2 ^ 31 < 2 ^ 31 := Nat.mod_lt _ (by decide)
  rw [neg32_eq_pack, expField_pack hm]
  conv_rhs => rw [eq_pack a, expField_pack hm]

theorem fracField_neg32 (a : Word) : fracField (neg32 a) = fracField a := by
  have hm : a.toNat % 2 ^ 31 < 2 ^ 31 := Nat.mod_lt _ (by decide)
  rw [neg32_eq_pack, fracField_pack hm]
  conv_rhs => rw [eq_pack a, fracField_pack hm]

@[simp] theorem isNaN_neg32 (a : Word) : isNaN (neg32 a) = isNaN a := by
  simp [isNaN, expField_neg32, fracField_neg32]

@[simp] theorem isInf_neg32 (a : Word) : isInf (neg32 a) = isInf a := by
  simp [isInf, expField_neg32, fracField_neg32]

@[simp] theorem isZero_neg32 (a : Word) : isZero (neg32 a) = isZero a := by simp [isZero]

@[simp] theorem val_neg32 (a : Word) : val (neg32 a) = -val a := by
  unfold val; rw [signBit_neg32, mag_neg32]; cases signBit a <;> simp

@[simp] theorem neg32_neg32 (a : Word) : neg32 (neg32 a) = a := by
  simp [neg32]

/-! ### Magnitudes -/

theorem magBits_lt_succ (m : Nat) : magBits m < magBits (m + 1) := by
  unfold magBits
  by_cases h1 : m + 1 < 2 ^ 23
  · rw [if_pos (by omega), if_pos h1]; omega
  rw [if_neg h1]
  by_cases h0 : m < 2 ^ 23
  · obtain rfl : m = 2 ^ 23 - 1 := by omega
    decide
  rw [if_neg h0]
  have hp : 0 < 2 ^ (m / 2 ^ 23 - 1) := by positivity
  by_cases hc : m % 2 ^ 23 + 1 < 2 ^ 23
  · rw [show (m + 1) / 2 ^ 23 = m / 2 ^ 23 by omega, show (m + 1) % 2 ^ 23 = m % 2 ^ 23 + 1 by omega]
    exact Nat.mul_lt_mul_of_pos_right (by omega) hp
  · rw [show (m + 1) / 2 ^ 23 - 1 = m / 2 ^ 23 - 1 + 1 by omega,
      show (m + 1) % 2 ^ 23 = 0 by omega, pow_succ]
    have : 2 ^ 23 + m % 2 ^ 23 < 2 ^ 24 := by omega
    calc (2 ^ 23 + m % 2 ^ 23) * 2 ^ (m / 2 ^ 23 - 1)
        < 2 ^ 24 * 2 ^ (m / 2 ^ 23 - 1) := Nat.mul_lt_mul_of_pos_right this hp
      _ = (2 ^ 23 + 0) * (2 ^ (m / 2 ^ 23 - 1) * 2) := by ring

/-- Magnitudes grow strictly with their bits, so a magnitude has one bit pattern. -/
theorem magBits_strictMono : StrictMono magBits := strictMono_nat_of_lt_succ magBits_lt_succ

theorem isZero_eq_true {w : Word} : isZero w = true ↔ w.toNat % 2 ^ 31 = 0 := by
  rw [isZero, mag_eq_magBits, beq_iff_eq]
  constructor
  · intro h
    exact magBits_strictMono.injective (h.trans (show 0 = magBits 0 from rfl))
  · intro h; rw [h]; rfl

/-- Equal quotients round alike. -/
theorem roundMag_mul_right (n d k : Nat) (hd : 0 < d) (hk : 0 < k) :
    roundMag (n * k) (d * k) = roundMag n d := by
  have hq : n * k / (d * k) = n / d := Nat.mul_div_mul_right n d hk
  have hr : ∀ s, rne (n * k) (d * k * 2 ^ s) = rne n (d * 2 ^ s) := by
    intro s
    have hds : 0 < d * 2 ^ s := by positivity
    rw [show d * k * 2 ^ s = d * 2 ^ s * k by ring]
    unfold rne
    rw [Nat.mul_div_mul_right _ _ hk, Nat.mul_mod_mul_right]
    have h1 : 2 * (n % (d * 2 ^ s) * k) < d * 2 ^ s * k ↔ 2 * (n % (d * 2 ^ s)) < d * 2 ^ s := by
      rw [← mul_assoc]; exact Nat.mul_lt_mul_right hk
    have h2 : 2 * (n % (d * 2 ^ s) * k) > d * 2 ^ s * k ↔ 2 * (n % (d * 2 ^ s)) > d * 2 ^ s := by
      rw [← mul_assoc]; exact Nat.mul_lt_mul_right hk
    simp only [h1, h2]
  unfold roundMag
  simp only [hq, hr]

/-- A finite word is its sign and its rounded magnitude: rounding an exact value changes nothing. -/
theorem pack_roundMag_mag {w : Word} (h : isFinite w = true) :
    pack (signBit w) (roundMag (mag w) 1) = w := by
  have hlt := (isFinite_iff_lt w).mp h
  have hr : roundMag (mag w) 1 = w.toNat % 2 ^ 31 := by
    rw [mag_eq_magBits]
    exact magBits_strictMono.injective (roundMag_magBits hlt)
  rw [hr]
  exact (eq_pack w).symm

/-- Finite magnitudes lie below 2^277 units, the place of an infinity. -/
theorem mag_lt {w : Word} (h : isFinite w = true) : mag w < 2 ^ 277 := by
  rw [mag_eq_magBits]
  exact lt_of_lt_of_eq (magBits_strictMono ((isFinite_iff_lt w).mp h)) (by decide +kernel)

theorem mag_of_isInf {w : Word} (h : isInf w = true) : mag w = 2 ^ 277 := by
  have hm : w.toNat % 2 ^ 31 < 2 ^ 31 := Nat.mod_lt _ (by decide)
  rw [eq_pack w, isInf, expField_pack hm, fracField_pack hm] at h
  simp only [Bool.and_eq_true, beq_iff_eq] at h
  have hb : w.toNat % 2 ^ 31 = infBits := by
    rw [← Nat.div_add_mod (w.toNat % 2 ^ 31) (2 ^ 23), h.1, h.2]; rfl
  rw [mag_eq_magBits, hb]; decide +kernel

/-- A magnitude of at most 24 significant bits has a bit pattern. -/
theorem exists_magBits (k s : Nat) (h : k ≤ 2 ^ 24) : ∃ m, magBits m = k * 2 ^ s := by
  induction s generalizing k with
  | zero => exact ⟨k, by simpa using magBits_scaled (s := 0) (r := k) (.inl rfl) h⟩
  | succ s ih =>
    by_cases hk : k < 2 ^ 23
    · obtain ⟨m, hm⟩ := ih (2 * k) (by omega)
      exact ⟨m, by rw [hm, pow_succ]; ring⟩
    · exact ⟨(s + 1) * 2 ^ 23 + k, magBits_scaled (.inr (by omega)) h⟩

/-- A result of at most 24 significant bits below the overflow bound is not rounded. -/
theorem magBits_roundMag_exact (k s : Nat) (h : k ≤ 2 ^ 24) (hlt : k * 2 ^ s < 2 ^ 277) :
    magBits (roundMag (k * 2 ^ s) 1) = k * 2 ^ s := by
  obtain ⟨m, hm⟩ := exists_magBits k s h
  rw [← hm]
  refine roundMag_magBits (magBits_strictMono.lt_iff_lt.mp ?_)
  rw [hm]
  exact lt_of_lt_of_eq hlt (by decide +kernel)

/-- Rounding never passes a representable bound. -/
theorem roundMag_le_of_le {n d m : Nat} (hd : 0 < d) (h : n ≤ d * magBits m) : roundMag n d ≤ m := by
  rw [roundMag_eq]
  refine le_trans (Nat.min_le_left _ _) ?_
  by_contra hh
  have hs : magBits m < magBits (rawMag n d) := magBits_strictMono (not_le.mp hh)
  have h1 := (rawMag_nearest n d m hd).1
  have h3 : d * magBits m < d * magBits (rawMag n d) := Nat.mul_lt_mul_of_pos_left hs hd
  have h4 : (n : ℤ) ≤ d * magBits m := by exact_mod_cast h
  have h5 : (d * magBits m : ℤ) < d * magBits (rawMag n d) := by exact_mod_cast h3
  rw [abs_of_neg (by omega), abs_of_nonpos (by omega)] at h1
  omega

/-! ### Exact products and sums -/

theorem mag_one : mag one = 2 ^ 149 := by decide +kernel

/-- A product by 1.0 is exact. -/
theorem mul32_one (P : Params) {a : Word} (h : isFinite a = true) : mul32 P a one = a := by
  have h1 : isFinite one = true := by decide
  simp only [mul32, isNaN_of_isFinite h, isNaN_of_isFinite h1, isInf_of_isFinite h,
    isInf_of_isFinite h1, Bool.or_self, Bool.false_eq_true, if_false]
  have hr := roundMag_mul_right (mag a) 1 (2 ^ 149) (by decide) (by positivity)
  rw [one_mul] at hr
  rw [mag_one, hr]
  rw [show (signBit a ^^ signBit one) = signBit a by
    rw [show signBit one = false by decide]; simp]
  exact pack_roundMag_mag h

/-- A product by a zero of a finite word is a zero with the product's sign. -/
theorem mul32_zero (P : Params) {a b : Word} (h : isFinite a = true) (hb : isZero b = true) :
    mul32 P a b = pack (signBit a ^^ signBit b) 0 := by
  have hbm := isZero_eq_true.mp hb
  have h1 : isFinite b = true := by rw [isFinite_iff_lt, hbm]; decide
  simp only [isZero, beq_iff_eq] at hb
  simp only [mul32, isNaN_of_isFinite h, isNaN_of_isFinite h1, isInf_of_isFinite h,
    isInf_of_isFinite h1, Bool.or_self, Bool.false_eq_true, if_false, hb, mul_zero]
  rw [show roundMag 0 (2 ^ 149) = 0 by decide +kernel]

theorem val_eq_zero {w : Word} : val w = 0 ↔ mag w = 0 := by
  unfold val; cases signBit w <;> simp

theorem val_zero_of_isZero {w : Word} (h : isZero w = true) : val w = 0 := by
  rw [val_eq_zero]; simpa [isZero] using h

/-- A sum with a zero is exact, but for the sign of a zero sum. -/
theorem add32_zero (P : Params) {a b : Word} (h : isFinite a = true) (hb : isZero b = true)
    (ha : isZero a = false) : add32 P a b = a := by
  have hbm := isZero_eq_true.mp hb
  have h1 : isFinite b = true := by rw [isFinite_iff_lt, hbm]; decide
  have hv := val_zero_of_isZero hb
  have hne : val a ≠ 0 := by rw [Ne, val_eq_zero]; simpa [isZero] using ha
  simp only [add32, isNaN_of_isFinite h, isNaN_of_isFinite h1, isInf_of_isFinite h,
    isInf_of_isFinite h1, Bool.or_self, Bool.false_eq_true, if_false, hv, add_zero, hne]
  have hs : decide (val a < 0) = signBit a := by
    have hm : mag a ≠ 0 := by rwa [Ne, ← val_eq_zero]
    unfold val; cases hsg : signBit a
    · simp
    · simp; omega
  have habs : (val a).natAbs = mag a := by unfold val; cases signBit a <;> simp
  rw [hs, habs]
  exact pack_roundMag_mag h

/-- The sum of two zeros is -0 only if both are -0. -/
theorem add32_zero_zero (P : Params) {a b : Word} (ha : isZero a = true) (hb : isZero b = true) :
    add32 P a b = pack (signBit a && signBit b) 0 := by
  have ham := isZero_eq_true.mp ha
  have hbm := isZero_eq_true.mp hb
  have h0 : isFinite a = true := by rw [isFinite_iff_lt, ham]; decide
  have h1 : isFinite b = true := by rw [isFinite_iff_lt, hbm]; decide
  simp only [add32, isNaN_of_isFinite h0, isNaN_of_isFinite h1, isInf_of_isFinite h0,
    isInf_of_isFinite h1, Bool.or_self, Bool.false_eq_true, if_false,
    val_zero_of_isZero ha, val_zero_of_isZero hb, add_zero, if_true]

/-- A finite word that is a zero is +0 or -0. -/
theorem eq_pack_of_isZero {a : Word} (h : isZero a = true) : a = pack (signBit a) 0 := by
  conv_lhs => rw [eq_pack a, isZero_eq_true.mp h]

/-- `0.0 + b` and `a + 0.0` of words that are finite and not -0. -/
theorem add32_pzero (P : Params) {a : Word} (h : isFinite a = true) (ha : a ≠ 0x80000000#32) :
    add32 P a pzero = a := by
  by_cases hz : isZero a = true
  · rw [add32_zero_zero P hz (by decide)]
    have := eq_pack_of_isZero hz
    cases hs : signBit a
    · rw [hs] at this; rw [this]; decide
    · rw [hs] at this; exact absurd (this.trans (by decide)) ha
  · exact add32_zero P h (by decide) (by simpa using hz)

/-! ### NaN results -/

theorem add32_nan {P : Params} {a b : Word} (h : isNaN a = true ∨ isNaN b = true) :
    add32 P a b = P.nanResult := by
  unfold add32; rcases h with h | h <;> simp [h]

theorem sub32_nan {P : Params} {a b : Word} (h : isNaN a = true ∨ isNaN b = true) :
    sub32 P a b = P.nanResult := add32_nan (by rw [isNaN_neg32]; exact h)

theorem mul32_nan {P : Params} {a b : Word} (h : isNaN a = true ∨ isNaN b = true) :
    mul32 P a b = P.nanResult := by
  unfold mul32; rcases h with h | h <;> simp [h]

theorem div32_nan {P : Params} {a b : Word} (h : isNaN a = true ∨ isNaN b = true) :
    div32 P a b = P.nanResult := by
  unfold div32; rcases h with h | h <;> simp [h]

theorem sqrt32_nan {P : Params} {a : Word} (h : isNaN a = true) : sqrt32 P a = P.nanResult := by
  unfold sqrt32; simp [h]

theorem isNaN_thisBlock : isNaN thisBlock.nanResult = true := by decide

/-! ### Comparisons -/

theorem lt32_nan {a b : Word} (h : isNaN a = true ∨ isNaN b = true) : lt32 a b = false := by
  unfold lt32; rcases h with h | h <;> simp [h]

theorem le32_nan {a b : Word} (h : isNaN a = true ∨ isNaN b = true) : le32 a b = false := by
  unfold le32; rcases h with h | h <;> simp [h]

/-- The order of words that are not NaN is total. -/
theorem le32_of_not_lt32 {a b : Word} (ha : isNaN a = false) (hb : isNaN b = false)
    (h : lt32 a b = false) : le32 b a = true := by
  simp only [lt32, le32, ha, hb, Bool.not_false, Bool.true_and, decide_eq_false_iff_not, not_lt,
    decide_eq_true_eq] at h ⊢
  exact h

theorem le32_refl {a : Word} (ha : isNaN a = false) : le32 a a = true := by
  simp [le32, ha]

/-! ### Infinities -/

/-- There are two infinities. -/
theorem eq_of_isInf {a : Word} (h : isInf a = true) : a = 0x7F800000#32 ∨ a = 0xFF800000#32 := by
  have hm : a.toNat % 2 ^ 31 < 2 ^ 31 := Nat.mod_lt _ (by decide)
  have hb : a.toNat % 2 ^ 31 = infBits := by
    rw [eq_pack a, isInf, expField_pack hm, fracField_pack hm] at h
    simp only [Bool.and_eq_true, beq_iff_eq] at h
    rw [← Nat.div_add_mod (a.toNat % 2 ^ 31) (2 ^ 23), h.1, h.2]; rfl
  rw [eq_pack a, hb]
  cases signBit a
  · exact .inl (by decide)
  · exact .inr (by decide)

/-- An infinity plus a word that is no NaN and not the opposite infinity. -/
theorem add32_of_isInf_left {P : Params} {a b : Word} (h : isInf a = true) (hb : isNaN b = false)
    (hs : b ≠ neg32 a) : add32 P a b = a := by
  unfold add32
  simp only [isNaN_of_isInf h, hb, h, Bool.or_self, Bool.false_eq_true, if_false, if_true]
  by_cases hi : isInf b = true
  · have hab : a = b := by
      rcases eq_of_isInf hi with rfl | rfl <;> rcases eq_of_isInf h with rfl | rfl
      · rfl
      · exact absurd rfl hs
      · exact absurd rfl hs
      · rfl
    subst hab; simp
  · simp [hi]

/-- A word that is no NaN and not the opposite infinity plus an infinity. -/
theorem add32_of_isInf_right {P : Params} {a b : Word} (h : isInf b = true) (ha : isNaN a = false)
    (hs : a ≠ neg32 b) : add32 P a b = b := by
  unfold add32
  simp only [ha, isNaN_of_isInf h, h, Bool.or_self, Bool.false_eq_true, if_false, if_true]
  by_cases hi : isInf a = true
  · have hab : a = b := by
      rcases eq_of_isInf hi with rfl | rfl <;> rcases eq_of_isInf h with rfl | rfl
      · rfl
      · exact absurd rfl hs
      · exact absurd rfl hs
      · rfl
    subst hab; simp [hi]
  · simp [hi]

/-- Opposite infinities. -/
theorem add32_opposite_inf {P : Params} {a : Word} (h : isInf a = true) :
    add32 P (neg32 a) a = P.nanResult := by
  unfold add32; simp [isNaN_of_isInf h, h]

/-! ### Factors in [-1, 1] -/

/-- A word of [-1, 1] is finite, and its magnitude is at most that of 1.0. -/
theorem inUnit_isFinite {w : Word} (h : inUnit w = true) : isFinite w = true ∧ mag w ≤ 2 ^ 149 := by
  simp only [inUnit, le32, Bool.and_eq_true, decide_eq_true_eq, Bool.not_eq_true'] at h
  obtain ⟨⟨⟨-, hn⟩, h1⟩, ⟨-, h2⟩⟩ := h
  have e : val one = 2 ^ 149 := by decide +kernel
  rw [val_neg32, e] at h1
  rw [e] at h2
  have hm : (mag w : ℤ) ≤ 2 ^ 149 := by unfold val at h1 h2; split at h1 <;> simp_all
  have hm' : mag w ≤ 2 ^ 149 := by exact_mod_cast hm
  refine ⟨?_, hm'⟩
  rcases word_class w with h | h | h
  · exact h
  · rw [mag_of_isInf h] at hm'; exact absurd hm' (by decide +kernel)
  · rw [hn] at h; cases h

/-- A product by a factor in [-1, 1] is finite and no larger. -/
theorem mul32_inUnit {P : Params} {h v : Word} (hu : inUnit h = true) (hv : isFinite v = true) :
    isFinite (mul32 P h v) = true ∧ mag (mul32 P h v) ≤ mag v := by
  obtain ⟨hf, hm⟩ := inUnit_isFinite hu
  unfold mul32
  simp only [isNaN_of_isFinite hf, isNaN_of_isFinite hv, isInf_of_isFinite hf,
    isInf_of_isFinite hv, Bool.or_self, Bool.false_eq_true, if_false]
  have hlt := (isFinite_iff_lt v).mp hv
  have hrl := roundMag_lt (mag h * mag v) (2 ^ 149)
  have hle : roundMag (mag h * mag v) (2 ^ 149) ≤ v.toNat % 2 ^ 31 := by
    refine roundMag_le_of_le (Nat.pow_pos (by decide)) ?_
    rw [← mag_eq_magBits]
    exact Nat.mul_le_mul hm (le_refl _)
  generalize roundMag (mag h * mag v) (2 ^ 149) = q at *
  refine ⟨(isFinite_pack hrl).mpr (lt_of_le_of_lt hle hlt), ?_⟩
  rw [mag_pack hrl, mag_eq_magBits v]
  exact magBits_strictMono.le_iff_le.mpr hle

/-- A sum with a finite word is a NaN only if the other operand is one. -/
theorem isNaN_add32_of_isFinite {P : Params} {a b : Word} (ha : isNaN a = false)
    (hb : isFinite b = true) : isNaN (add32 P a b) = false := by
  unfold add32
  simp only [ha, isNaN_of_isFinite hb, isInf_of_isFinite hb, Bool.or_self, Bool.false_eq_true,
    if_false, Bool.false_and]
  split
  · exact ha
  · split
    · cases (signBit a && signBit b) <;> decide
    · exact isNaN_pack_roundMag _ _ _

end Sys2Proof.Machine
end

