-- ==== Sys2Proof/Laws/Filter.lean ====
section
/-! SUPPORT. The delay line: what a push does (40_common.md R114), said once. -/

namespace Sys2Proof.Machine

set_option Elab.async false

@[simp] theorem zeroLine_length (P : Params) : (zeroLine P).length = P.hilbN := by simp [zeroLine]

/-- A push keeps the length of a line of N entries. -/
theorem qfPush_length {P : Params} {ln : List Word} (v : Word) (h : ln.length = P.hilbN) :
    (qfPush P ln v).length = P.hilbN := by simp [qfPush, h]

/-- The newest entry is the value pushed. -/
theorem qfPush_getElem?_zero {P : Params} (ln : List Word) (v : Word) (h : 0 < P.hilbN) :
    (qfPush P ln v)[0]? = some v := by
  unfold qfPush; rw [List.getElem?_take]; simp [h]

/-- Every other entry is the one before it. -/
theorem qfPush_getElem?_succ {P : Params} (ln : List Word) (v : Word) {k : Nat}
    (h : k + 1 < P.hilbN) : (qfPush P ln v)[k + 1]? = ln[k]? := by
  unfold qfPush; rw [List.getElem?_take]; simp [h]

/-- One more tap of the accumulation. -/
theorem firStep_nan {P : Params} (hP : isNaN P.nanResult = true) {acc h v : Word}
    (hn : isNaN acc = true ∨ isNaN v = true) : add32 P acc (mul32 P h v) = P.nanResult := by
  rcases hn with hn | hn
  · exact add32_nan (.inl hn)
  · exact add32_nan (.inr (by rw [mul32_nan (.inr hn)]; exact hP))

/-- A fold over two lists of one length is a fold over the indices. -/
theorem foldl_zip_range (P : Params) (hs ln : List Word) (acc : Word) (h : hs.length = ln.length) :
    (hs.zip ln).foldl (fun acc hl => add32 P acc (mul32 P hl.1 hl.2)) acc =
      (List.range hs.length).foldl
        (fun acc k => add32 P acc (mul32 P (hs.getD k pzero) (ln.getD k pzero))) acc := by
  induction hs generalizing ln acc with
  | nil => simp
  | cons x hs ih =>
    cases ln with
    | nil => simp at h
    | cons y ln =>
      simp only [List.zip_cons_cons, List.foldl_cons, List.length_cons, List.range_succ_eq_map,
        List.foldl_map]
      rw [ih _ _ (by simpa using h)]
      simp

@[simp] theorem tapSumTo_zero (P : Params) (ln : List Word) : Safety.tapSumTo P ln 0 = pzero := rfl

/-- One more tap of the accumulation, counted from the first. -/
theorem tapSumTo_succ (P : Params) (ln : List Word) (n : Nat) :
    Safety.tapSumTo P ln (n + 1) =
      add32 P (Safety.tapSumTo P ln n) (Safety.tapProduct P ln n) := by
  unfold Safety.tapSumTo; rw [List.range_succ, List.foldl_append]; rfl

end Sys2Proof.Machine
end

