-- ==== Sys2Proof/Laws/Ops.lean ====
section
/-! SUPPORT. The status register after a command, bit by bit, and the host's variables as a map. -/

namespace Sys2Proof.Machine

set_option Elab.async false

/-- Every bit of `STATUS` after a command (60_exceptions.md R225). -/
theorem statusAfter_getLsbD (old : Word) (c : ErrCode) (m d : Bool) (i : Nat) (hi : i < 32) :
    (statusAfter old c m d).getLsbD i =
      if i = 0 then m
      else if i = 1 then d
      else if 4 ≤ i ∧ i < 8 then (errNumber c).getLsbD (i - 4)
      else old.getLsbD i := by
  have hmask : ∀ k : Fin 32, (0xFFFFFF0C#32).getLsbD k.val =
      decide (k.val ≠ 0 ∧ k.val ≠ 1 ∧ ¬(4 ≤ k.val ∧ k.val < 8)) := by decide
  have hm := hmask ⟨i, hi⟩
  simp only at hm
  simp only [statusAfter, statusFields, BitVec.getLsbD_or, BitVec.getLsbD_and, hm,
    BitVec.getLsbD_append]
  by_cases h0 : i = 0
  · subst h0; simp
  by_cases h1 : i = 1
  · subst h1; simp
  rw [if_neg h0, if_neg h1]
  by_cases h4 : 4 ≤ i ∧ i < 8
  · rw [if_pos h4]
    simp [h4, show ¬i < 1 by omega, show ¬i - 1 < 1 by omega, show ¬i - 1 - 1 < 2 by omega,
      show i - 1 - 1 - 2 = i - 4 by omega]
    intro h; omega
  · rw [if_neg h4]
    by_cases h2 : i < 4
    · simp [h4, h0, h1, show ¬i < 1 by omega, show ¬i - 1 < 1 by omega,
        show i - 1 - 1 < 2 by omega]
    · simp [h4, h0, h1, show ¬i < 1 by omega, show ¬i - 1 < 1 by omega,
        show ¬i - 1 - 1 < 2 by omega, show ¬i - 1 - 1 - 2 < 4 by omega]

@[simp] theorem lastErr_statusAfter (old : Word) (c : ErrCode) (m d : Bool) :
    lastErr (statusAfter old c m d) = errNumber c := by
  apply BitVec.eq_of_getLsbD_eq
  intro i hi
  simp only [lastErr, BitVec.getLsbD_extractLsb', hi, decide_true, Bool.true_and]
  rw [statusAfter_getLsbD _ _ _ _ _ (by omega), if_neg (by omega), if_neg (by omega),
    if_pos (by omega)]
  simp

@[simp] theorem statusMod_statusAfter (old : Word) (c : ErrCode) (m d : Bool) :
    statusMod (statusAfter old c m d) = m := by
  unfold statusMod; rw [statusAfter_getLsbD _ _ _ _ _ (by decide)]; rfl

@[simp] theorem statusDem_statusAfter (old : Word) (c : ErrCode) (m d : Bool) :
    statusDem (statusAfter old c m d) = d := by
  unfold statusDem; rw [statusAfter_getLsbD _ _ _ _ _ (by decide)]; rfl

/-- A read after a write of a host variable. -/
theorem getVar_setVar (t k : Nat) (v : Word) (l : List (Nat × Word)) :
    getVar (setVar t v l) k = if t = k then some v else getVar l k := by
  induction l with
  | nil => simp [setVar, getVar]
  | cons a l ih =>
    obtain ⟨j, w⟩ := a
    simp only [setVar]
    split
    · simp only [getVar, ih]
      split
      · subst_vars; rw [if_neg (by omega)]
      · rfl
    · split
      · subst_vars; simp only [getVar]; split <;> rfl
      · simp only [getVar]

/-- A variable has a word exactly if the list names it. -/
theorem getVar_isSome (l : List (Nat × Word)) (t : Nat) :
    (∃ w, getVar l t = some w) ↔ t ∈ l.map Prod.fst := by
  induction l with
  | nil => simp [getVar]
  | cons a l ih =>
    obtain ⟨j, w⟩ := a
    simp only [getVar, List.map_cons, List.mem_cons]
    split
    · subst_vars; simp
    · rw [ih]
      constructor
      · exact .inr
      · rintro (rfl | h)
        · exact absurd rfl ‹_›
        · exact h

/-- The variables named after a write. -/
theorem mem_setVar (t k : Nat) (v : Word) (l : List (Nat × Word)) :
    k ∈ (setVar t v l).map Prod.fst ↔ k = t ∨ k ∈ l.map Prod.fst := by
  rw [← getVar_isSome, ← getVar_isSome, getVar_setVar]
  by_cases h : t = k
  · simp [h]
  · simp [h, Ne.symm h]

/-- A write to a read-only or a reserved register leaves everything as it is (10_state.md R34). -/
theorem writeReg_discards (r : Reg) (v : Word) (s : State)
    (h : accessClass r = .ro ∨ accessClass r = .reserved) : writeReg r v s = s := by
  cases r <;> simp_all [accessClass, writeReg]

/-- A read-write register reads as the word last written to it (10_state.md R34). -/
theorem readReg_writeReg (P : Params) (r : Reg) (v : Word) (s : State)
    (h : accessClass r = .rw) : readReg P (writeReg r v s) r = v := by
  cases r <;> simp_all [accessClass, writeReg, readReg]

/-- A write-only register and a reserved offset read 0 (10_state.md R34). -/
theorem readReg_zero (P : Params) (r : Reg) (s : State)
    (h : accessClass r = .wo ∨ accessClass r = .reserved) : readReg P s r = 0 := by
  cases r <;> simp_all [accessClass, readReg]

/-- A write to a write-one-to-clear register clears the bits that the word sets (10_state.md R34). -/
theorem readReg_writeReg_w1c (P : Params) (r : Reg) (v : Word) (s : State)
    (h : accessClass r = .w1c) :
    readReg P (writeReg r v s) r = errflagsClear (readReg P s r) v := by
  cases r <;> simp_all [accessClass, writeReg, readReg]

end Sys2Proof.Machine
end

