-- ==== Sys2Proof/Laws/Host.lean ====
section
/-! SUPPORT. One step on each kind of pending event, and runs of several events: what is pending behind
an event does not change what the event does. -/

namespace Sys2Proof.Machine

set_option Elab.async false

/-- A step performs the first placed event. -/
theorem step_placeEvents (e : HostEvent) (es : List HostEvent) (s : State) :
    step (placeEvents (e :: es) s) = performEvent e (placeEvents es s) := rfl

/-- The owner's admitted write of a value that has a word. -/
theorem performEvent_hostWrite {off : Nat} {v : Value} {w : Word} {s : State}
    (ha : admitted off 4 = true) (hv : valueOf s.hostSide.vars v = some w) :
    performEvent (hostWrite off v) s = memWrite off w s := by
  simp [hostWrite, performEvent, performAccess, ha, hv]

/-- The owner's admitted read. -/
theorem performEvent_hostRead {off : Nat} (dst : Option Nat) {s : State}
    (ha : admitted off 4 = true) :
    performEvent (hostRead off dst) s = .next
      { s with hostSide := takeRead dst (memRead thisBlock s off) s.hostSide } := by
  simp [hostRead, performEvent, performAccess, ha]

/-- The owner's write of a word to `CMD` executes it. -/
theorem performEvent_commandWrite (w : Word) (s : State) :
    performEvent (commandWrite w) s = execute w s := by
  rw [commandWrite, performEvent_hostWrite (w := w) (by decide) rfl]; rfl

/-- `s` with the pending events replaced. -/
def withPending (l : List HostEvent) (s : State) : State :=
  { s with hostSide := { s.hostSide with pending := l } }

theorem placeEvents_eq (es : List HostEvent) (s : State) :
    placeEvents es s = withPending (es ++ s.hostSide.pending) s := rfl

theorem complete_withPending (c : ErrCode) (l : List HostEvent) (s : State) :
    complete c (withPending l s) = withPending l (complete c s) := rfl

theorem writeReg_withPending (r : Reg) (v : Word) (l : List HostEvent) (s : State) :
    writeReg r v (withPending l s) = withPending l (writeReg r v s) := by cases r <;> rfl

/-- An outcome with the pending events of its next state replaced. -/
def outcomeWithPending (l : List HostEvent) :
    Host.Outcome State Fault Refusal → Host.Outcome State Fault Refusal
  | .next t => .next (withPending l t)
  | .fault f => .fault f
  | .refused r => .refused r

/-- No command reads what is pending. -/
theorem exec_withPending (i : Instr) (l : List HostEvent) (s : State) :
    exec i (withPending l s) = outcomeWithPending l (exec i s) := by
  cases i with
  | nop => rfl
  | modCreate sb sc =>
    cases hc : s.mod.created <;> cases hv : validConfig s.midx sb <;>
      simp [exec, execModCreate, modCreate, stagedM, stagedCfo, withPending, hc, hv] <;> rfl
  | modStep =>
    cases hc : s.mod.created <;> simp [exec, execModStep, modStep, modInput, withPending, hc] <;> rfl
  | modDestroy =>
    cases hc : s.mod.created <;> simp [exec, execModDestroy, modDestroy, withPending, hc] <;> rfl
  | demCreate sb sc =>
    cases hc : s.dem.created <;> cases hv : validConfig s.midx sb <;>
      simp [exec, execDemCreate, demCreate, stagedM, stagedCfo, withPending, hc, hv] <;> rfl
  | demStep =>
    cases hc : s.dem.created <;> simp [exec, execDemStep, demStep, demInput, withPending, hc] <;> rfl
  | demDestroy =>
    cases hc : s.dem.created <;> simp [exec, execDemDestroy, demDestroy, withPending, hc] <;> rfl

/-- No command word reads what is pending. -/
theorem execute_withPending (w : Word) (l : List HostEvent) (s : State) :
    execute w (withPending l s) = outcomeWithPending l (execute w s) := by
  unfold execute
  cases decode w with
  | command i => exact exec_withPending i l s
  | illegal why => rfl

/-- A read of a register does not depend on what is pending. -/
theorem memRead_withPending (P : Params) (l : List HostEvent) (s : State) (off : Nat) :
    memRead P (withPending l s) off = memRead P s off := by
  unfold memRead
  generalize regAt off = r
  cases r <;> rfl

/-- No event reads what is pending behind it. -/
theorem performEvent_withPending (e : HostEvent) (l : List HostEvent) (s : State) :
    performEvent e (withPending l s) = outcomeWithPending l (performEvent e s) := by
  cases e with
  | reset => rfl
  | access a =>
    obtain ⟨master, width, off, kind⟩ := a
    cases master with
    | other => simp [performEvent, performAccess, outcomeWithPending]
    | owner =>
      cases ha : admitted off width with
      | false => simp [performEvent, performAccess, outcomeWithPending, ha]
      | true =>
        cases kind with
        | read dst =>
          simp only [performEvent, performAccess, ha, memRead_withPending]
          rfl
        | write v =>
          simp only [performEvent, performAccess, ha]
          rw [show (withPending l s).hostSide.vars = s.hostSide.vars from rfl]
          cases valueOf s.hostSide.vars v with
          | none => rfl
          | some w =>
            obtain ⟨hr, hx⟩ | ⟨hr, hx⟩ := memWrite_cases off w s
            · obtain ⟨-, hy⟩ | ⟨hn, -⟩ := memWrite_cases off w (withPending l s)
              · simpa [hx, hy] using execute_withPending w l s
              · exact absurd hr hn
            · obtain ⟨hn, -⟩ | ⟨-, hy⟩ := memWrite_cases off w (withPending l s)
              · exact absurd hn hr
              · simp [hx, hy, outcomeWithPending, writeReg_withPending]

/-- No event changes what is pending behind it. -/
theorem performEvent_pending {e : HostEvent} {s t : State} (h : performEvent e s = .next t) :
    t.hostSide.pending = s.hostSide.pending := by
  have hs : withPending s.hostSide.pending s = s := rfl
  have hp := performEvent_withPending e s.hostSide.pending s
  rw [hs, h] at hp
  simp only [outcomeWithPending, Host.Outcome.next.injEq] at hp
  rw [hp]; rfl

/-- A run of no events stays where it is. -/
theorem runsTo_nil (s : State) : Safety.RunsTo [] s s := rfl

/-- A run performs its first event, then the rest. -/
theorem runsTo_cons {e : HostEvent} {es : List HostEvent} {s t u : State}
    (h : performEvent e s = .next t) (hr : Safety.RunsTo es t u) :
    Safety.RunsTo (e :: es) s u := by
  have hp := performEvent_pending h
  have hstep : step (placeEvents (e :: es) s) = .next (placeEvents es t) := by
    rw [step_placeEvents, placeEvents_eq, performEvent_withPending, h, placeEvents_eq, hp]; rfl
  have hc : Host.Core.step Sys2Proof.core (placeEvents (e :: es) s) = .next (placeEvents es t) := hstep
  unfold Safety.RunsTo at hr ⊢
  simp only [List.length_cons, Host.Core.run, hc]
  exact hr

/-- A run with a property of its end performs its first event, then the rest. -/
theorem exists_runsTo_cons {e : HostEvent} {es : List HostEvent} {s t : State} {Q : State → Prop}
    (h : performEvent e s = .next t) (hr : ∃ u, Safety.RunsTo es t u ∧ Q u) :
    ∃ u, Safety.RunsTo (e :: es) s u ∧ Q u := by
  obtain ⟨u, h1, h2⟩ := hr
  exact ⟨u, runsTo_cons h h1, h2⟩

/-- The owner's admitted write to any register but `CMD`. -/
theorem performEvent_registerWrite {off : Nat} {v : Value} {w : Word} {s : State}
    (ha : admitted off 4 = true) (hv : valueOf s.hostSide.vars v = some w) (hc : regAt off ≠ .cmd) :
    performEvent (hostWrite off v) s = .next (writeReg (regAt off) w s) := by
  rw [performEvent_hostWrite ha hv]
  unfold memWrite; split
  · contradiction
  · rfl

end Sys2Proof.Machine
end

