-- ==== Sys2Proof/Laws/Oscillator.lean ====
section
/-! SUPPORT. The oscillator's fixed-point parts against the real cosine and sine (00_scope.md R17): the
Taylor factor, its truncation, the reduction by quarter turns and the one rounding, each with its
error said once. pi enters with the twenty digits that Mathlib proves. -/

namespace Sys2Proof.Machine

set_option Elab.async false

open Safety

/-! ### The Taylor factor -/

/-- The Taylor factor of `ddsTaylor` over the reals. -/
noncomputable def taylorFactor (X : ℝ) : ℕ → ℕ → ℝ
  | _, 0 => 1
  | j, n + 1 => 1 - X * taylorFactor X (j + 2) n / (j * (j + 1))

/-- The nested factor is a sum of Taylor terms. -/
theorem taylorFactor_eq_sum (X : ℝ) (j n : ℕ) :
    taylorFactor X (j + 1) n =
      ∑ k ∈ Finset.range (n + 1), (-X) ^ k * (j.factorial / (j + 2 * k).factorial : ℝ) := by
  induction n generalizing j with
  | zero =>
    have : (j.factorial : ℝ) ≠ 0 := by exact_mod_cast j.factorial_ne_zero
    simp [taylorFactor, this]
  | succ n ih =>
    have hj : (j.factorial : ℝ) ≠ 0 := by exact_mod_cast j.factorial_ne_zero
    rw [taylorFactor, ih (j + 2), Finset.sum_range_succ' _ (n + 1), Finset.mul_sum, Finset.sum_div]
    have h0 : (-X) ^ 0 * (j.factorial / (j + 2 * 0).factorial : ℝ) = 1 := by simp [hj]
    rw [h0, sub_eq_neg_add, ← Finset.sum_neg_distrib]
    congr 1
    refine Finset.sum_congr rfl fun k _ => ?_
    have hf : ((j + 2).factorial : ℝ) = (j + 2) * (j + 1) * j.factorial := by
      rw [Nat.factorial_succ, Nat.factorial_succ]; push_cast; ring
    rw [show j + 2 * (k + 1) = j + 2 + 2 * k by ring, hf, pow_succ]
    have h1 : ((j : ℝ) + 1) ≠ 0 := by positivity
    have h2 : ((j : ℝ) + 2) ≠ 0 := by positivity
    have h3 : ((j + 2 + 2 * k).factorial : ℝ) ≠ 0 := by exact_mod_cast Nat.factorial_ne_zero _
    push_cast
    rw [show (j : ℝ) + 1 + 1 = j + 2 by ring]
    field_simp

/-- The partial sums of exp(ix), split in real and imaginary parts. -/
theorem expSum_eq (x : ℝ) (n : ℕ) :
    ∑ m ∈ Finset.range (2 * n), ((x : ℂ) * Complex.I) ^ m / (m.factorial : ℂ) =
      ((∑ k ∈ Finset.range n, (-1) ^ k * x ^ (2 * k) / ((2 * k).factorial : ℝ) : ℝ) : ℂ) +
      ((∑ k ∈ Finset.range n, (-1) ^ k * x ^ (2 * k + 1) / ((2 * k + 1).factorial : ℝ) : ℝ) : ℂ) *
        Complex.I := by
  induction n with
  | zero => simp
  | succ n ih =>
    rw [show 2 * (n + 1) = 2 * n + 1 + 1 by ring, Finset.sum_range_succ, Finset.sum_range_succ, ih,
      Finset.sum_range_succ, Finset.sum_range_succ]
    have hI : (Complex.I : ℂ) ^ (2 * n) = (-1) ^ n := by rw [pow_mul, Complex.I_sq]
    rw [mul_pow, mul_pow, pow_succ Complex.I, hI]
    push_cast
    ring

/-- The partial sums are near the cosine and the sine. -/
theorem cosSum_near {x : ℝ} (hx : |x| ≤ 2) (n : ℕ) (hn : 2 ≤ n) :
    |Real.cos x - ∑ k ∈ Finset.range n, (-1) ^ k * x ^ (2 * k) / ((2 * k).factorial : ℝ)| ≤
      |x| ^ (2 * n) / (2 * n).factorial * 2 ∧
    |Real.sin x - ∑ k ∈ Finset.range n, (-1) ^ k * x ^ (2 * k + 1) / ((2 * k + 1).factorial : ℝ)| ≤
      |x| ^ (2 * n) / (2 * n).factorial * 2 := by
  have hnorm : ‖(x : ℂ) * Complex.I‖ = |x| := by simp
  have h := Complex.exp_bound' (x := (x : ℂ) * Complex.I) (n := 2 * n) (by
    rw [hnorm, div_le_iff₀ (by positivity)]
    have : (4 : ℝ) ≤ (2 * n : ℕ).succ := by exact_mod_cast (by omega)
    linarith)
  rw [hnorm, expSum_eq, Complex.exp_mul_I] at h
  set C := ∑ k ∈ Finset.range n, (-1) ^ k * x ^ (2 * k) / ((2 * k).factorial : ℝ)
  set S := ∑ k ∈ Finset.range n, (-1) ^ k * x ^ (2 * k + 1) / ((2 * k + 1).factorial : ℝ)
  have hd : Complex.cos x + Complex.sin x * Complex.I - ((C : ℂ) + (S : ℂ) * Complex.I) =
      ((Real.cos x - C : ℝ) : ℂ) + ((Real.sin x - S : ℝ) : ℂ) * Complex.I := by
    push_cast; ring
  rw [hd] at h
  constructor
  · refine le_trans ?_ h
    have := Complex.abs_re_le_norm (((Real.cos x - C : ℝ) : ℂ) + ((Real.sin x - S : ℝ) : ℂ) * Complex.I)
    simpa only [Complex.add_re, Complex.mul_re, Complex.ofReal_re, Complex.ofReal_im, Complex.I_re,
      Complex.I_im, mul_zero, zero_mul, sub_zero, add_zero] using this
  · refine le_trans ?_ h
    have := Complex.abs_im_le_norm (((Real.cos x - C : ℝ) : ℂ) + ((Real.sin x - S : ℝ) : ℂ) * Complex.I)
    simpa only [Complex.add_im, Complex.mul_im, Complex.ofReal_re, Complex.ofReal_im, Complex.I_re,
      Complex.I_im, mul_one, mul_zero, zero_add, add_zero] using this

/-- Past the first level the real factor stays in [0, 1]. -/
theorem taylorFactor_bounds {X : ℝ} (h0 : 0 ≤ X) (h3 : X ≤ 3) (j n : ℕ) :
    0 ≤ taylorFactor X (j + 2) n ∧ taylorFactor X (j + 2) n ≤ 1 := by
  induction n generalizing j with
  | zero => simp [taylorFactor]
  | succ n ih =>
    obtain ⟨a, b⟩ := ih (j + 2)
    have hd : (6 : ℝ) ≤ ((j + 2 : ℕ) : ℝ) * (((j + 2 : ℕ) : ℝ) + 1) := by
      push_cast; nlinarith [(Nat.cast_nonneg j : (0 : ℝ) ≤ j)]
    have hq : X * taylorFactor X (j + 2 + 2) n / (((j + 2 : ℕ) : ℝ) * (((j + 2 : ℕ) : ℝ) + 1)) ≤ 1 := by
      rw [div_le_one (by linarith)]; nlinarith
    have hq0 : 0 ≤ X * taylorFactor X (j + 2 + 2) n / (((j + 2 : ℕ) : ℝ) * (((j + 2 : ℕ) : ℝ) + 1)) := by
      positivity
    rw [taylorFactor]
    constructor <;> linarith

theorem ddsTaylor_le (x2 j n : ℕ) : ddsTaylor x2 j n ≤ ddsOne := by
  cases n with
  | zero => exact le_rfl
  | succ n => exact Nat.sub_le _ _

theorem ddsOne_pos : 0 < ddsOne := by unfold ddsOne; positivity

/-- One level of the fixed-point factor against one level of the real one. -/
theorem ddsLevel_near {x2 t : ℕ} {X T δ E : ℝ} {d : ℕ} (hd : 2 ≤ d) (h0 : 0 ≤ X) (hX : X ≤ 3)
    (hx : |(x2 : ℝ) / ddsOne - X| ≤ δ) (ht : t ≤ ddsOne) (hT : |(t : ℝ) / ddsOne - T| ≤ E) :
    |(1 - ((x2 * t / (ddsOne * d) : ℕ) : ℝ) / ddsOne) - (1 - X * T / d)| ≤
      (δ + 3 * E) / d + 1 / ddsOne := by
  have hN : (0 : ℝ) < ddsOne := by exact_mod_cast ddsOne_pos
  have hdr : (0 : ℝ) < d := by exact_mod_cast (by omega : 0 < d)
  have hq : |((x2 * t / (ddsOne * d) : ℕ) : ℝ) - (x2 * t : ℝ) / (ddsOne * d)| ≤ 1 := by
    have h1 := Nat.cast_div_le (α := ℝ) (m := x2 * t) (n := ddsOne * d)
    have h2 : x2 * t < (x2 * t / (ddsOne * d) + 1) * (ddsOne * d) := by
      rw [Nat.succ_mul]; exact Nat.lt_div_mul_add (Nat.mul_pos ddsOne_pos (by omega))
    have h2' : (x2 * t : ℝ) < (((x2 * t / (ddsOne * d) : ℕ) : ℝ) + 1) * (ddsOne * d) := by
      exact_mod_cast h2
    have h3 : (x2 * t : ℝ) / (ddsOne * d) < ((x2 * t / (ddsOne * d) : ℕ) : ℝ) + 1 := by
      rw [div_lt_iff₀ (by positivity)]; exact h2'
    push_cast at h1
    rw [abs_le]; constructor <;> linarith
  generalize x2 * t / (ddsOne * d) = q at hq ⊢
  have ht' : (t : ℝ) / ddsOne ≤ 1 := by
    rw [div_le_one hN]; exact_mod_cast ht
  have ht0 : 0 ≤ (t : ℝ) / ddsOne := by positivity
  have hp : |(x2 : ℝ) / ddsOne * (t / ddsOne) - X * T| ≤ δ + 3 * E := by
    have e : (x2 : ℝ) / ddsOne * (t / ddsOne) - X * T =
        (x2 / ddsOne - X) * (t / ddsOne) + X * (t / ddsOne - T) := by ring
    rw [e]
    refine (abs_add_le _ _).trans ?_
    rw [abs_mul, abs_mul, abs_of_nonneg ht0, abs_of_nonneg h0]
    have := abs_nonneg ((x2 : ℝ) / ddsOne - X)
    have := abs_nonneg ((t : ℝ) / ddsOne - T)
    nlinarith
  have e : (1 - (q : ℝ) / ddsOne) - (1 - X * T / d) =
      (X * T - x2 / ddsOne * (t / ddsOne)) / d + ((x2 * t : ℝ) / (ddsOne * d) - q) / ddsOne := by
    field_simp; ring
  rw [e]
  refine (abs_add_le _ _).trans ?_
  rw [abs_div, abs_div, abs_of_pos hdr, abs_of_pos hN, abs_sub_comm (X * T), abs_sub_comm _ (q : ℝ)]
  gcongr

/-- The fixed-point Taylor factor is near the real one, at every level past the first. -/
theorem ddsTaylor_near {x2 : ℕ} {X δ : ℝ} (h0 : 0 ≤ X) (hX : X ≤ 3) (hδ : 0 ≤ δ)
    (hx : |(x2 : ℝ) / ddsOne - X| ≤ δ) (hx2 : x2 ≤ 6 * ddsOne) (j n : ℕ) :
    |(ddsTaylor x2 (j + 2) n : ℝ) / ddsOne - taylorFactor X (j + 2) n| ≤ δ + 2 / ddsOne := by
  have hN : (0 : ℝ) < ddsOne := by exact_mod_cast ddsOne_pos
  induction n generalizing j with
  | zero => simp only [ddsTaylor, taylorFactor]; rw [div_self hN.ne']; simp; positivity
  | succ n ih =>
    have hd : 6 ≤ (j + 2) * (j + 2 + 1) := by nlinarith
    have hdr : (6 : ℝ) ≤ ((j + 2) * (j + 2 + 1) : ℕ) := by exact_mod_cast hd
    have hle := ddsTaylor_le x2 (j + 2 + 2) n
    have hl := ddsLevel_near (d := (j + 2) * (j + 2 + 1)) (by omega) h0 hX hx hle (ih (j + 2))
    have hq : x2 * ddsTaylor x2 (j + 2 + 2) n / (ddsOne * ((j + 2) * (j + 2 + 1))) ≤ ddsOne := by
      apply Nat.div_le_of_le_mul
      calc x2 * ddsTaylor x2 (j + 2 + 2) n ≤ 6 * ddsOne * ddsOne := Nat.mul_le_mul hx2 hle
        _ = ddsOne * 6 * ddsOne := by ring
        _ ≤ ddsOne * ((j + 2) * (j + 2 + 1)) * ddsOne := by gcongr
    rw [ddsTaylor, taylorFactor, Nat.cast_sub hq, sub_div, div_self hN.ne']
    push_cast at hl ⊢
    refine hl.trans ?_
    have hpos : (0 : ℝ) ≤ δ + 3 * (δ + 2 / ddsOne) := by positivity
    have : (δ + 3 * (δ + 2 / ddsOne)) / (((j : ℝ) + 2) * ((j : ℝ) + 2 + 1)) ≤
        (δ + 3 * (δ + 2 / ddsOne)) / 6 := by
      push_cast at hdr
      gcongr
    have e : (δ + 3 * (δ + 2 / ddsOne)) / 6 + 1 / ddsOne = 2 / 3 * δ + 2 / ddsOne := by
      field_simp; ring
    linarith

theorem one_div_ddsOne_le : (1 : ℝ) / ddsOne ≤ 1 / 2 ^ 100 := by
  have : (2 : ℝ) ^ 100 ≤ ddsOne := by
    exact_mod_cast Nat.pow_le_pow_right (show 0 < 2 by decide) (show 100 ≤ 384 by decide)
  gcongr

/-- What both fixed-point functions start from: the reduced angle, its square and the inner factor. -/
theorem ddsSquare_near (r : ℕ) :
    |((r * r / ddsOne : ℕ) : ℝ) / ddsOne - (r / ddsOne : ℝ) ^ 2| ≤ 1 / ddsOne := by
  have hN : (0 : ℝ) < ddsOne := by exact_mod_cast ddsOne_pos
  have h1 := Nat.cast_div_le (α := ℝ) (m := r * r) (n := ddsOne)
  have h2 : r * r < (r * r / ddsOne + 1) * ddsOne := by
    rw [Nat.succ_mul]; exact Nat.lt_div_mul_add ddsOne_pos
  have h2' : (r * r : ℝ) < (((r * r / ddsOne : ℕ) : ℝ) + 1) * ddsOne := by exact_mod_cast h2
  generalize r * r / ddsOne = q at *
  push_cast at h1
  have e : (q : ℝ) / ddsOne - (r / ddsOne : ℝ) ^ 2 = (q - r * r / ddsOne) / ddsOne := by
    field_simp
  have h3 : (r * r : ℝ) / ddsOne < q + 1 := by rw [div_lt_iff₀ hN]; exact h2'
  rw [e, abs_div, abs_of_pos hN]
  gcongr
  rw [abs_le]; constructor <;> linarith


/-- The truncation of the Taylor series at 82 terms, for angles up to 2. -/
theorem taylorTail_le {x : ℝ} (h0 : 0 ≤ x) (h2 : x ≤ 2) :
    |x| ^ (2 * 41) / (2 * 41).factorial * 2 ≤ x * (1 / 2 ^ 100) := by
  rw [abs_of_nonneg h0, show 2 * 41 = 81 + 1 by rfl, pow_succ]
  have h : x ^ 81 ≤ 2 ^ 81 := pow_le_pow_left₀ h0 h2 81
  have hf : (2 : ℝ) ^ 81 / (81 + 1).factorial * 2 ≤ 1 / 2 ^ 100 := by
    norm_num [Nat.factorial]
  calc x ^ 81 * x / (81 + 1).factorial * 2 = x * (x ^ 81 / (81 + 1).factorial * 2) := by ring
    _ ≤ x * (2 ^ 81 / (81 + 1).factorial * 2) := by gcongr
    _ ≤ x * (1 / 2 ^ 100) := by gcongr

theorem taylorFactor_cos (x : ℝ) (n : ℕ) : taylorFactor (x ^ 2) 1 n =
    ∑ k ∈ Finset.range (n + 1), (-1) ^ k * x ^ (2 * k) / ((2 * k).factorial : ℝ) := by
  rw [show (1 : ℕ) = 0 + 1 by rfl, taylorFactor_eq_sum]
  refine Finset.sum_congr rfl fun k _ => ?_
  rw [neg_pow, ← pow_mul]
  simp only [Nat.factorial_zero, zero_add]
  push_cast; ring

theorem taylorFactor_sin (x : ℝ) (n : ℕ) : x * taylorFactor (x ^ 2) 2 n =
    ∑ k ∈ Finset.range (n + 1), (-1) ^ k * x ^ (2 * k + 1) / ((2 * k + 1).factorial : ℝ) := by
  rw [show (2 : ℕ) = 1 + 1 by rfl, taylorFactor_eq_sum, Finset.mul_sum]
  refine Finset.sum_congr rfl fun k _ => ?_
  rw [neg_pow, ← pow_mul, show 1 + 2 * k = 2 * k + 1 by ring]
  simp only [Nat.factorial_one]
  push_cast; ring

/-- The angle of a fixed-point number. -/
noncomputable def fixValue (r : ℕ) : ℝ := r / ddsOne

theorem ddsSquare_le {r : ℕ} (h : fixValue r ≤ 17 / 10) : r * r / ddsOne ≤ 6 * ddsOne := by
  have hN : (0 : ℝ) < ddsOne := by exact_mod_cast ddsOne_pos
  rw [fixValue, div_le_iff₀ hN] at h
  have h2 : r ≤ 2 * ddsOne := by
    have : (r : ℝ) ≤ ((2 * ddsOne : ℕ) : ℝ) := by push_cast; linarith
    exact_mod_cast this
  apply Nat.div_le_of_le_mul
  calc r * r ≤ 2 * ddsOne * (2 * ddsOne) := Nat.mul_le_mul h2 h2
    _ = ddsOne * (4 * ddsOne) := by ring
    _ ≤ ddsOne * (6 * ddsOne) := by gcongr; decide

/-- The fixed-point cosine is the cosine, for an angle up to a hair past a quarter turn. -/
theorem ddsCosFix_near {r : ℕ} (h : fixValue r ≤ 1.57079632679489661924) :
    |fixValue (ddsCosFix r) - Real.cos (fixValue r)| ≤ 1 / 10 ^ 18 := by
  have hN : (0 : ℝ) < ddsOne := by exact_mod_cast ddsOne_pos
  have h0 : 0 ≤ fixValue r := by unfold fixValue; positivity
  have hle : fixValue r ≤ 17 / 10 := h.trans (by norm_num)
  have hcos : -(1 / 10 ^ 19 : ℝ) ≤ Real.cos (fixValue r) := by
    have h1 : -Real.cos (fixValue r) = Real.sin (fixValue r - Real.pi / 2) := by
      rw [Real.sin_sub_pi_div_two]
    have hp := Real.pi_gt_d20
    by_cases hs : fixValue r ≤ Real.pi / 2
    · have := Real.cos_nonneg_of_neg_pi_div_two_le_of_le (by linarith [Real.pi_pos]) hs
      have : (0 : ℝ) ≤ 1 / 10 ^ 19 := by positivity
      linarith
    · have := Real.sin_le (x := fixValue r - Real.pi / 2) (by linarith)
      norm_num at *; linarith
  have hX : (fixValue r) ^ 2 ≤ 3 := by nlinarith
  have hn := one_div_ddsOne_le
  have hinner := ddsTaylor_near (sq_nonneg (fixValue r)) hX (by positivity) (ddsSquare_near r)
    (ddsSquare_le hle) 1 39
  have hlev := ddsLevel_near (d := 2) le_rfl (sq_nonneg (fixValue r)) hX (ddsSquare_near r)
    (ddsTaylor_le _ 3 39) hinner
  have htop : taylorFactor (fixValue r ^ 2) 1 40 =
      1 - fixValue r ^ 2 * taylorFactor (fixValue r ^ 2) 3 39 / (2 : ℕ) := by
    rw [taylorFactor]; norm_num
  rw [← htop, taylorFactor_cos] at hlev
  have htail := (cosSum_near (x := fixValue r) (by rw [abs_of_nonneg h0]; linarith) 41 (by norm_num)).1
  have htail2 := taylorTail_le h0 (by linarith)
  have hval : fixValue (ddsCosFix r) = max 0 (1 - ((r * r / ddsOne * ddsTaylor (r * r / ddsOne) 3 39 /
      (ddsOne * 2) : ℕ) : ℝ) / ddsOne) := by
    have hT : ddsCosFix r =
        ddsOne - r * r / ddsOne * ddsTaylor (r * r / ddsOne) 3 39 / (ddsOne * 2) := by
      have hl := ddsTaylor_le (r * r / ddsOne) 1 40
      unfold ddsCosFix
      rw [Nat.min_eq_left hl]; rfl
    rw [hT]
    generalize r * r / ddsOne * ddsTaylor (r * r / ddsOne) 3 39 / (ddsOne * 2) = q
    unfold fixValue
    rcases Nat.le_total q ddsOne with hq | hq
    · rw [Nat.cast_sub hq, sub_div, div_self hN.ne', max_eq_right]
      have : (q : ℝ) / ddsOne ≤ 1 := by rw [div_le_one hN]; exact_mod_cast hq
      linarith
    · rw [Nat.sub_eq_zero_of_le hq, max_eq_left]
      · simp
      · have : 1 ≤ (q : ℝ) / ddsOne := by rw [le_div_iff₀ hN, one_mul]; exact_mod_cast hq
        linarith
  rw [hval]
  set a := 1 - ((r * r / ddsOne * ddsTaylor (r * r / ddsOne) 3 39 / (ddsOne * 2) : ℕ) : ℝ) / ddsOne
  have ha : |a - Real.cos (fixValue r)| ≤ 1 / 10 ^ 20 := by
    set C := ∑ k ∈ Finset.range 41, (-1) ^ k * fixValue r ^ (2 * k) / ((2 * k).factorial : ℝ)
    have e : a - Real.cos (fixValue r) = (a - C) - (Real.cos (fixValue r) - C) := by ring
    rw [e]
    refine (abs_sub _ _).trans ?_
    have h3 : (1 / (ddsOne : ℝ) + 3 * (1 / ddsOne + 2 / ddsOne)) / (2 : ℕ) + 1 / ddsOne =
        6 * (1 / ddsOne) := by
      push_cast; ring
    rw [h3] at hlev
    have : (6 : ℝ) * (1 / 2 ^ 100) + 2 * (1 / 2 ^ 100) ≤ 1 / 10 ^ 20 := by norm_num
    have : fixValue r * (1 / 2 ^ 100) ≤ 2 * (1 / 2 ^ 100) := by gcongr; linarith
    linarith
  rw [abs_le] at ha ⊢
  have hsm : (1 : ℝ) / 10 ^ 19 + 1 / 10 ^ 20 ≤ 1 / 10 ^ 18 := by norm_num
  rcases max_cases 0 a with ⟨hm, hl⟩ | ⟨hm, hl⟩ <;> rw [hm] <;> constructor <;> linarith

/-- The fixed-point sine is the sine, with an error that shrinks with the angle. -/
theorem ddsSinFix_near {r : ℕ} (h : fixValue r ≤ 1.57079632679489661924) :
    |fixValue (ddsSinFix r) - Real.sin (fixValue r)| ≤
      7 * (1 / ddsOne) + fixValue r * (1 / 2 ^ 100) := by
  have hN : (0 : ℝ) < ddsOne := by exact_mod_cast ddsOne_pos
  have h0 : 0 ≤ fixValue r := by unfold fixValue; positivity
  have hle : fixValue r ≤ 17 / 10 := h.trans (by norm_num)
  have hX : (fixValue r) ^ 2 ≤ 3 := by nlinarith
  have hinner := ddsTaylor_near (sq_nonneg (fixValue r)) hX (by positivity) (ddsSquare_near r)
    (ddsSquare_le hle) 0 40
  have htail := (cosSum_near (x := fixValue r) (by rw [abs_of_nonneg h0]; linarith) 41 (by norm_num)).2
  have htail2 := taylorTail_le h0 (by linarith)
  rw [← taylorFactor_sin] at htail
  set t := ddsTaylor (r * r / ddsOne) (0 + 2) 40 with ht
  have hfl : |((r * t / ddsOne : ℕ) : ℝ) / ddsOne - fixValue r * (t / ddsOne)| ≤ 1 / ddsOne := by
    have h1 := Nat.cast_div_le (α := ℝ) (m := r * t) (n := ddsOne)
    have h2 : r * t < (r * t / ddsOne + 1) * ddsOne := by
      rw [Nat.succ_mul]; exact Nat.lt_div_mul_add ddsOne_pos
    have h2' : (r * t : ℝ) < (((r * t / ddsOne : ℕ) : ℝ) + 1) * ddsOne := by exact_mod_cast h2
    generalize r * t / ddsOne = q at *
    push_cast at h1
    have e : (q : ℝ) / ddsOne - fixValue r * (t / ddsOne) = (q - r * t / ddsOne) / ddsOne := by
      unfold fixValue; field_simp
    have h3 : (r * t : ℝ) / ddsOne < q + 1 := by rw [div_lt_iff₀ hN]; exact h2'
    rw [e, abs_div, abs_of_pos hN]
    gcongr
    rw [abs_le]; constructor <;> linarith
  have hval : fixValue (ddsSinFix r) = min (((r * t / ddsOne : ℕ) : ℝ) / ddsOne) 1 := by
    have : ddsSinFix r = min (r * t / ddsOne) ddsOne := rfl
    rw [this]; unfold fixValue
    rcases Nat.le_total (r * t / ddsOne) ddsOne with hq | hq
    · rw [Nat.min_eq_left hq, min_eq_left]; rw [div_le_one hN]; exact_mod_cast hq
    · rw [Nat.min_eq_right hq, min_eq_right, div_self hN.ne']
      rw [le_div_iff₀ hN, one_mul]; exact_mod_cast hq
  rw [hval]
  set a := ((r * t / ddsOne : ℕ) : ℝ) / ddsOne
  have ha : |a - Real.sin (fixValue r)| ≤ 7 * (1 / ddsOne) + fixValue r * (1 / 2 ^ 100) := by
    have e : a - Real.sin (fixValue r) = (a - fixValue r * (t / ddsOne)) +
        (fixValue r * (t / ddsOne - taylorFactor (fixValue r ^ 2) 2 40)) -
        (Real.sin (fixValue r) - fixValue r * taylorFactor (fixValue r ^ 2) 2 40) := by ring
    rw [e]
    refine (abs_sub _ _).trans ?_
    refine (add_le_add_left (abs_add_le _ _) _).trans ?_
    rw [abs_mul, abs_of_nonneg h0]
    have hin : fixValue r * |(t : ℝ) / ddsOne - taylorFactor (fixValue r ^ 2) 2 40| ≤
        2 * (3 * (1 / ddsOne)) := by
      have : |(t : ℝ) / ddsOne - taylorFactor (fixValue r ^ 2) 2 40| ≤ 3 * (1 / ddsOne) := by
        refine hinner.trans (le_of_eq ?_); ring
      gcongr; linarith
    linarith
  have hs := Real.sin_le_one (fixValue r)
  rw [abs_le] at ha ⊢
  have hpos : 0 ≤ 7 * (1 / (ddsOne : ℝ)) + fixValue r * (1 / 2 ^ 100) := by positivity
  rcases min_cases a 1 with ⟨hm, hl⟩ | ⟨hm, hl⟩ <;> rw [hm] <;> constructor <;> linarith

/-! ### The rounding -/

/-- A quotient rounded to nearest is off by at most a half. -/
theorem rne_half (n d : ℕ) (hd : 0 < d) : 2 * |(n : ℤ) - d * rne n d| ≤ d := by
  have hn : (n : ℤ) = d * (n / d : ℕ) + (n % d : ℕ) := by exact_mod_cast (Nat.div_add_mod n d).symm
  have hr : n % d < d := Nat.mod_lt _ hd
  unfold rne
  generalize n / d = q at *
  generalize n % d = r at *
  rw [hn]
  split
  · rw [show (d : ℤ) * q + r - d * q = r by ring, abs_of_nonneg (by omega)]; omega
  split
  · push_cast
    rw [show (d : ℤ) * q + r - d * (q + 1) = r - d by ring, abs_of_nonpos (by omega)]; omega
  · have : 2 * r = d := by omega
    rcases Nat.mod_two_eq_zero_or_one q with h | h <;> rw [h] <;> push_cast
    · rw [show (d : ℤ) * q + r - d * (q + 0) = r by ring, abs_of_nonneg (by omega)]; omega
    · rw [show (d : ℤ) * q + r - d * (q + 1) = r - d by ring, abs_of_nonpos (by omega)]; omega

theorem rne_le {n d K : ℕ} (hd : 0 < d) (h : n ≤ d * K) : rne n d ≤ K := by
  have h2 := rne_half n d hd
  by_contra hk
  have h3 : d * (K + 1) ≤ d * rne n d := Nat.mul_le_mul_left _ (by omega)
  have h4 : (d : ℤ) * (K + 1) ≤ d * rne n d := by exact_mod_cast h3
  have h5 : (n : ℤ) ≤ d * K := by exact_mod_cast h
  have hd' : (0 : ℤ) < d := by exact_mod_cast hd
  rw [abs_of_nonpos (by linarith)] at h2
  linarith

theorem rne_half_real (n d : ℕ) (hd : 0 < d) : |(rne n d : ℝ) - n / d| ≤ 1 / 2 := by
  have hd' : (0 : ℝ) < d := by exact_mod_cast hd
  have h : (2 : ℝ) * |(n : ℝ) - d * rne n d| ≤ d := by exact_mod_cast rne_half n d hd
  rw [show (rne n d : ℝ) - n / d = -((n - d * rne n d) / d) by field_simp; ring, abs_neg, abs_div,
    abs_of_pos hd', div_le_iff₀ hd']
  linarith

theorem ddsOne_cast : (ddsOne : ℝ) = 2 ^ 235 * 2 ^ 149 := by
  unfold ddsOne; rw [Nat.cast_pow, Nat.cast_ofNat, ← pow_add]

theorem fixValue_units (v : ℕ) : fixValue v = (v : ℝ) / 2 ^ 235 * unit32 := by
  unfold fixValue unit32
  rw [ddsOne_cast, zpow_neg, ← div_div, div_eq_mul_inv _ ((2 : ℝ) ^ 149)]
  norm_cast

/-- A rounded fixed-point number is no further from the exact one than any magnitude of 24 bits is. -/
theorem ddsRound_near (neg : Bool) {v k s : ℕ} (hv : v ≤ ddsOne) (hk : k ≤ 2 ^ 24) (hs : s ≤ 252) :
    |value (ddsRound neg v) - signFactor neg * fixValue v| ≤
      |(k * 2 ^ s : ℝ) - v / 2 ^ 235| * unit32 := by
  have hN : (0 : ℝ) < ddsOne := by exact_mod_cast ddsOne_pos
  have hfix := fixValue_units v
  have hx : signFactor neg * fixValue v =
      signFactor neg * ((v : ℝ) / ((2 ^ 235 : ℕ) : ℝ) * unit32) := by
    rw [hfix, Nat.cast_pow, Nat.cast_ofNat]
  have hn := nearest_pack neg v (2 ^ 235) _ (Nat.pow_pos (by decide)) hx
  have h1 : fixValue v ≤ 1 := by
    unfold fixValue; rw [div_le_one hN]; exact_mod_cast hv
  have h0 : 0 ≤ fixValue v := by unfold fixValue; positivity
  have hlt : |signFactor neg * fixValue v| < overflowBound := by
    rw [abs_mul, abs_signFactor, one_mul, abs_of_nonneg h0]
    have : (1 : ℝ) < overflowBound := by unfold overflowBound; norm_num
    linarith
  obtain ⟨m, hm⟩ := exists_magBits k s hk
  have hmi : m < infBits := by
    apply magBits_strictMono.lt_iff_lt.mp
    rw [hm]
    calc k * 2 ^ s ≤ 2 ^ 24 * 2 ^ 252 := Nat.mul_le_mul hk (Nat.pow_le_pow_right (by decide) hs)
      _ < magBits infBits := by decide +kernel
  have hm31 : m < 2 ^ 31 := lt_trans hmi (by decide)
  have hc := ((hn.2.1 hlt).2 (pack neg m) ((isFinite_pack hm31).mpr hmi)).1
  refine hc.trans (le_of_eq ?_)
  rw [value_pack hm31, hm, hfix, ← mul_sub, abs_mul, abs_signFactor, one_mul, ← sub_mul, abs_mul,
    abs_of_pos unit32_pos, Nat.cast_mul, Nat.cast_pow, Nat.cast_ofNat]

/-- The nearest multiple of `2^s` units. -/
theorem grid_near (v s : ℕ) :
    |((rne v (2 ^ 235 * 2 ^ s) : ℕ) * 2 ^ s : ℝ) - v / 2 ^ 235| ≤ 2 ^ s / 2 := by
  have h := rne_half_real v (2 ^ 235 * 2 ^ s)
    (Nat.mul_pos (Nat.pow_pos (by decide)) (Nat.pow_pos (by decide)))
  generalize rne v (2 ^ 235 * 2 ^ s) = k at *
  rw [Nat.cast_mul, Nat.cast_pow, Nat.cast_pow, Nat.cast_ofNat] at h
  have hs : (0 : ℝ) < 2 ^ s := by positivity
  have e : (k * 2 ^ s : ℝ) - v / 2 ^ 235 = (k - v / (2 ^ 235 * 2 ^ s)) * 2 ^ s := by
    generalize (2 : ℝ) ^ 235 = B
    rw [sub_mul, ← div_div, div_mul_cancel₀ _ hs.ne']
  rw [e, abs_mul, abs_of_pos hs]
  nlinarith

/-- The rounding of a fixed-point number in [0, 1] is within 2^-25. -/
theorem ddsRound_abs (neg : Bool) {v : ℕ} (hv : v ≤ ddsOne) :
    |value (ddsRound neg v) - signFactor neg * fixValue v| ≤ 2 ^ (-25 : ℤ) := by
  have hk : rne v (2 ^ 235 * 2 ^ 125) ≤ 2 ^ 24 := by
    refine rne_le (Nat.mul_pos (Nat.pow_pos (by decide)) (Nat.pow_pos (by decide)))
      (hv.trans (le_of_eq ?_))
    unfold ddsOne; rw [← pow_add, ← pow_add]
  refine (ddsRound_near neg hv hk (s := 125) (by decide)).trans ?_
  have := mul_le_mul_of_nonneg_right (grid_near v 125) unit32_pos.le
  refine this.trans (le_of_eq ?_)
  unfold unit32
  rw [← zpow_natCast, div_eq_mul_inv, ← zpow_neg_one, ← zpow_add₀ (by norm_num),
    ← zpow_add₀ (by norm_num)]
  norm_num

/-- And within half a last place of its own size. -/
theorem ddsRound_rel (neg : Bool) {v : ℕ} (hv : v ≤ ddsOne) :
    |value (ddsRound neg v) - signFactor neg * fixValue v| ≤
      2 ^ (-24 : ℤ) * fixValue v + 2 ^ (-150 : ℤ) := by
  obtain ⟨s, -, hs, hlt⟩ := rawMag_shape v (2 ^ 235) (Nat.pow_pos (by decide))
  have hk : rne v (2 ^ 235 * 2 ^ s) ≤ 2 ^ 24 :=
    rne_le (Nat.mul_pos (Nat.pow_pos (by decide)) (Nat.pow_pos (by decide))) hlt.le
  have hs252 : s ≤ 252 := by
    rcases hs with h | h
    · omega
    · by_contra hh
      have h1 : 2 ^ 235 * 2 ^ 253 * 2 ^ 23 ≤ 2 ^ 235 * 2 ^ s * 2 ^ 23 :=
        Nat.mul_le_mul_right _ (Nat.mul_le_mul_left _ (Nat.pow_le_pow_right (by decide) (by omega)))
      have h2 : ddsOne < 2 ^ 235 * 2 ^ 253 * 2 ^ 23 := by
        unfold ddsOne; rw [← pow_add, ← pow_add]; exact Nat.pow_lt_pow_right (by decide) (by decide)
      exact absurd (h1.trans (h.trans hv)) (not_le.mpr h2)
  refine (ddsRound_near neg hv hk hs252).trans ?_
  refine (mul_le_mul_of_nonneg_right (grid_near v s) unit32_pos.le).trans ?_
  have hu : unit32 = 2 * 2 ^ (-150 : ℤ) := by
    unfold unit32; rw [show (-149 : ℤ) = 1 + -150 by norm_num, zpow_add₀ (by norm_num)]; norm_num
  have hf0 : 0 ≤ fixValue v := by unfold fixValue; positivity
  rcases hs with h | h
  · rw [h, hu]
    have : 0 ≤ 2 ^ (-24 : ℤ) * fixValue v := by positivity
    linarith
  · have h' : (2 : ℝ) ^ 235 * 2 ^ s * 2 ^ 23 ≤ v := by
      have : ((2 ^ 235 * 2 ^ s * 2 ^ 23 : ℕ) : ℝ) ≤ v := by exact_mod_cast h
      simpa only [Nat.cast_mul, Nat.cast_pow, Nat.cast_ofNat] using this
    have h2 : (2 : ℝ) ^ s * 2 ^ 23 * unit32 ≤ fixValue v := by
      rw [fixValue_units]
      refine mul_le_mul_of_nonneg_right ?_ unit32_pos.le
      rw [le_div_iff₀ (by positivity)]; linarith
    have h3 : (2 : ℝ) ^ (-24 : ℤ) * (2 ^ s * 2 ^ 23 * unit32) ≤ 2 ^ (-24 : ℤ) * fixValue v := by gcongr
    have h4 : (2 : ℝ) ^ (-24 : ℤ) * (2 ^ s * 2 ^ 23 * unit32) = 2 ^ s / 2 * unit32 := by norm_num; ring
    have : (0 : ℝ) ≤ 2 ^ (-150 : ℤ) := by positivity
    linarith

/-! ### The reduction by quarter turns -/

/-- pi/2 in fixed point is pi/2, to twenty digits. -/
theorem ddsHalfPi_near : |fixValue ddsHalfPi - Real.pi / 2| ≤ 1 / 10 ^ 20 := by
  have h1 := Real.pi_gt_d20
  have h2 := Real.pi_lt_d20
  have h3 : (157079632679489661923 : ℝ) / 10 ^ 20 ≤ fixValue ddsHalfPi ∧
      fixValue ddsHalfPi ≤ 157079632679489661924 / 10 ^ 20 := by
    have hN : (0 : ℝ) < ddsOne := by exact_mod_cast ddsOne_pos
    unfold fixValue
    rw [div_le_div_iff₀ (by positivity) hN, div_le_div_iff₀ hN (by positivity)]
    constructor
    · exact_mod_cast (by decide +kernel : 157079632679489661923 * ddsOne ≤ ddsHalfPi * 10 ^ 20)
    · exact_mod_cast (by decide +kernel : ddsHalfPi * 10 ^ 20 ≤ 157079632679489661924 * ddsOne)
  rw [abs_le]
  norm_num at h1 h2 h3 ⊢
  constructor <;> linarith

/-- The magnitude of a finite angle in fixed point. -/
theorem fixValue_ddsAngle (w : Word) : fixValue (ddsAngle w) = |value w| := by
  have e : |value w| = (mag w : ℝ) * unit32 := by
    unfold value val
    rw [abs_mul, abs_of_pos (a := (2 : ℝ) ^ (-149 : ℤ)) (by positivity)]
    cases signBit w <;> simp [unit32]
  rw [e, fixValue_units, ddsAngle, Nat.cast_mul, Nat.cast_pow, Nat.cast_ofNat,
    mul_div_cancel_right₀ _ (by positivity)]

/-- The angle is its quarter turns and the rest. -/
theorem ddsReduced_spec (w : Word) :
    |value w| = (ddsAngle w / ddsHalfPi : ℕ) * fixValue ddsHalfPi + fixValue (ddsReduced w) ∧
    0 ≤ fixValue (ddsReduced w) ∧ fixValue (ddsReduced w) ≤ 1.57079632679489661924 := by
  have hN : (0 : ℝ) < ddsOne := by exact_mod_cast ddsOne_pos
  have hH : 0 < ddsHalfPi := by decide +kernel
  have hr : ddsReduced w ≤ ddsHalfPi := (Nat.mod_lt _ hH).le
  refine ⟨?_, by unfold fixValue; positivity, ?_⟩
  · rw [← fixValue_ddsAngle]
    have h : (ddsAngle w : ℝ) = ddsHalfPi * (ddsAngle w / ddsHalfPi : ℕ) + (ddsReduced w : ℕ) := by
      exact_mod_cast (Nat.div_add_mod (ddsAngle w) ddsHalfPi).symm
    generalize ddsAngle w / ddsHalfPi = q at *
    unfold fixValue
    rw [h]; ring
  · have h1 : fixValue (ddsReduced w) ≤ fixValue ddsHalfPi := by
      unfold fixValue; gcongr
    have h2 := abs_le.mp ddsHalfPi_near
    have h3 : fixValue ddsHalfPi ≤ 157079632679489661924 / 10 ^ 20 := by
      unfold fixValue
      rw [div_le_div_iff₀ hN (by positivity)]
      exact_mod_cast (by decide +kernel : ddsHalfPi * 10 ^ 20 ≤ 157079632679489661924 * ddsOne)
    norm_num at h3 ⊢; linarith

/-- The quarter turns of the angle, as turns and a quarter. -/
theorem quarter_turns (q : ℕ) (x : ℝ) :
    Real.cos (q * (Real.pi / 2) + x) = Real.cos ((q % 4 : ℕ) * (Real.pi / 2) + x) ∧
    Real.sin (q * (Real.pi / 2) + x) = Real.sin ((q % 4 : ℕ) * (Real.pi / 2) + x) := by
  have e : (q : ℝ) * (Real.pi / 2) + x =
      ((q % 4 : ℕ) * (Real.pi / 2) + x) + (q / 4 : ℕ) * (2 * Real.pi) := by
    have : (q : ℝ) = 4 * (q / 4 : ℕ) + (q % 4 : ℕ) := by exact_mod_cast (Nat.div_add_mod q 4).symm
    rw [this]
    have h4 : ((4 * (q / 4) + q % 4 : ℕ)) = q := Nat.div_add_mod q 4
    ring_nf
  rw [e, Real.cos_add_nat_mul_two_pi, Real.sin_add_nat_mul_two_pi]
  exact ⟨rfl, rfl⟩

/-- Cosine and sine one, two and three quarter turns on. -/
theorem quarter_cases (x : ℝ) :
    (Real.cos ((1 : ℕ) * (Real.pi / 2) + x) = -Real.sin x ∧
      Real.sin ((1 : ℕ) * (Real.pi / 2) + x) = Real.cos x) ∧
    (Real.cos ((2 : ℕ) * (Real.pi / 2) + x) = -Real.cos x ∧
      Real.sin ((2 : ℕ) * (Real.pi / 2) + x) = -Real.sin x) ∧
    (Real.cos ((3 : ℕ) * (Real.pi / 2) + x) = Real.sin x ∧
      Real.sin ((3 : ℕ) * (Real.pi / 2) + x) = -Real.cos x) := by
  have e1 : ((1 : ℕ) : ℝ) * (Real.pi / 2) + x = x + Real.pi / 2 := by push_cast; ring
  have e2 : ((2 : ℕ) : ℝ) * (Real.pi / 2) + x = x + Real.pi := by push_cast; ring
  have e3 : ((3 : ℕ) : ℝ) * (Real.pi / 2) + x = x + Real.pi / 2 + Real.pi := by push_cast; ring
  rw [e1, e2, e3, Real.cos_add_pi, Real.cos_add_pi, Real.sin_add_pi, Real.sin_add_pi,
    Real.cos_add_pi_div_two, Real.sin_add_pi_div_two, neg_neg]
  exact ⟨⟨rfl, rfl⟩, ⟨rfl, rfl⟩, ⟨rfl, rfl⟩⟩

/-- Rounding and fixed-point error together. -/
theorem ddsRound_total (neg : Bool) {v : ℕ} {c ε : ℝ} (hv : v ≤ ddsOne) (h : |fixValue v - c| ≤ ε) :
    |value (ddsRound neg v) - signFactor neg * c| ≤ 2 ^ (-25 : ℤ) + ε := by
  have h1 := ddsRound_abs neg hv
  have e : value (ddsRound neg v) - signFactor neg * c =
      (value (ddsRound neg v) - signFactor neg * fixValue v) + signFactor neg * (fixValue v - c) := by
    ring
  rw [e]
  refine (abs_add_le _ _).trans ?_
  rw [abs_mul (signFactor neg), abs_signFactor, one_mul]
  linarith

/-- The fixed-point sine is the sine, with one bound for every reduced angle. -/
theorem ddsSinFix_near_abs {r : ℕ} (h : fixValue r ≤ 1.57079632679489661924) :
    |fixValue (ddsSinFix r) - Real.sin (fixValue r)| ≤ 1 / 10 ^ 18 := by
  refine (ddsSinFix_near h).trans ?_
  have := one_div_ddsOne_le
  have : fixValue r * (1 / 2 ^ 100) ≤ 2 * (1 / 2 ^ 100) := by gcongr; norm_num at h; linarith
  have : (9 : ℝ) * (1 / 2 ^ 100) ≤ 1 / 10 ^ 18 := by norm_num
  linarith

end Sys2Proof.Machine
end

