-- ==== Sys2Proof/Laws/PerInstr.lean ====
section
/-! SUPPORT. One family of laws per command: the encoded word of a command matches the row of the opcode
map that bears its mnemonic, and no other row (30_encoding.md R95). -/

namespace Sys2Proof.Laws

set_option Elab.async false

/-- The rows of the opcode map that match the command's word are exactly its own row. -/
def EncodesItsRow.Statement (i : Instr) : Prop :=
  (opcodeMap.filter (matchesRow (encode i))).map (·.mnemonic) = [mnemonicOf i]

theorem EncodesItsRow.nop : EncodesItsRow.Statement .nop := by
  unfold EncodesItsRow.Statement; decide +kernel

theorem EncodesItsRow.modCreate (sb : BitVec 2) (sc : Bool) :
    EncodesItsRow.Statement (.modCreate sb sc) := by
  unfold EncodesItsRow.Statement; revert sb sc; decide +kernel

theorem EncodesItsRow.modStep : EncodesItsRow.Statement .modStep := by
  unfold EncodesItsRow.Statement; decide +kernel

theorem EncodesItsRow.modDestroy : EncodesItsRow.Statement .modDestroy := by
  unfold EncodesItsRow.Statement; decide +kernel

theorem EncodesItsRow.demCreate (sb : BitVec 2) (sc : Bool) :
    EncodesItsRow.Statement (.demCreate sb sc) := by
  unfold EncodesItsRow.Statement; revert sb sc; decide +kernel

theorem EncodesItsRow.demStep : EncodesItsRow.Statement .demStep := by
  unfold EncodesItsRow.Statement; decide +kernel

theorem EncodesItsRow.demDestroy : EncodesItsRow.Statement .demDestroy := by
  unfold EncodesItsRow.Statement; decide +kernel

end Sys2Proof.Laws
end

