-- ==== Sys2Proof/Machine/Assembler.lean ====
section
/-! DEFINITION. The host assembler: the text of the line syntax of 30_encoding.md R98, its literals (R99),
and the unrolling of REPEAT (R100). Where the grammar leaves the text's form open (blanks, how an
offset or a decimal is written) see log entry 15. -/

namespace Sys2Proof.Machine

/-- A piece of program text. -/
abbrev Text := List Char

/-! ### Numbers -/

/-- The value of a decimal digit. -/
def digitVal (c : Char) : Option Nat :=
  if '0' ≤ c ∧ c ≤ '9' then some (c.toNat - '0'.toNat) else none

/-- The value of a hexadecimal digit. -/
def hexVal (c : Char) : Option Nat :=
  if 'A' ≤ c ∧ c ≤ 'F' then some (c.toNat - 'A'.toNat + 10)
  else if 'a' ≤ c ∧ c ≤ 'f' then some (c.toNat - 'a'.toNat + 10)
  else digitVal c

/-- The number that digits write after the digits that gave `acc`. -/
def numberFrom (digit : Char → Option Nat) (base : Nat) : Nat → Text → Option Nat
  | acc, [] => some acc
  | acc, c :: cs =>
    match digit c with
    | some d => numberFrom digit base (acc * base + d) cs
    | none => none

/-- A decimal number of one digit or more. -/
def natOf (t : Text) : Option Nat := if t.isEmpty then none else numberFrom digitVal 10 0 t

/-- A hexadecimal number of one digit or more. -/
def hexOf (t : Text) : Option Nat := if t.isEmpty then none else numberFrom hexVal 16 0 t

/-! ### Operands (30_encoding.md R98) -/

/-- The register names of 10_state.md R33. -/
def regNames : List (String × Reg) :=
  [("ID", .id), ("PARAM", .param), ("CMD", .cmd), ("STATUS", .status), ("ERRFLAGS", .errflags),
   ("MIDX", .midx), ("CFO", .cfo), ("MOD_X", .modX), ("MOD_YRE", .modYre), ("MOD_YIM", .modYim),
   ("MOD_NIDX", .modNidx), ("MOD_M", .modM), ("MOD_CFO", .modCfo), ("MOD_CFG", .modCfg),
   ("DEM_YRE", .demYre), ("DEM_YIM", .demYim), ("DEM_Z", .demZ), ("DEM_NIDX", .demNidx),
   ("DEM_M", .demM), ("DEM_CFO", .demCfo), ("DEM_CFG", .demCfg), ("DEM_THETA", .demTheta),
   ("DEM_OMEGA", .demOmega), ("DEM_PERR", .demPerr), ("PLL_KP", .pllKp), ("PLL_KI", .pllKi),
   ("PLL_WMAX", .pllWmax)]

/-- `HCOEF[k]`, k = 0..31. -/
def hcoefOf (t : Text) : Option RegRef :=
  if t.take 6 = "HCOEF[".toList ∧ t.getLast? = some ']' then
    match natOf (t.drop 6).dropLast with
    | some k => if k < 32 then some (.named (.hcoef k)) else none
    | none => none
  else none

/-- `reg`: a register name, `HCOEF[k]`, or `@` and an offset, hexadecimal after `0x`. -/
def regOf : Text → Option RegRef
  | '@' :: '0' :: 'x' :: ds => (hexOf ds).map .offset
  | '@' :: ds => (natOf ds).map .offset
  | t =>
    match regNames.find? (fun p => p.1 == String.ofList t) with
    | some p => some (.named p.2)
    | none => hcoefOf t

/-- A decimal without its sign: digits, or digits, a point and digits. -/
def decimalOf (neg : Bool) (t : Text) : Option Literal :=
  let whole := t.takeWhile (· != '.')
  match t.dropWhile (· != '.') with
  | [] => (natOf whole).map (.decimal neg · 0)
  | _ :: frac =>
    if whole.isEmpty || frac.isEmpty then none
    else (natOf (whole ++ frac)).map (.decimal neg · frac.length)

/-- What follows `f:`. -/
def floatOf (t : Text) : Option Literal :=
  if t = "nan".toList then some .nan
  else if t = "+inf".toList then some .posInf
  else if t = "-inf".toList then some .negInf
  else if t = "-0".toList then some .negZero
  else
    match t with
    | '-' :: ds => decimalOf true ds
    | '+' :: ds => decimalOf false ds
    | ds => decimalOf false ds

/-- `hvar`: "t" and digits. -/
def hvarOf : Text → Option Nat
  | 't' :: ds => natOf ds
  | _ => none

/-- `value`; `x` and a number is an entry of the host's input list (R100). -/
def valueText (inputs : List Literal) : Text → Option Literal
  | '0' :: 'x' :: ds => if ds.length = 8 then (hexOf ds).map fun n => .hex (BitVec.ofNat 32 n) else none
  | 'f' :: ':' :: t => floatOf t
  | 'x' :: ds => (natOf ds).bind fun n => inputs[n]?
  | t => (hvarOf t).map .hvar

/-- `sb`. -/
def sbOf (t : Text) : Option (BitVec 2) :=
  if t = "DSB".toList then some 0
  else if t = "USB".toList then some 1
  else if t = "LSB".toList then some 2
  else if t = "SB3".toList then some 3
  else none

/-- `sb ["," "SC"]`. -/
def sbScOf : List Text → Option (BitVec 2 × Bool)
  | [sb] => (sbOf sb).map (·, false)
  | [sb, [','], ['S', 'C']] => (sbOf sb).map (·, true)
  | _ => none

/-! ### Statements and lines (R98, R100) -/

/-- A finished word before the words that follow it. -/
def flush (word : Text) (rest : List Text) : List Text := if word.isEmpty then rest else word :: rest

/-- The words of a line: blanks end a word, a comma and an arrow are words of their own. -/
def wordsFrom : Text → Text → List Text
  | word, [] => flush word []
  | word, '-' :: '>' :: cs => flush word (['-', '>'] :: wordsFrom [] cs)
  | word, ',' :: cs => flush word ([','] :: wordsFrom [] cs)
  | word, ' ' :: cs => flush word (wordsFrom [] cs)
  | word, '\t' :: cs => flush word (wordsFrom [] cs)
  | word, c :: cs => wordsFrom (word ++ [c]) cs

/-- `stmt`: the host's accesses, the seven commands and the pseudo-instructions. -/
def stmtOf (inputs : List Literal) : List Text → Option Stmt
  | [] => none
  | op :: args =>
    match String.ofList op, args with
    | "WR", [r, [','], v] => do return .wr (← regOf r) (← valueText inputs v)
    | "RD", [r] => do return .rd (← regOf r) none
    | "RD", [r, ['-', '>'], t] => do return .rd (← regOf r) (some (← hvarOf t))
    | "NOP", [] => some (.command .nop)
    | "MOD.STEP", [] => some (.command .modStep)
    | "MOD.DESTROY", [] => some (.command .modDestroy)
    | "DEM.STEP", [] => some (.command .demStep)
    | "DEM.DESTROY", [] => some (.command .demDestroy)
    | "MOD.CREATE", sbs => (sbScOf sbs).map fun p => .command (.modCreate p.1 p.2)
    | "DEM.CREATE", sbs => (sbScOf sbs).map fun p => .command (.demCreate p.1 p.2)
    | "MOD.OPEN", m :: [','] :: c :: [','] :: sbs => do
      let p ← sbScOf sbs
      return .modOpen (← valueText inputs m) (← valueText inputs c) p.1 p.2
    | "DEM.OPEN", m :: [','] :: c :: [','] :: sbs => do
      let p ← sbScOf sbs
      return .demOpen (← valueText inputs m) (← valueText inputs c) p.1 p.2
    | "MODULATE", [x, ['-', '>'], ta, [','], tb] => do
      return .modulate (← valueText inputs x) (← hvarOf ta) (← hvarOf tb)
    | "DEMODULATE", [ya, [','], yb, ['-', '>'], tz] => do
      return .demodulate (← valueText inputs ya) (← valueText inputs yb) (← hvarOf tz)
    | "LOOPBACK", [x, ['-', '>'], tz] => do
      return .loopback (← valueText inputs x) (← hvarOf tz)
    | "CLRERR", [] => some .clrerr
    | "CHECK", [['-', '>'], ts] => (hvarOf ts).map .check
    | _, _ => none

/-- A word that may stand as a label: R98 does not say what a label is made of, and the model takes any
word but a comma and an arrow (log entry 15, DESIGN CHOICE). -/
def isLabel (t : Text) : Bool := !t.isEmpty && t != [','] && t != ['-', '>']

/-- The text before and after the first colon of a word. -/
def splitColon (t : Text) : Option (Text × Text) :=
  match t.dropWhile (· != ':') with
  | [] => none
  | _ :: rest => some (t.takeWhile (· != ':'), rest)

/-- A label and the words after it. R98 does not say whether blanks may stand before or after the colon:
the model takes the colon with or without blanks on either side, and no colon without a label before
it (log entry 15, DESIGN CHOICE). -/
def labelOf : List Text → Option String × List Text
  | [] => (none, [])
  | w :: ws =>
    match splitColon w, ws with
    | some (l, rest), _ =>
      if isLabel l then (some (String.ofList l), flush rest ws) else (none, w :: ws)
    | none, (':' :: rest) :: ws' =>
      if isLabel w then (some (String.ofList w), flush rest ws') else (none, w :: ws)
    | none, _ => (none, w :: ws)

/-- The comment of a line: what follows its semicolon. -/
def commentOf (t : Text) : Option String :=
  match t.dropWhile (· != ';') with
  | [] => none
  | _ :: cs => some (String.ofList cs)

/-- The words of a line before its comment. -/
def lineWords (t : Text) : List Text := wordsFrom [] (t.takeWhile (· != ';'))

/-- `line`. -/
def lineOf (inputs : List Literal) (t : Text) : Option Line :=
  let p := labelOf (lineWords t)
  (stmtOf inputs p.2).map fun s => ⟨p.1, s, commentOf t⟩

/-! ### REPEAT (R100) -/

/-- The character before the copy number's `i`. -/
def openBrace : Char := Char.ofNat 123

/-- The character after it. -/
def closeBrace : Char := Char.ofNat 125

/-- What stands for the text between two braces in copy `i`: the copy number, or the copy number plus a
constant; any other text stays. -/
def indexText (i : Nat) (t : Text) : Text :=
  match t with
  | ['i'] => Nat.toDigits 10 i
  | 'i' :: '+' :: ds =>
    match natOf ds with
    | some k => Nat.toDigits 10 (i + k)
    | none => openBrace :: t ++ [closeBrace]
  | _ => openBrace :: t ++ [closeBrace]

/-- A line of a REPEAT body in copy `i`; `inside` holds the text since an open brace. -/
def substIndex (i : Nat) : Option Text → Text → Text
  | none, [] => []
  | some inside, [] => openBrace :: inside
  | none, c :: cs => if c = openBrace then substIndex i (some []) cs else c :: substIndex i none cs
  | some inside, c :: cs =>
    if c = closeBrace then indexText i inside ++ substIndex i none cs
    else substIndex i (some (inside ++ [c])) cs

/-- The words of a line after its label. A label may stand before REPEAT and END too, which R100 lists
among the pseudo-instructions, and carries no meaning there either (log entry 15, DESIGN CHOICE). -/
def unlabelledWords (t : Text) : List Text := (labelOf (lineWords t)).2

/-- The line is the END of a REPEAT body. -/
def isEnd (t : Text) : Bool := unlabelledWords t == ["END".toList]

/-- The count of a `REPEAT n` line. -/
def repeatCount (t : Text) : Option Nat :=
  match unlabelledWords t with
  | [w, n] => if w = "REPEAT".toList then natOf n else none
  | _ => none

/-- The lines of a program with every REPEAT unrolled; `body` holds the count and the lines of an open
REPEAT. A REPEAT inside a REPEAT, or one without its END, is no program. -/
def unroll : Option (Nat × List Text) → List Text → Option (List Text)
  | none, [] => some []
  | some _, [] => none
  | none, l :: ls =>
    match repeatCount l with
    | some n => unroll (some (n, [])) ls
    | none => if isEnd l then none else (unroll none ls).map (l :: ·)
  | some (n, body), l :: ls =>
    if isEnd l then
      (unroll none ls).map
        (((List.range n).flatMap fun i => body.map (substIndex i none)) ++ ·)
    else if (repeatCount l).isSome then none
    else unroll (some (n, body ++ [l])) ls

/-- The lines that a list of texts holds; a text without a word is no line. -/
def linesOf (inputs : List Literal) : List Text → Option (List Line)
  | [] => some []
  | t :: ts =>
    if (lineWords t).isEmpty then linesOf inputs ts
    else
      match lineOf inputs t, linesOf inputs ts with
      | some l, some ls => some (l :: ls)
      | _, _ => none

/-- The accesses of a program given as text, with the host's input list; `none` if it is no program. -/
def assembleText (inputs : List Literal) (program : List String) : Option (List HostEvent) :=
  match unroll none (program.map String.toList) with
  | some ts => (linesOf inputs ts).map assembleLines
  | none => none

end Sys2Proof.Machine
end

