-- ==== Sys2Proof/Tests/Slice0.lean ====
section
/-! SUPPORT. Tests on fixed values. The expected words are those of spec/95_test_vectors.md and of the
examples in the rules; the encodings are written out bit by bit from 30_encoding.md R91, R95. The
witnesses show that the hypotheses of each statement can be met, clause by clause. -/

namespace Sys2Proof.Tests

set_option Elab.async false

open Sys2Proof Sys2Proof.Machine Sys2Proof.Safety

/-! ### States -/

/-- The state that an outcome gives. -/
def after : Host.Outcome State Fault Refusal → Option State
  | .next t => some t
  | .fault _ => none
  | .refused _ => none

/-- A block whose MOD unit is CREATED with the given configuration and a zero history. -/
def modState (m x : Word) (sb : BitVec 2) (sc : Bool) : State :=
  { State.reset with
    status := 1
    modX := x
    mod := { initMod thisBlock with created := true, m := m, sb := sb, sc := sc } }

/-- A block whose DEM unit is CREATED with the given configuration and a zero history. -/
def demState (m yr yi : Word) (sb : BitVec 2) (sc : Bool) : State :=
  { State.reset with
    status := 2
    demYre := yr
    demYim := yi
    dem := { initDem thisBlock with created := true, m := m, sb := sb, sc := sc } }

/-- A reset block with a staged modulation index and carrier offset. -/
def staged (m c : Word) : State := { State.reset with midx := m, cfo := c }

/-- Both units CREATED, matched, double sideband with the carrier suppressed. -/
def pairState (m x : Word) : State :=
  { demState m 0 0 0 true with mod := (modState m x 0 true).mod, modX := x, status := 3 }

/-! ### Decoding: words written out from R91 and R95 -/

theorem test_decode_nop :
    decode 0b00000000000000000000000000000000#32 = .command .nop := by decide
theorem test_decode_mod_create_usb_sc :
    decode 0b00000000000000000000010100000001#32 = .command (.modCreate 1 true) := by decide
theorem test_decode_mod_create_sb3 :
    decode 0b00000000000000000000001100000001#32 = .command (.modCreate 3 false) := by decide
theorem test_decode_mod_step :
    decode 0b00000000000000000000000000000010#32 = .command .modStep := by decide
theorem test_decode_mod_destroy :
    decode 0b00000000000000000000000000000011#32 = .command .modDestroy := by decide
theorem test_decode_dem_create_lsb_sc :
    decode 0b00000000000000000000011000010001#32 = .command (.demCreate 2 true) := by decide
theorem test_decode_dem_step :
    decode 0b00000000000000000000000000010010#32 = .command .demStep := by decide
theorem test_decode_dem_destroy :
    decode 0b00000000000000000000000000010011#32 = .command .demDestroy := by decide
theorem test_decode_refuses_by_name :
    decode 0x00000014#32 = .illegal .unknownOpcode ∧ decode 0x000000FF#32 = .illegal .unknownOpcode ∧
    decode 0x00000102#32 = .illegal .reservedBits ∧ decode 0x00000B01#32 = .illegal .reservedBits := by
  decide
theorem test_decode_table_word :
    decodeTableWord 32 0x00000611 = some (.demCreate 2 true) ∧
    decodeTableWord 32 0x00000004 = none ∧ decodeTableWord 8 0x12 = some .demStep := by decide
theorem test_fetch_word_runs :
    (after (step (State.reset.withFetchWord 32 0x00000002))).map (fun t => (t.status, t.errflags)) =
      some (0x00000030#32, 0x00000008#32) := by decide +kernel

/-! ### Well-formedness: each check refuses an ill-formed term -/

theorem smoke_admitted_width : admitted 0x008 2 = false ∧ admitted 0x008 8 = false := by decide
theorem smoke_admitted_alignment : admitted 0x00A 4 = false := by decide
theorem smoke_admitted_window : admitted 0x100 4 = false ∧ admitted 0x0FC 4 = true := by decide
theorem smoke_access_master : accessWf [] ⟨.other, 4, 0x008, .read none⟩ = false := by decide
theorem smoke_access_unread_variable :
    accessWf [1] ⟨.owner, 4, 0x014, .write (.hvar 2)⟩ = false := by decide
theorem smoke_events_order :
    eventsWf [] [hostWrite 0x014 (.hvar 1), hostRead 0x000 (some 1)] = false ∧
    eventsWf [] [hostRead 0x000 (some 1), .reset, hostWrite 0x014 (.hvar 1)] = true := by decide

/-- The parameters of this block with some changed and the base address at a known value. -/
def params (n : Nat) (h : List Word) : Params :=
  { thisBlock with hilbN := n, hilbCoef := h, blockBase := 0x4000 }

theorem smoke_filter_block : filterWf (params 19 blockCoef) = true := by decide +kernel
theorem smoke_filter_even_length : filterWf (params 18 (blockCoef.take 18)) = false := by decide +kernel
theorem smoke_filter_short : filterWf (params 1 [0#32]) = false := by decide +kernel
theorem smoke_filter_long : filterWf (params 33 (List.replicate 33 0#32)) = false := by decide +kernel
theorem smoke_filter_table_length : filterWf (params 21 blockCoef) = false := by decide +kernel
theorem smoke_filter_centre : filterWf (params 3 [0xBF000000#32, 0x3F000000#32, 0x3F000000#32]) = false := by
  decide +kernel
theorem smoke_filter_even_offset :
    filterWf (params 5 [0xBF000000#32, 0xBF000000#32, 0#32, 0x3F000000#32, 0x3F000000#32]) = false := by
  decide +kernel
theorem smoke_filter_symmetric : filterWf (params 3 [0x3F000000#32, 0#32, 0x3F000000#32]) = false := by
  decide +kernel
theorem smoke_loop_gains :
    loopWf { params 19 blockCoef with pllKp := 0#32 } = false ∧
    loopWf { params 19 blockCoef with pllKi := 0xBF800000#32 } = false ∧
    loopWf { params 19 blockCoef with pllWmax := 0x7FC00000#32 } = false := by decide +kernel
theorem smoke_loop_nan : loopWf { params 19 blockCoef with nanResult := 0x7F800001#32 } = false := by
  decide +kernel
theorem smoke_loop_base : loopWf { params 19 blockCoef with blockBase := 0x4004 } = false := by
  decide +kernel
theorem smoke_unit_range : inUnit 0x3F800001#32 = false ∧ inUnit 0xBF800000#32 = true := by
  decide +kernel
theorem smoke_oscillator : ¬DdsWf { params 19 blockCoef with ddsCos := fun _ => pzero } :=
  fun h => absurd h.cos_zero (by decide)

/-! ### Arithmetic -/

/-- 0.1 + 0.2, a tie to even at 2^24 + 1, the least subnormal halved, an overflow. -/
theorem test_arithmetic_rounds :
    add32 thisBlock 0x3DCCCCCD#32 0x3E4CCCCD#32 = 0x3E99999A#32 ∧
    add32 thisBlock 0x4B800000#32 0x3F800000#32 = 0x4B800000#32 ∧
    mul32 thisBlock 0x00000001#32 0x3F000000#32 = 0x00000000#32 ∧
    mul32 thisBlock 0x7F7FFFFF#32 0x40000000#32 = 0x7F800000#32 ∧
    div32 thisBlock 0x3F800000#32 0x40400000#32 = 0x3EAAAAAB#32 ∧
    sqrt32 thisBlock 0x40000000#32 = 0x3FB504F3#32 := by decide +kernel

/-- The oscillator at 0.5 rad (95_test_vectors.md V5). -/
theorem test_oscillator : ddsCos 0x3F000000#32 = 0x3F60A940#32 ∧ ddsSin 0x3F000000#32 = 0x3EF57744#32 := by
  decide +kernel

/-! ### Commands: at most two tests each -/

/-- The example of R112. -/
theorem test_nop_example :
    (after (exec .nop { State.reset with status := 0x30, errflags := 8 })).map
      (fun t => (t.status, t.errflags)) = some (0#32, 8#32) := by decide +kernel

/-- The example of R130 (95_test_vectors.md V2). -/
theorem test_mod_create_example :
    (after (exec (.modCreate 0 false) (staged 0x3DCCCCCD 0))).map
      (fun t => (t.status, t.mod.m, memRead thisBlock t 0x038, t.mod.nidx)) =
      some (0x00000001#32, 0x3DCCCCCD#32, 0#32, 0#32) := by decide +kernel

/-- 95_test_vectors.md V2: 1 + 2^-23 is no valid m. -/
theorem test_mod_create_invalid :
    (after (exec (.modCreate 0 false) (staged 0x3F800001 0))).map
      (fun t => (t.status, t.errflags, t.mod.created)) =
      some (0x00000010#32, 0x00000002#32, false) := by decide +kernel

/-- The example of R131 (L1.1). -/
theorem test_mod_step_example :
    (after (exec .modStep (modState 0x3DCCCCCD 0x3F800000 0 false))).map
      (fun t => (t.mod.yre, t.mod.yim, t.mod.nidx)) =
      some (0x3F8CCCCD#32, 0x00000000#32, 1#32) := by decide +kernel

/-- 95_test_vectors.md V6, n = 0, lower sideband. -/
theorem test_mod_step_lsb_impulse :
    (after (exec .modStep (modState 0x3F800000 0x3F800000 2 true))).map
      (fun t => (t.mod.yre, t.mod.yim, t.mod.mline.headD 0)) =
      some (0x00000000#32, 0x3BB96DD0#32, 0x3F800000#32) := by decide +kernel

/-- The example of R136: the unit is zeroed and the input register stays. -/
theorem test_mod_destroy_example :
    (after (exec .modDestroy (modState 0x3F000000 0x3F800000 1 true))).map
      (fun t => (t.status, t.mod, t.modX)) =
      some (0#32, initMod thisBlock, 0x3F800000#32) := by decide +kernel

/-- The example of R160 (95_test_vectors.md V2). -/
theorem test_dem_create_example :
    (after (exec (.demCreate 0 true) (staged 0x3DCCCCCD 0x3A83126F))).map
      (fun t => (t.status, memRead thisBlock t 0x058, t.dem.cfo, t.dem.omega)) =
      some (0x00000002#32, 0x00000004#32, 0x3A83126F#32, 0#32) := by decide +kernel

/-- The example of R161 (L1.1). -/
theorem test_dem_step_envelope_example :
    (after (exec .demStep (demState 0x3DCCCCCD 0x3F8CCCCD 0 0 false))).map
      (fun t => (t.dem.z, t.dem.nidx)) = some (0x3F800002#32, 1#32) := by decide +kernel

/-- 95_test_vectors.md V5c, row 3: one wrap correction. -/
theorem test_dem_step_coherent_wrap :
    (after (exec .demStep (demState 0x3F800000 0x3F800000 0x43480000 0 true))).map
      (fun t => (t.dem.z, t.dem.perr, t.dem.omega, t.dem.theta)) =
      some (0x3F800000#32, 0x43480000#32, 0x3D23D70A#32, 0xC00F905A#32) := by decide +kernel

/-- The corner cases of R170: the unit is zeroed and the input registers stay. -/
theorem test_dem_destroy_example :
    (after (exec .demDestroy (demState 0x3F000000 0x3F800000 0x3F000000 2 true))).map
      (fun t => (t.status, t.dem, t.demYre, t.demYim)) =
      some (0#32, initDem thisBlock, 0x3F800000#32, 0x3F000000#32) := by decide +kernel

/-! ### Host accesses and host lines -/

/-- 95_test_vectors.md V3: the write-1-to-clear of `ERRFLAGS`. -/
theorem test_errflags_clear :
    (after (step (placeEvents [hostWrite 0x010 (.word 0x0000000A)]
      { State.reset with status := 0x30, errflags := 0x0E }))).map
      (fun t => (t.status, t.errflags)) = some (0x00000030#32, 0x00000004#32) := by decide +kernel

/-- The example of R201: straight after reset `PARAM` reads 0x00000913. -/
theorem test_read_param :
    (after (step (placeEvents [hostRead 0x004 (some 1)] State.reset))).map
      (fun t => (t.hostSide.rdata, t.hostSide.vars)) =
      some (some 0x00000913#32, [(1, 0x00000913#32)]) := by decide +kernel

/-- R98: `DEM.CREATE LSB, SC` is the word 0x00000611 written to `CMD`. -/
theorem test_assemble_create : assemble (.command (.demCreate 2 true)) =
    [hostWrite 0x008 (.word 0x00000611)] := by decide +kernel

/-- R100: `LOOPBACK` reads into t90 and t91 and writes them to the demodulator. -/
theorem test_assemble_loopback : (assemble (.loopback (.decimal false 1 0) 5)).map
    (fun e => match e with
      | .access a => (a.off, a.kind)
      | .reset => (0, .read none)) =
    [(0x020, .write (.word 0x3F800000)), (0x008, .write (.word 0x00000002)),
     (0x024, .read (some 90)), (0x028, .read (some 91)),
     (0x040, .write (.hvar 90)), (0x044, .write (.hvar 91)),
     (0x008, .write (.word 0x00000012)), (0x048, .read (some 5))] := by decide +kernel

theorem test_second_master_refused :
    step (placeEvents [.access ⟨.other, 4, 0x008, .read none⟩] State.reset) =
      .refused .secondMaster := rfl

/-! ### Witnesses: arithmetic -/

theorem value_of_val {w : Word} {n : Int} (h : val w = n) :
    value w = (n : ℝ) * (2 : ℝ) ^ (-149 : ℤ) := by rw [value, h]

theorem witness_AddAndSubAreCorrectlyRounded :
    isFinite 0x00000001#32 = true ∧ isFinite 0x80000001#32 = true ∧
    value 0x00000001#32 + value 0x80000001#32 = 0 ∧
    isFinite 0x80000000#32 = true ∧ isFinite 0x00000000#32 = true ∧
    value 0x80000000#32 - value 0x00000000#32 = 0 := by
  refine ⟨by decide, by decide, ?_, by decide, by decide, ?_⟩
  · rw [value_of_val (n := 1) (by decide), value_of_val (n := -1) (by decide)]; simp
  · rw [value_of_val (n := 0) (by decide), value_of_val (n := 0) (by decide)]; simp
theorem witness_MulIsCorrectlyRounded :
    isFinite 0x7F7FFFFF#32 = true ∧ isFinite 0x80000001#32 = true := by decide
theorem witness_DivIsCorrectlyRounded :
    isFinite 0x7F7FFFFF#32 = true ∧ isFinite 0x00000001#32 = true ∧ value 0x00000001#32 ≠ 0 := by
  refine ⟨by decide, by decide, ?_⟩
  rw [value_of_val (n := 1) (by decide)]; simp
theorem witness_SqrtIsCorrectlyRounded :
    isFinite 0x00000001#32 = true ∧ 0 ≤ value 0x00000001#32 ∧
    isFinite 0x80000000#32 = true ∧ value 0x80000000#32 = 0 := by
  refine ⟨by decide, ?_, by decide, ?_⟩
  · rw [value_of_val (n := 1) (by decide)]; simp
  · rw [value_of_val (n := 0) (by decide)]; simp
theorem witness_ComparisonsOrderValues :
    isNaN 0x7F800001#32 = true ∧ isFinite 0x80000000#32 = true ∧ isFinite 0x7F7FFFFF#32 = true ∧
    isNaN 0x7F800000#32 = false ∧ isNaN 0xFF800000#32 = false ∧ isNaN 0x7F7FFFFF#32 = false := by
  decide
theorem witness_NanResultsAreCanonical :
    isNaN 0xFFC00001#32 = true ∧ isInf 0x7F800000#32 = true ∧ isInf 0xFF800000#32 = true ∧
    signBit 0x7F800000#32 ≠ signBit 0xFF800000#32 ∧ isZero 0x80000000#32 = true ∧
    lt32 0x80000001#32 pzero = true ∧
    isNaN (add32 thisBlock 0x7F800000#32 0xFF800000#32) = true ∧
    isNaN (sub32 thisBlock 0x7F800000#32 0x7F800000#32) = true ∧
    isNaN (mul32 thisBlock 0x7F800000#32 0x80000000#32) = true ∧
    isNaN (div32 thisBlock 0x00000000#32 0x80000000#32) = true ∧
    isNaN (sqrt32 thisBlock 0x80000001#32) = true := by decide +kernel
theorem witness_InfinitiesFollowIEEE :
    isInf 0xFF800000#32 = true ∧ isFinite 0x7F7FFFFF#32 = true ∧
    signBit 0xFF800000#32 = signBit 0xFF800000#32 ∧ isNaN 0x7F800000#32 = false ∧
    isZero 0x00000001#32 = false ∧ isZero 0x80000000#32 = true := by decide +kernel
theorem witness_SignFunctionHasFourCases :
    isNaN 0x7F800001#32 = true ∧ gt32 0x00000001#32 pzero = true ∧ lt32 0x80000001#32 pzero = true ∧
    isNaN 0x80000000#32 = false ∧ gt32 0x80000000#32 pzero = false ∧
    lt32 0x80000000#32 pzero = false := by decide +kernel

/-! ### Witnesses: oscillator, lines and filter -/

theorem witness_OscillatorMeetsItsRequirements :
    isFinite 0x7F7FFFFF#32 = true ∧ isFinite 0x7F800000#32 = false ∧ isFinite 0x7FC00000#32 = false := by
  decide
theorem witness_LineHoldsTheLastPushes :
    (zeroLine thisBlock).length = thisBlock.hilbN ∧ 0 < thisBlock.hilbN ∧ 17 + 1 < thisBlock.hilbN ∧
    delay thisBlock < (zeroLine thisBlock).length := by decide
/-- A line with one entry that is not +0.0. -/
def spikeLine (k : Nat) (v : Word) : List Word := (List.replicate 19 pzero).set k v
/-- A NaN under the last tap, an infinity under a zero tap and under the first and last tap. -/
theorem witness_FilterSumsEveryTap :
    thisBlock.hilbCoef.length = thisBlock.hilbN ∧ isNaN thisBlock.nanResult = true ∧
    (spikeLine 18 0x7F800001#32).length = thisBlock.hilbN ∧
    (spikeLine 18 0x7F800001#32)[18]? = some 0x7F800001#32 ∧ isNaN 0x7F800001#32 = true ∧
    (spikeLine 17 0xFF800000#32)[17]? = some 0xFF800000#32 ∧ isInf 0xFF800000#32 = true ∧
    isZero (coef thisBlock 17) = true ∧
    thisBlock.hilbCoef.all inUnit = true ∧ isZero (coef thisBlock 18) = false ∧
    isZero (coef thisBlock 0) = false ∧ thisBlock.hilbN ≤ 31 ∧
    (∀ j, j < 18 → (spikeLine 18 0x7F800000#32)[j]? = some pzero) ∧ isFinite pzero = true := by
  decide +kernel
/-- Two infinite products of opposite signs, and a partial sum that has overflowed below +infinity. -/
theorem witness_FilterSumsEveryTap_opposite :
    let ln := (spikeLine 18 0x7F800000#32).set 0 0x7F800000#32
    let big := (List.replicate 9 0x7F7FFFFF#32 ++ List.replicate 9 0xFF7FFFFF#32) ++ [0x7F800000#32]
    isInf (tapProduct thisBlock ln 0) = true ∧ isInf (tapProduct thisBlock ln 18) = true ∧
    signBit (tapProduct thisBlock ln 0) ≠ signBit (tapProduct thisBlock ln 18) ∧
    big.length = thisBlock.hilbN ∧ big[18]? = some 0x7F800000#32 ∧
    tapSumTo thisBlock big 18 = neg32 (pack (signBit (coef thisBlock 18) ^^ signBit 0x7F800000#32) 0x7F800000) ∧
    tapSumTo thisBlock (spikeLine 18 0x7F800000#32) 18 ≠ 0xFF800000#32 := by
  decide +kernel
theorem witness_OscillatorIsNearCosineAndSine :
    isFinite 0x49800000#32 = true ∧ |value 0x49800000#32| ≤ 2 ^ 20 ∧
    isFinite 0xBF800000#32 = true ∧ |value 0xBF800000#32| ≤ 1 := by
  refine ⟨by decide, ?_, by decide, ?_⟩
  · rw [value_of_val (n := 2 ^ 169) (by decide +kernel), abs_of_nonneg (by positivity), Int.cast_pow,
      Int.cast_ofNat, ← zpow_natCast, ← zpow_natCast, ← zpow_add₀ (by norm_num)]
    norm_num
  · rw [value_of_val (n := -2 ^ 149) (by decide +kernel), Int.cast_neg, neg_mul, abs_neg,
      abs_of_nonneg (by positivity), Int.cast_pow, Int.cast_ofNat, ← zpow_natCast,
      ← zpow_add₀ (by norm_num)]
    norm_num
theorem witness_ImpulseComesOutDelayed :
    filterWf thisBlock = true ∧ plainTaps thisBlock = true := by decide +kernel

/-! ### Witnesses: encoding, steps and accesses -/

theorem witness_ExactlyOneRowMatchesLegalWords :
    decode 0x00000701#32 = .command (.modCreate 3 true) ∧
    decode 0x00000901#32 = .illegal .reservedBits := by decide
theorem witness_IllegalWordsRecordErrorTwo :
    opcodeMap.any (matchesRow 0x80000000#32) = false ∧
    opcodeMap.any (matchesRow 0x00000010#32) = false := by decide
theorem witness_StepRunsTheDecodedCommand :
    let s := { State.reset with hostSide := ⟨[hostWrite 0x008 (.hvar 3)], [(3, 0x00000003#32)], none⟩ }
    s.hostSide.pending = [hostWrite 0x008 (.hvar 3)] ∧
    valueOf s.hostSide.vars (.hvar 3) = some 0x00000003#32 ∧
    decode 0x00000003#32 = .command .modDestroy ∧
    decode (BitVec.ofNat 32 0x00000003) = .command .modDestroy := by decide
theorem witness_RwRegistersKeepTheWrittenWord :
    0x014 ∈ [0x014, 0x018, 0x020, 0x040, 0x044] ∧ 0x044 ∈ [0x014, 0x018, 0x020, 0x040, 0x044] ∧
    0x0FC % 4 = 0 ∧ 0x0FC < 0x100 ∧ 0x0FC ≠ 0x044 := by decide
theorem witness_WritesElsewhereAreIgnored :
    0x000 % 4 = 0 ∧ 0x000 ∉ [0x008, 0x010, 0x014, 0x018, 0x020, 0x040, 0x044] ∧
    0x0FC % 4 = 0 ∧ 0x0FC < 0x100 ∧
    0x0FC ∉ [0x008, 0x010, 0x014, 0x018, 0x020, 0x040, 0x044] := by decide
theorem witness_ErrflagsWriteClearsWrittenOnes :
    (0x0000000E#32 : Word) &&& 0xFFFFFFF1#32 = 0 := by decide
theorem witness_ReadsHaveNoSideEffect :
    0x000 % 4 = 0 ∧ 0x0FC % 4 = 0 ∧ 0x0FC < 0x100 ∧ (some 1 : Option Nat) ≠ some 2 := by decide
theorem witness_ReservedOffsetsReadZero :
    0x01C ∈ [0x01C, 0x03C, 0x074, 0x078, 0x07C] ∧ 0x07C ∈ [0x01C, 0x03C, 0x074, 0x078, 0x07C] ∧
    0x100 ≤ 0x100 ∧ 0x100 % 4 = 0 := by decide
theorem witness_AccessesNotAdmittedHaveNoStep :
    admitted 0x100 4 = false ∧ admitted 0x0FE 4 = false ∧ admitted 0x0FC 1 = false ∧
    (⟨.other, 4, 0, .read none⟩ : Access).master = .other := by decide
theorem witness_BusAddressesAndByteLanes :
    (params 19 blockCoef).blockBase % 256 = 0 ∧ 0xFC < 0x100 := by decide

/-! ### Witnesses: errors -/

theorem witness_CommandEndRecordsItsCode :
    2 ∉ [0, 1, 4, 5, 6, 7] ∧ 3 ∉ [0, 1, 4, 5, 6, 7] ∧ 31 ∉ [0, 1, 4, 5, 6, 7] := by decide
theorem witness_FailedCommandsChangeNothingElse :
    (after (execute 0x00000002#32 State.reset)).map (fun t => lastErr t.status) = some 3#4 := by
  decide +kernel
theorem witness_ErrorPriorityIsFixed :
    decode 0x00000B01#32 = .illegal .reservedBits ∧
    stateWrong (modState 0x3F000000 0 0 false) (.modCreate 3 false) = true ∧
    stateWrong State.reset (.modCreate 0 false) = false ∧
    configWrong State.reset (.modCreate 0 false) = true ∧
    configWrong (staged 0x00000001 0) (.demCreate 2 true) = false ∧
    stateWrong (staged 0x00000001 0) (.demCreate 2 true) = false ∧
    (modState 0x3F000000 0 0 false).mod.created = true := by decide +kernel
theorem witness_LifecycleMisuseRecordsErrorThree :
    (pairState 0x3F000000 0).mod.created = true ∧ (pairState 0x3F000000 0).dem.created = true ∧
    State.reset.mod.created = false ∧ State.reset.dem.created = false := by decide
theorem witness_InvalidConfigurationRecordsErrorOne :
    validConfig (staged 0x3F800001 0).midx 0 = false ∧ validConfig (staged 0x3F800000 0).midx 3 = false ∧
    (staged 0x3F800001 0).mod.created = false ∧ (staged 0x3F800001 0).dem.created = false := by
  decide +kernel

/-! ### Witnesses: commands -/

theorem witness_ModCreateLoadsTheConfiguration :
    (staged 0x00000001 0).mod.created = false ∧ validConfig (staged 0x00000001 0).midx 2 = true := by
  decide +kernel
theorem witness_DemCreateLoadsTheConfiguration :
    (staged 0x3F800000 0).dem.created = false ∧ validConfig (staged 0x3F800000 0).midx 0 = true := by
  decide +kernel
theorem witness_ModStepDoubleSidebandWithCarrier :
    let s := modState 0x3F800000 0xBF800000 0 false
    s.mod.created = true ∧ s.mod.sb = 0 ∧ s.mod.sc = false := by decide
theorem witness_ModStepDoubleSidebandSuppressed :
    let s := modState 0x3F800000 0xBF800000 0 true
    s.mod.created = true ∧ s.mod.sb = 0 ∧ s.mod.sc = true := by decide
theorem witness_ModStepSingleSideband :
    let s := modState 0x3F800000 0xBF800000 1 false
    let t := modState 0x3F800000 0xBF800000 2 true
    s.mod.created = true ∧ s.mod.mline.length = 19 ∧ s.mod.sb = 1 ∧ s.mod.sc = false ∧
    t.mod.created = true ∧ t.mod.mline.length = 19 ∧ t.mod.sb = 2 ∧ t.mod.sc = true := by decide
theorem witness_ModDestroyZeroesTheUnit : (modState 0x3F800000 0 2 true).mod.created = true := by decide
theorem witness_DemStepEnvelope :
    let s := demState 0x3DCCCCCD 0x3F8CCCCD 0 0 false
    s.dem.created = true ∧ s.dem.sb = 0 ∧ s.dem.sc = false := by decide
/-- The clamp, the wrap and neither of them, each met by one sample. -/
theorem witness_DemStepCoherent :
    let s := demState 0x3F800000 0x3F800000 0x461C4000 0 true
    let w := add32 thisBlock 0 (mul32 thisBlock 0x3951B717 0x461C4000)
    let v := add32 thisBlock 0 (mul32 thisBlock 0x3951B717 0xC61C4000)
    s.dem.created = true ∧ s.dem.sb = 0 ∧ s.dem.sc = true ∧
    gt32 w 0x3F000000#32 = true ∧ lt32 v 0xBF000000#32 = true ∧
    gt32 0x3F000000#32 0x3F000000#32 = false ∧ lt32 0xBF000000#32 0xBF000000#32 = false ∧
    ge32 0x40490FDB#32 0x40490FDB#32 = true ∧ lt32 0xC0490FDC#32 0xC0490FDB#32 = true ∧
    ge32 0xC0490FDB#32 0x40490FDB#32 = false ∧ lt32 0xC0490FDB#32 0xC0490FDB#32 = false := by
  decide +kernel
theorem witness_DemStepSingleSideband :
    let s := demState 0x3F800000 0x3F800000 0x3F000000 1 false
    let t := demState 0x3F800000 0x3F800000 0x3F000000 2 true
    s.dem.created = true ∧ s.dem.lr.length = 19 ∧ s.dem.li.length = 19 ∧ s.dem.sb = 1 ∧
    s.dem.sc = false ∧ t.dem.created = true ∧ t.dem.lr.length = 19 ∧ t.dem.li.length = 19 ∧
    t.dem.sb = 2 ∧ t.dem.sc = true := by decide
theorem witness_DemDestroyZeroesTheUnit : (demState 0x3F800000 0 0 2 true).dem.created = true := by decide

/-! ### Witnesses: the loop -/

theorem witness_FrequencyEstimateStaysBounded : gt32 thisBlock.pllWmax pzero = true := by decide +kernel
theorem witness_OneCorrectionWrapsThePhase :
    ge32 0xC116CBE4#32 0xC116CBE4#32 = true ∧ le32 0xC116CBE4#32 0x4116CBE4#32 = true ∧
    ge32 0x4116CBE4#32 0xC116CBE4#32 = true ∧ le32 0x4116CBE4#32 0x4116CBE4#32 = true ∧
    inPhaseRange (neg32 pi32) = true ∧ inPhaseRange pi32 = false ∧
    isNaN 0x7FC00000#32 = true ∧ isInf 0xFF800000#32 = true := by decide +kernel
theorem witness_RealInputLeavesTheLoopAtRest :
    let s := demState 0x3F000000 0xFF7FFFFF 0 0 true
    s.dem.created = true ∧ s.dem.sb = 0 ∧ s.dem.sc = true ∧ s.dem.theta = pzero ∧
    s.dem.omega = pzero ∧ s.demYim = pzero ∧ isFinite s.demYre = true ∧
    s.demYre ≠ 0x80000000#32 := by decide
theorem witness_NanPoisonsTheLoop :
    let s := demState 0x3F000000 0x7F800001 0 0 true
    let t := demState 0x3F000000 0 0xFFC00000 0 true
    let u := { s with demYre := 0#32, dem := { s.dem with theta := 0x7F800000#32 } }
    let v := demState 0x3F000000 0x7F800000 0x3F800000 0 true
    coherentMode s.dem = true ∧ isNaN s.demYre = true ∧
    coherentMode t.dem = true ∧ isNaN t.demYim = true ∧
    coherentMode u.dem = true ∧ isFinite u.dem.theta = false ∧
    coherentMode v.dem = true ∧ isNaN v.demYre = false ∧ isNaN v.demYim = false ∧
    isInf v.demYre = true ∧ isFinite v.dem.theta = true ∧ isFinite v.dem.omega = true ∧
    v.dem.theta = pzero := by decide
theorem witness_MatchedSuppressedRoundTrip :
    let s := pairState 0x3F000000 0
    s.mod.created = true ∧ s.mod.sb = 0 ∧ s.mod.sc = true ∧ s.dem.created = true ∧ s.dem.sb = 0 ∧
    s.dem.sc = true ∧ s.dem.m = s.mod.m ∧ s.dem.theta = pzero ∧ s.dem.omega = pzero ∧
    isFinite (mul32 thisBlock s.mod.m 0xBF800000#32) = true ∧
    mul32 thisBlock s.mod.m 0xBF800000#32 ≠ 0x80000000#32 := by decide +kernel

/-! ### Witnesses: whole-machine rules -/

theorem witness_SidebandsMirrorEachOther :
    let s := modState 0x3F800000 0 1 true
    let t := modState 0x3F800000 0x3F000000 2 true
    s.mod.created = true ∧ t.mod.created = true ∧ s.mod.sb = 1 ∧ t.mod.sb = 2 ∧ s.mod.m = t.mod.m ∧
    s.mod.sc = t.mod.sc ∧ s.mod.mline = t.mod.mline := by decide
theorem witness_SampleIndexCountsSteps :
    (pairState 0x3F000000 0).mod.created = true ∧ (pairState 0x3F000000 0).dem.created = true ∧
    State.reset.mod.created = false ∧ State.reset.dem.created = false := by decide
/-- Two states that differ in the other unit and, for a step, in the staging registers; for a create
they share the staging registers. -/
theorem witness_CommandsStayInTheirUnit :
    let s := pairState 0x3F000000 0x3F800000
    let t := { s with dem := initDem thisBlock, midx := 1#32, demYre := 2#32 }
    let u := { s with mod := initMod thisBlock, cfo := 1#32, modX := 2#32 }
    isModCommand .modStep = true ∧ s.mod = t.mod ∧ s.modX = t.modX ∧
    isDemCommand .demStep = true ∧ s.dem = u.dem ∧ s.demYre = u.demYre ∧ s.demYim = u.demYim ∧
    isModCommand (.modCreate 0 false) = true ∧
    (∀ sb sc, Instr.modCreate 0 false = .modCreate sb sc →
      (staged 1 2).midx = (staged 1 2).midx ∧ (staged 1 2).cfo = (staged 1 2).cfo) := by
  refine ⟨rfl, rfl, rfl, rfl, rfl, rfl, rfl, rfl, ?_⟩
  exact fun _ _ _ => ⟨rfl, rfl⟩
theorem witness_ConfigurationIsFixedForLife :
    let s := placeEvents [commandWrite 0x00000002] (pairState 0x3F000000 0x3F800000)
    s.mod.created = true ∧ s.dem.created = true ∧
    (after (step s)).map (fun t => (t.mod.created, t.dem.created)) = some (true, true) := by
  decide +kernel
/-- A create, a destroy and a reset of each unit. -/
theorem witness_LifecycleMovesOnlyByItsCommands :
    (after (step (placeEvents [commandWrite 0x00000001] (staged 0x3F800000 0)))).map (·.mod.created) =
      some true ∧
    (after (step (placeEvents [commandWrite 0x00000011] (staged 0x3F800000 0)))).map (·.dem.created) =
      some true ∧
    (after (step (placeEvents [commandWrite 0x00000003] (pairState 0x3F800000 0)))).map (·.mod.created) =
      some false ∧
    (after (step (placeEvents [commandWrite 0x00000013] (pairState 0x3F800000 0)))).map (·.dem.created) =
      some false ∧
    (after (step (placeEvents [.reset] (pairState 0x3F800000 0)))).map
      (fun t => (t.mod.created, t.dem.created)) = some (false, false) := by decide +kernel
/-- A command that changes `STATUS`, and a write that clears a set flag. -/
theorem witness_ErrorRegistersAreSticky :
    (after (step (placeEvents [commandWrite 0x00000004] State.reset))).map (·.status) =
      some 0x00000020#32 ∧
    (after (step (placeEvents [hostWrite 0x010 (.word 0x00000004)]
      { State.reset with errflags := 0x0000000E }))).map (·.errflags) = some 0x0000000A#32 := by
  decide +kernel
/-- A state with a CREATED modulator that meets the invariant and steps. -/
theorem witness_StepKeepsTheInvariant :
    Inv thisBlock (placeEvents [commandWrite 0x00000002] (modState 0x3F800000 0x3F000000 1 true)) ∧
    ((after (step (placeEvents [commandWrite 0x00000002]
      (modState 0x3F800000 0x3F000000 1 true)))).isSome) = true := by
  refine ⟨⟨by decide, by decide, by decide, ⟨by decide, ?_, ?_, ?_⟩,
    ⟨by decide, by decide, fun _ => rfl, ?_, by decide +kernel, fun _ => ⟨rfl, rfl, rfl⟩,
      fun _ => ⟨rfl, rfl⟩⟩, by decide⟩, by decide +kernel⟩
  · intro h; cases h
  · intro _; decide +kernel
  · intro h; cases h
  · intro h; cases h
theorem witness_AdmittedAccessesRunToTheEnd :
    eventsWf (State.reset.hostSide.vars.map Prod.fst)
      [hostRead 0x024 (some 90), hostWrite 0x040 (.hvar 90), commandWrite 0x00000012, .reset] = true := by
  decide

/-! ### The assembler: the example of 30_encoding.md R98 and the expansions of R100 -/

theorem test_text_create :
    assembleText [] ["a: DEM.CREATE LSB, SC ; note"] = some [commandWrite 0x00000611#32] := by
  decide +kernel
theorem test_text_repeat :
    assembleText [.decimal false 5 1, .hex 3#32]
        ["a: REPEAT 2", String.ofList ("LOOPBACK x".toList ++ [openBrace, 'i', closeBrace] ++
          " -> t".toList ++ [openBrace, 'i', closeBrace]), "b: END ; done"] =
      some (assemble (.loopback (.decimal false 5 1) 0) ++ assemble (.loopback (.hex 3#32) 1)) := by
  decide +kernel
theorem test_text_refuses :
    assembleText [] ["WR MIDX f:1"] = none ∧ assembleText [] [": NOP"] = none := by decide +kernel
/-- The colon with and without blanks (log entry 15). -/
theorem test_text_colon :
    (["a: NOP", "a:NOP", "a :NOP", "a : NOP"].all fun l =>
      lineOf [] l.toList == some ⟨some "a", .command .nop, none⟩) = true := by decide +kernel

end Sys2Proof.Tests
end

section
/-! PROOFS of 00_scope.md, correct rounding: `add32`, `sub32`, `mul32`, `div32` and `sqrt32` of finite
operands are one packed rounded quotient each, which `nearest_pack` says is the nearest binary32. -/

namespace Sys2Proof.Machine

open Safety

/-! ### The value of a word and the sign it has -/

theorem value_eq_val (w : Word) : value w = (val w : ℝ) * unit32 := rfl

theorem value_eq_signFactor (w : Word) :
    value w = signFactor (signBit w) * ((mag w : ℝ) * unit32) := by
  rw [value_eq_val, val]
  cases signBit w <;> simp [signFactor]

theorem value_eq_zero {w : Word} : value w = 0 ↔ isZero w = true := by
  rw [value_eq_val, mul_eq_zero, Int.cast_eq_zero, val_eq_zero, isZero, beq_iff_eq]
  exact or_iff_left unit32_pos.ne'

@[simp] theorem value_neg32 (w : Word) : value (neg32 w) = -value w := by
  rw [value_eq_val, val_neg32, Int.cast_neg, neg_mul, value_eq_val]

theorem signFactor_xor (s t : Bool) : signFactor (s ^^ t) = signFactor s * signFactor t := by
  cases s <;> cases t <;> norm_num [signFactor]

theorem signFactor_not (s : Bool) : signFactor (!s) = -signFactor s := by
  cases s <;> simp [signFactor]

theorem signFactor_div (s t : Bool) : signFactor s / signFactor t = signFactor (s ^^ t) := by
  cases s <;> cases t <;> norm_num [signFactor]

@[simp] theorem signBit_pack_roundMag (neg : Bool) (n d : Nat) :
    signBit (pack neg (roundMag n d)) = neg := signBit_pack (roundMag_lt n d)

theorem pack_zero (neg : Bool) : pack neg 0 = if neg then 0x80000000#32 else 0#32 := by
  cases neg <;> rfl

/-! ### The primitives on finite operands, one equation each -/

theorem roundMag_zero_left {d : Nat} (hd : 0 < d) : roundMag 0 d = 0 :=
  Nat.le_zero.mp (roundMag_le_of_le hd (Nat.zero_le _))

/-- The sign that a sum of finite operands has: IEEE 754's rule for an exact zero, else the sum's own. -/
def sumSign (a b : Word) : Bool :=
  if val a + val b = 0 then signBit a && signBit b else decide (val a + val b < 0)

theorem add32_of_isFinite (P : Params) {a b : Word} (ha : isFinite a = true)
    (hb : isFinite b = true) :
    add32 P a b = pack (sumSign a b) (roundMag (val a + val b).natAbs 1) := by
  simp only [add32, sumSign, isNaN_of_isFinite ha, isNaN_of_isFinite hb, isInf_of_isFinite ha,
    isInf_of_isFinite hb, Bool.or_self, Bool.false_eq_true, if_false]
  by_cases hr : val a + val b = 0
  · rw [if_pos hr, if_pos hr, hr, Int.natAbs_zero, roundMag_zero_left one_pos]
  · rw [if_neg hr, if_neg hr]

theorem mul32_of_isFinite (P : Params) {a b : Word} (ha : isFinite a = true)
    (hb : isFinite b = true) :
    mul32 P a b = pack (signBit a ^^ signBit b) (roundMag (mag a * mag b) (2 ^ 149)) := by
  simp only [mul32, isNaN_of_isFinite ha, isNaN_of_isFinite hb, isInf_of_isFinite ha,
    isInf_of_isFinite hb, Bool.or_self, Bool.false_eq_true, if_false]

theorem div32_of_isFinite (P : Params) {a b : Word} (ha : isFinite a = true)
    (hb : isFinite b = true) (hz : isZero b = false) :
    div32 P a b = pack (signBit a ^^ signBit b) (roundMag (mag a * 2 ^ 149) (mag b)) := by
  simp only [div32, isNaN_of_isFinite ha, isNaN_of_isFinite hb, isInf_of_isFinite ha,
    isInf_of_isFinite hb, hz, Bool.or_self, Bool.false_eq_true, if_false]

theorem isFinite_of_isZero {w : Word} (h : isZero w = true) : isFinite w = true := by
  rw [isFinite_iff_lt, isZero_eq_true.mp h]; decide

theorem sqrt32_of_isZero (P : Params) {a : Word} (hz : isZero a = true) : sqrt32 P a = a := by
  simp only [sqrt32, isNaN_of_isFinite (isFinite_of_isZero hz), hz, Bool.false_eq_true, if_false, if_true]

theorem sqrt32_of_isFinite (P : Params) {a : Word} (ha : isFinite a = true)
    (hz : isZero a = false) (hs : signBit a = false) :
    sqrt32 P a = pack false (sqrtMag (mag a)) := by
  simp only [sqrt32, isNaN_of_isFinite ha, isInf_of_isFinite ha, hz, hs, Bool.false_eq_true,
    if_false]

/-! ### Sums -/

/-- A whole number of units, packed with its sign, is rounded to nearest; the sign of a zero is free. -/
theorem nearest_pack_int (neg : Bool) (r : ℤ) (h : r ≠ 0 → neg = decide (r < 0)) :
    Nearest ((r : ℝ) * unit32) (pack neg (roundMag r.natAbs 1)) := by
  refine nearest_pack neg r.natAbs 1 _ one_pos ?_
  rw [Nat.cast_one, div_one, ← mul_assoc, Nat.cast_natAbs]
  congr 1
  rcases lt_trichotomy r 0 with hr | rfl | hr
  · rw [h hr.ne, decide_eq_true hr, abs_of_neg hr]; simp [signFactor]
  · simp
  · rw [h hr.ne', decide_eq_false hr.not_gt, abs_of_pos hr]; simp [signFactor]

theorem nearest_add32 (P : Params) {a b : Word} (ha : isFinite a = true) (hb : isFinite b = true) :
    Nearest (value a + value b) (add32 P a b) := by
  rw [add32_of_isFinite P ha hb, value_eq_val, value_eq_val, ← add_mul, ← Int.cast_add]
  exact nearest_pack_int _ _ fun hr => if_neg hr

theorem add32_of_value_add_eq_zero (P : Params) {a b : Word} (ha : isFinite a = true)
    (hb : isFinite b = true) (h : value a + value b = 0) :
    add32 P a b = pack (signBit a && signBit b) 0 := by
  rw [value_eq_val, value_eq_val, ← add_mul, ← Int.cast_add, mul_eq_zero, Int.cast_eq_zero] at h
  have hr : val a + val b = 0 := h.resolve_right unit32_pos.ne'
  rw [add32_of_isFinite P ha hb, sumSign, if_pos hr, hr, Int.natAbs_zero,
    roundMag_zero_left one_pos]

/-- Settles O1: a difference is the sum with the negated operand, so both come from the sum. -/
theorem addAndSubAreCorrectlyRounded : Obligations.AddAndSubAreCorrectlyRounded := by
  intro P a b ha hb
  have hb' : isFinite (neg32 b) = true := by rw [isFinite_neg32, hb]
  refine ⟨nearest_add32 P ha hb, ?_, fun h => ?_, fun h => ?_⟩
  · have := nearest_add32 P ha hb'
    rwa [value_neg32, ← sub_eq_add_neg] at this
  · rw [add32_of_value_add_eq_zero P ha hb h, pack_zero]
  · rw [sub_eq_add_neg, ← value_neg32] at h
    rw [sub32, add32_of_value_add_eq_zero P ha hb' h, pack_zero, signBit_neg32]

/-! ### Products and quotients -/

theorem unit32_mul_two_pow : unit32 * ((2 ^ 149 : ℕ) : ℝ) = 1 := by
  rw [Nat.cast_pow, Nat.cast_ofNat, unit32, ← zpow_natCast, ← zpow_add₀ two_ne_zero]; rfl

/-- Settles O2: the product of the magnitudes, in units, is their integer product over `2 ^ 149`. -/
theorem mulIsCorrectlyRounded : Obligations.MulIsCorrectlyRounded := by
  intro P a b ha hb
  rw [mul32_of_isFinite P ha hb]
  refine ⟨nearest_pack _ _ _ _ (Nat.pow_pos (by decide)) ?_, signBit_pack_roundMag _ _ _⟩
  have hunit : (1 : ℝ) / ((2 ^ 149 : ℕ) : ℝ) = unit32 :=
    (eq_one_div_of_mul_eq_one_left unit32_mul_two_pow).symm
  rw [value_eq_signFactor a, value_eq_signFactor b, signFactor_xor, Nat.cast_mul,
    div_eq_mul_one_div, hunit]
  ring

/-- Settles O3: in a quotient the two units cancel, so the dividend is scaled by `2 ^ 149`. -/
theorem divIsCorrectlyRounded : Obligations.DivIsCorrectlyRounded := by
  intro P a b ha hb hv
  have hz : isZero b = false := by rwa [ne_eq, value_eq_zero, Bool.not_eq_true] at hv
  have hm : mag b ≠ 0 := by simpa [isZero] using hz
  rw [div32_of_isFinite P ha hb hz]
  refine ⟨nearest_pack _ _ _ _ (Nat.pos_of_ne_zero hm) ?_, signBit_pack_roundMag _ _ _⟩
  rw [value_eq_signFactor a, value_eq_signFactor b, mul_div_mul_comm, signFactor_div, Nat.cast_mul,
    mul_div_mul_right _ _ unit32_pos.ne', mul_div_right_comm, mul_assoc _ _ unit32,
    mul_comm _ unit32, unit32_mul_two_pow, mul_one]

/-! ### Square roots -/

/-- The bitwise search keeps `r ^ 2 ≤ n < (r + 2 ^ i) ^ 2`, so it ends at the root rounded down. -/
theorem isqrtFrom_spec (i n r : Nat) (hlo : r * r ≤ n) (hhi : n < (r + 2 ^ i) * (r + 2 ^ i)) :
    isqrtFrom i n r * isqrtFrom i n r ≤ n ∧
      n < (isqrtFrom i n r + 1) * (isqrtFrom i n r + 1) := by
  induction i generalizing r with
  | zero => exact ⟨hlo, hhi⟩
  | succ i ih =>
    rw [isqrtFrom]
    split
    case isTrue h => exact ih _ h (by rwa [add_assoc, ← two_mul, ← pow_succ'])
    case isFalse h => exact ih _ hlo (not_le.mp h)

/-- The point `t`, in units, lies strictly between two neighbouring halves of a unit. -/
def InCell (k : ℕ) (t : ℝ) : Prop := (k : ℝ) < 2 * t ∧ 2 * t < k + 1

theorem InCell.pos {k : ℕ} {t : ℝ} (ht : InCell k t) : 0 < t := by
  have := (Nat.cast_nonneg k : (0 : ℝ) ≤ k)
  linarith [ht.1]

/-- Inside a cell, a comparison with half a whole number depends on the cell only. -/
theorem InCell.int_le_iff {k : ℕ} {t : ℝ} (ht : InCell k t) (n : ℤ) : (n : ℝ) ≤ 2 * t ↔ n ≤ k := by
  constructor
  · intro h
    have : (n : ℝ) < ((k + 1 : ℤ) : ℝ) := by push_cast; linarith [ht.2]
    exact Int.lt_add_one_iff.mp (Int.cast_lt.mp this)
  · intro h
    have : (n : ℝ) ≤ ((k : ℤ) : ℝ) := Int.cast_le.mpr h
    push_cast at this
    linarith [ht.1]

/-- Of two whole numbers the nearer one is decided at the half between them, so by the cell. -/
theorem InCell.abs_sub_le_iff {k : ℕ} {t : ℝ} (ht : InCell k t) (p q : ℤ) :
    |(p : ℝ) - t| ≤ |(q : ℝ) - t| ↔ p = q ∨ (p < q ∧ k < p + q) ∨ (q < p ∧ p + q ≤ k) := by
  have hle := ht.int_le_iff (p + q)
  push_cast at hle
  rw [← sq_le_sq, ← sub_nonneg,
    show ((q : ℝ) - t) ^ 2 - (p - t) ^ 2 = (q - p) * (p + q - 2 * t) by ring]
  rcases lt_trichotomy p q with h | rfl | h
  · have hpq : (0 : ℝ) < q - p := sub_pos.mpr (Int.cast_lt.mpr h)
    rw [mul_nonneg_iff_of_pos_left hpq, sub_nonneg]
    have hne : (p : ℝ) + q ≠ 2 * t := fun he => by
      have h1 := hle.mp he.le
      have h2 : ((p + q : ℤ) : ℝ) ≤ k := by exact_mod_cast h1
      push_cast at h2; linarith [ht.1]
    have : 2 * t ≤ (p : ℝ) + q ↔ ¬ p + q ≤ (k : ℤ) := by
      rw [← hle, not_le]; exact ⟨fun h => lt_of_le_of_ne h hne.symm, le_of_lt⟩
    rw [this]; omega
  · simp
  · have hpq : (0 : ℝ) < p - q := sub_pos.mpr (Int.cast_lt.mpr h)
    rw [← neg_mul_neg, neg_sub, mul_nonneg_iff_of_pos_left hpq, neg_sub, sub_nonneg, hle]
    omega

/-- Rounding sees of a real that lies strictly between halves of a unit only between which. -/
theorem nearest_of_inCell {k : ℕ} {t t' : ℝ} {w : Word} (ht : InCell k t) (ht' : InCell k t')
    (h : Nearest (t * unit32) w) : Nearest (t' * unit32) w := by
  have hu := unit32_pos
  have habs : ∀ {s : ℝ}, InCell k s → (overflowBound ≤ |s * unit32| ↔
      ((2 * (2 ^ 277 - 2 ^ 252) : ℕ) : ℤ) ≤ k) := by
    intro s hs
    rw [abs_of_pos (mul_pos hs.pos hu), overflowBound_eq, mul_le_mul_iff_left₀ hu, ← hs.int_le_iff,
      Int.cast_natCast, Nat.cast_mul, Nat.cast_ofNat, mul_le_mul_iff_right₀ two_pos]
  have hdist : ∀ (s : ℝ) (c : Word), |value c - s * unit32| = |(val c : ℝ) - s| * unit32 := by
    intro s c
    rw [value_eq_val, ← sub_mul, abs_mul, abs_of_pos hu]
  have hle : ∀ {s : ℝ}, InCell k s → ∀ c d : Word,
      (|value c - s * unit32| ≤ |value d - s * unit32| ↔ val c = val d ∨
        (val c < val d ∧ k < val c + val d) ∨ (val d < val c ∧ val c + val d ≤ k)) := by
    intro s hs c d
    rw [hdist, hdist, mul_le_mul_iff_left₀ hu, hs.abs_sub_le_iff]
  obtain ⟨hover, hnear, hsign⟩ := h
  refine ⟨fun hb => hover ?_, fun hb => ?_, fun _ => ?_⟩
  · rwa [habs ht, ← habs ht']
  · rw [← not_le, habs ht', ← habs ht, not_le] at hb
    obtain ⟨hfin, hmin⟩ := hnear hb
    refine ⟨hfin, fun c hc => ⟨?_, fun he hne => ?_⟩⟩
    · rw [hle ht', ← hle ht]; exact (hmin c hc).1
    · have h1 := (hle ht' c w).mp he.le
      have h2 := (hle ht' w c).mp he.ge
      exact absurd (by rw [value_eq_val, value_eq_val, show val c = val w by omega]) hne
  · rw [hsign (mul_pos ht.pos hu).ne', iff_false_intro (mul_pos ht.pos hu).not_gt,
      iff_false_intro (mul_pos ht'.pos hu).not_gt]

/-- The square root of `m` units is half the root of `m * 2 ^ 151`, in units. -/
theorem sqrt_units (m : ℕ) : √((m : ℝ) * unit32) = √((m * 2 ^ 151 : ℕ) : ℝ) / 2 * unit32 := by
  have h : (m : ℝ) * unit32 = ((m * 2 ^ 151 : ℕ) : ℝ) * (unit32 / 2) ^ 2 := by
    rw [show (2 : ℕ) ^ 151 = 2 ^ 149 * 4 from rfl, Nat.cast_mul, Nat.cast_mul]
    linear_combination (-(m : ℝ) * unit32) * unit32_mul_two_pow
  rw [h, Real.sqrt_mul (Nat.cast_nonneg _), Real.sqrt_sq (half_pos unit32_pos).le]
  ring

/-- The root of `n` is its rounded-down root `r`, or it lies in the cell that the sticky bit marks. -/
theorem nearest_half_sqrt {n r : ℕ} (hlo : r * r ≤ n) (hhi : n < (r + 1) * (r + 1)) :
    Nearest (√(n : ℝ) / 2 * unit32)
      (pack false (roundMag (2 * r + if r * r = n then 0 else 1) 4)) := by
  have hround : ∀ j : ℕ, Nearest (((2 * r + j : ℕ) : ℝ) / (4 : ℕ) * unit32)
      (pack false (roundMag (2 * r + j) 4)) := fun j =>
    nearest_pack false _ 4 _ (by decide) (by rw [signFactor, if_neg Bool.false_ne_true, one_mul])
  by_cases hsq : r * r = n
  · have hroot : √(n : ℝ) / 2 = ((2 * r + 0 : ℕ) : ℝ) / (4 : ℕ) := by
      rw [← hsq, Nat.cast_mul, Real.sqrt_mul_self (Nat.cast_nonneg r)]; push_cast; ring
    rw [if_pos hsq, hroot]
    exact hround 0
  · have hlo' : (r : ℝ) < √(n : ℝ) := by
      refine Real.lt_sqrt_of_sq_lt ?_
      rw [sq]; exact_mod_cast lt_of_le_of_ne hlo hsq
    have hhi' : √(n : ℝ) < r + 1 := by
      rw [Real.sqrt_lt' (by positivity), sq]; exact_mod_cast hhi
    have hcell : InCell r (√(n : ℝ) / 2) := ⟨by linarith, by linarith⟩
    have hsticky : InCell r (((2 * r + 1 : ℕ) : ℝ) / (4 : ℕ)) := by
      constructor <;> push_cast <;> linarith
    rw [if_neg hsq]
    exact nearest_of_inCell hsticky hcell (hround 1)

theorem nearest_sqrtMag {m : ℕ} (hm : m < 2 ^ 277) :
    Nearest (√((m : ℝ) * unit32)) (pack false (sqrtMag m)) := by
  have hbound : m * 2 ^ 151 < (0 + 2 ^ 215) * (0 + 2 ^ 215) :=
    calc m * 2 ^ 151 < 2 ^ 277 * 2 ^ 151 := Nat.mul_lt_mul_of_pos_right hm (Nat.pow_pos (by decide))
      _ ≤ (0 + 2 ^ 215) * (0 + 2 ^ 215) := by decide +kernel
  obtain ⟨hlo, hhi⟩ := isqrtFrom_spec 215 (m * 2 ^ 151) 0 (Nat.zero_le _) hbound
  rw [sqrt_units]
  exact nearest_half_sqrt hlo hhi

/-- Settles O4: a zero is its own root, and any other operand goes through `sqrtMag`. -/
theorem sqrtIsCorrectlyRounded : Obligations.SqrtIsCorrectlyRounded := by
  intro P a ha hv
  refine ⟨?_, fun h => sqrt32_of_isZero P (value_eq_zero.mp h)⟩
  cases hz : isZero a
  case true =>
    rw [sqrt32_of_isZero P hz, value_eq_zero.mpr hz, Real.sqrt_zero, eq_pack_of_isZero hz]
    have h0 := nearest_pack_int (signBit a) 0 (absurd rfl)
    rwa [Int.cast_zero, zero_mul, Int.natAbs_zero, roundMag_zero_left one_pos] at h0
  case false =>
    have hm : 0 < (mag a : ℝ) * unit32 := by
      have : mag a ≠ 0 := by simpa [isZero] using hz
      exact mul_pos (Nat.cast_pos.mpr (Nat.pos_of_ne_zero this)) unit32_pos
    rw [value_eq_signFactor] at hv ⊢
    cases hs : signBit a
    case true => rw [hs] at hv; simp only [signFactor, if_true] at hv; linarith
    case false =>
      rw [sqrt32_of_isFinite P ha hz hs, signFactor, if_neg Bool.false_ne_true, one_mul]
      exact nearest_sqrtMag (mag_lt ha)

end Sys2Proof.Machine
end

section
/-! PROOFS of 00_scope.md, the comparisons and the special operands: order, NaN results, infinities and
the sign function. -/

namespace Sys2Proof.Machine

open Safety

/-! ### The order of words that are no NaN -/

theorem lt32_iff {a b : Word} (ha : isNaN a = false) (hb : isNaN b = false) :
    lt32 a b = true ↔ val a < val b := by
  simp [lt32, ha, hb]

theorem le32_iff {a b : Word} (ha : isNaN a = false) (hb : isNaN b = false) :
    le32 a b = true ↔ val a ≤ val b := by
  simp [le32, ha, hb]

theorem value_lt_iff (a b : Word) : value a < value b ↔ val a < val b := by
  rw [value_eq_val, value_eq_val, mul_lt_mul_iff_left₀ unit32_pos, Int.cast_lt]

theorem isFinite_or_isInf {w : Word} (h : isNaN w = false) : isFinite w = true ∨ isInf w = true := by
  rcases word_class w with hf | hi | hn
  · exact .inl hf
  · exact .inr hi
  · rw [h] at hn; cases hn

/-- The value that the model gives the infinities, beyond every finite one. -/
def infVal : ℤ := (2 ^ 277 : ℕ)

theorem val_of_isInf {w : Word} (h : isInf w = true) :
    val w = if signBit w then -infVal else infVal := by
  rw [val, mag_of_isInf h]; rfl

theorem abs_val_lt {w : Word} (h : isFinite w = true) : -infVal < val w ∧ val w < infVal := by
  have hm : (mag w : ℤ) < infVal := Int.ofNat_lt.mpr (mag_lt h)
  rw [val]
  split <;> omega

theorem extendedValue_of_isFinite {w : Word} (h : isFinite w = true) :
    extendedValue w = (value w : EReal) := by
  rw [extendedValue, isInf_of_isFinite h, if_neg Bool.false_ne_true]

theorem extendedValue_of_isInf {w : Word} (h : isInf w = true) :
    extendedValue w = if signBit w then ⊥ else ⊤ := by
  rw [extendedValue, if_pos h]

/-- The model's integer values stand in the order of the extended reals. -/
theorem extendedValue_lt_iff {a b : Word} (ha : isNaN a = false) (hb : isNaN b = false) :
    extendedValue a < extendedValue b ↔ val a < val b := by
  have hinf : 0 < infVal := by
    have := abs_val_lt (w := pzero) (by decide)
    omega
  rcases isFinite_or_isInf ha with ha | ha <;> rcases isFinite_or_isInf hb with hb | hb
  · rw [extendedValue_of_isFinite ha, extendedValue_of_isFinite hb, EReal.coe_lt_coe_iff,
      value_lt_iff]
  · have hv := abs_val_lt ha
    rw [extendedValue_of_isFinite ha, extendedValue_of_isInf hb, val_of_isInf hb]
    cases signBit b
    · simpa using hv.2
    · simpa using hv.1.le
  · have hv := abs_val_lt hb
    rw [extendedValue_of_isFinite hb, extendedValue_of_isInf ha, val_of_isInf ha]
    cases signBit a
    · simpa using hv.2.le
    · simpa using hv.1
  · rw [extendedValue_of_isInf ha, extendedValue_of_isInf hb, val_of_isInf ha, val_of_isInf hb]
    cases signBit a <;> cases signBit b <;> simp [hinf, hinf.le]

/-- Settles O5: `lt32` and `le32` compare the model's integer values, `gt32` and `ge32` are these with
the operands exchanged. -/
theorem comparisonsOrderValues : Obligations.ComparisonsOrderValues := by
  have hext : ∀ a b, isNaN a = false → isNaN b = false →
      (lt32 a b = true ↔ extendedValue a < extendedValue b) ∧
      (le32 a b = true ↔ extendedValue a ≤ extendedValue b) := by
    intro a b ha hb
    rw [lt32_iff ha hb, le32_iff ha hb, extendedValue_lt_iff ha hb, ← not_lt (a := extendedValue b),
      extendedValue_lt_iff hb ha, not_lt]
    exact ⟨Iff.rfl, Iff.rfl⟩
  refine ⟨fun a b h => ⟨lt32_nan h, le32_nan h, lt32_nan h.symm, le32_nan h.symm⟩,
    fun a b ha hb => ?_, fun a ha => ?_, by decide +kernel, fun a b ha hb => ?_⟩
  · have hab := hext a b (isNaN_of_isFinite ha) (isNaN_of_isFinite hb)
    have hba := hext b a (isNaN_of_isFinite hb) (isNaN_of_isFinite ha)
    simp only [extendedValue_of_isFinite ha, extendedValue_of_isFinite hb, EReal.coe_lt_coe_iff,
      EReal.coe_le_coe_iff] at hab hba
    exact ⟨hab.1, hab.2, hba.1, hba.2⟩
  · have hv := abs_val_lt ha
    have hn := isNaN_of_isFinite ha
    rw [lt32_iff hn (by decide), lt32_iff (by decide) hn]
    exact ⟨lt_of_lt_of_eq hv.2 (by decide +kernel), lt_of_eq_of_lt (by decide +kernel) hv.1⟩
  · exact ⟨(hext a b ha hb).1, (hext a b ha hb).2, (hext b a hb ha).1, (hext b a hb ha).2⟩

/-! ### NaN results -/

/-- A result that is `NAN_RESULT` whenever it is a NaN. -/
def CanonicalNaN (P : Params) (r : Word) : Prop := isNaN r = true → r = P.nanResult

theorem canonicalNaN_nanResult (P : Params) : CanonicalNaN P P.nanResult := fun _ => rfl

theorem canonicalNaN_of_not_nan {P : Params} {r : Word} (h : isNaN r = false) :
    CanonicalNaN P r := fun hn => absurd hn (by rw [h]; exact Bool.false_ne_true)

theorem isNaN_pack_zero (neg : Bool) : isNaN (pack neg 0) = false := by cases neg <;> decide

theorem isNaN_pack_infBits (neg : Bool) : isNaN (pack neg infBits) = false := by
  cases neg <;> decide

theorem canonicalNaN_add32 (P : Params) (a b : Word) : CanonicalNaN P (add32 P a b) := by
  simp only [add32, Bool.or_eq_true]
  split_ifs with _ hia _ hib
  · exact canonicalNaN_nanResult P
  · exact canonicalNaN_nanResult P
  · exact canonicalNaN_of_not_nan (isNaN_of_isInf hia)
  · exact canonicalNaN_of_not_nan (isNaN_of_isInf hib)
  · exact canonicalNaN_of_not_nan (isNaN_pack_zero _)
  · exact canonicalNaN_of_not_nan (isNaN_pack_roundMag _ _ _)

theorem canonicalNaN_mul32 (P : Params) (a b : Word) : CanonicalNaN P (mul32 P a b) := by
  simp only [mul32]
  split_ifs
  · exact canonicalNaN_nanResult P
  · exact canonicalNaN_nanResult P
  · exact canonicalNaN_of_not_nan (isNaN_pack_infBits _)
  · exact canonicalNaN_of_not_nan (isNaN_pack_roundMag _ _ _)

theorem canonicalNaN_div32 (P : Params) (a b : Word) : CanonicalNaN P (div32 P a b) := by
  simp only [div32]
  split_ifs
  · exact canonicalNaN_nanResult P
  · exact canonicalNaN_nanResult P
  · exact canonicalNaN_of_not_nan (isNaN_pack_infBits _)
  · exact canonicalNaN_of_not_nan (isNaN_pack_zero _)
  · exact canonicalNaN_nanResult P
  · exact canonicalNaN_of_not_nan (isNaN_pack_infBits _)
  · exact canonicalNaN_of_not_nan (isNaN_pack_roundMag _ _ _)

theorem canonicalNaN_sqrt32 (P : Params) (a : Word) : CanonicalNaN P (sqrt32 P a) := by
  simp only [sqrt32]
  split_ifs with hn
  · exact canonicalNaN_nanResult P
  · exact canonicalNaN_of_not_nan (by simpa using hn)
  · exact canonicalNaN_nanResult P
  · exact canonicalNaN_of_not_nan (by simpa using hn)
  · exact canonicalNaN_of_not_nan (isNaN_pack_roundMag _ _ _)

/-! ### Invalid operations -/

theorem isZero_of_isInf {w : Word} (h : isInf w = true) : isZero w = false := by
  rcases eq_of_isInf h with rfl | rfl <;> decide +kernel

/-- There is one infinity of each sign. -/
theorem isInf_eq_of_signBit {a b : Word} (ha : isInf a = true) (hb : isInf b = true)
    (h : signBit a = signBit b) : a = b := by
  rcases eq_of_isInf ha with rfl | rfl <;> rcases eq_of_isInf hb with rfl | rfl
  · rfl
  · exact absurd h (by decide)
  · exact absurd h (by decide)
  · rfl

theorem add32_isInf_opposite {P : Params} {a b : Word} (ha : isInf a = true) (hb : isInf b = true)
    (h : signBit a ≠ signBit b) : add32 P a b = P.nanResult := by
  have : a = neg32 b := isInf_eq_of_signBit ha (by rw [isInf_neg32, hb]) (by
    rw [signBit_neg32]; exact Bool.eq_not_of_ne h)
  rw [this, add32_opposite_inf hb]

theorem mul32_inf_zero {P : Params} {a b : Word} (ha : isInf a = true) (hb : isZero b = true) :
    mul32 P a b = P.nanResult ∧ mul32 P b a = P.nanResult := by
  have hf := isFinite_of_isZero hb
  simp [mul32, isNaN_of_isInf ha, isNaN_of_isFinite hf, ha, hb]

theorem div32_inf_inf {P : Params} {a b : Word} (ha : isInf a = true) (hb : isInf b = true) :
    div32 P a b = P.nanResult := by
  simp [div32, isNaN_of_isInf ha, isNaN_of_isInf hb, ha, hb]

theorem div32_zero_zero {P : Params} {a b : Word} (ha : isZero a = true) (hb : isZero b = true) :
    div32 P a b = P.nanResult := by
  have hfa := isFinite_of_isZero ha
  have hfb := isFinite_of_isZero hb
  simp [div32, isNaN_of_isFinite hfa, isNaN_of_isFinite hfb, isInf_of_isFinite hfa,
    isInf_of_isFinite hfb, ha, hb]

theorem sqrt32_negative {P : Params} {a : Word} (h : lt32 a pzero = true) :
    sqrt32 P a = P.nanResult := by
  simp only [lt32, Bool.and_eq_true, Bool.not_eq_true', decide_eq_true_eq] at h
  obtain ⟨⟨hn, -⟩, hv⟩ := h
  rw [show val pzero = 0 by decide] at hv
  have hz : isZero a = false := by
    cases hz : isZero a
    · rfl
    · rw [val_zero_of_isZero hz] at hv; exact absurd hv (lt_irrefl _)
  have hs : signBit a = true := by
    cases hs : signBit a
    · rw [val, hs, if_neg Bool.false_ne_true] at hv; omega
    · rfl
  simp [sqrt32, hn, hz, hs]

theorem neg32_getLsbD (a : Word) {i : Nat} (hi : i < 32) :
    (neg32 a).getLsbD i = if i = 31 then !a.getLsbD 31 else a.getLsbD i := by
  have hmask : (0x80000000#32) = BitVec.twoPow 32 31 := rfl
  rw [neg32, hmask, BitVec.getLsbD_xor, BitVec.getLsbD_twoPow]
  by_cases h : i = 31
  · subst h; simp
  · simp [h, Ne.symm h]

/-- Settles O6: one lemma for each invalid operation, and one for each primitive that its other
results are no NaN. -/
theorem nanResultsAreCanonical : Obligations.NanResultsAreCanonical := by
  refine ⟨fun P a b => ?_, rfl, fun a i => neg32_getLsbD a⟩
  refine ⟨fun h => ⟨add32_nan h, sub32_nan h, mul32_nan h, div32_nan h⟩, sqrt32_nan,
    fun ha hb => ⟨div32_inf_inf ha hb, add32_isInf_opposite ha hb, fun hs => ?_⟩, mul32_inf_zero,
    div32_zero_zero, sqrt32_negative, canonicalNaN_add32 P a b, canonicalNaN_add32 P a (neg32 b),
    canonicalNaN_mul32 P a b, canonicalNaN_div32 P a b, canonicalNaN_sqrt32 P a⟩
  exact add32_isInf_opposite ha (by rw [isInf_neg32, hb]) (by simp [hs])

/-! ### Infinities and zero divisors -/

theorem ne_neg32_of_isInf_of_isFinite {a b : Word} (ha : isInf a = true) (hb : isFinite b = true) :
    b ≠ neg32 a := by
  rintro rfl
  rw [isFinite_neg32] at hb
  rw [isInf_of_isFinite hb] at ha; cases ha

theorem mul32_of_isInf {P : Params} {a b : Word} (ha : isInf a = true) (hb : isNaN b = false)
    (hz : isZero b = false) :
    mul32 P a b = pack (signBit a ^^ signBit b) infBits ∧
      mul32 P b a = pack (signBit a ^^ signBit b) infBits := by
  simp [mul32, isNaN_of_isInf ha, hb, ha, hz, isZero_of_isInf ha, Bool.xor_comm (signBit b)]

theorem div32_of_isInf {P : Params} {a b : Word} (ha : isInf a = true) (hb : isFinite b = true) :
    div32 P a b = pack (signBit a ^^ signBit b) infBits ∧
      div32 P b a = pack (signBit a ^^ signBit b) 0 := by
  simp [div32, isNaN_of_isInf ha, isNaN_of_isFinite hb, ha, isInf_of_isFinite hb,
    Bool.xor_comm (signBit b)]

theorem div32_by_zero {P : Params} {a b : Word} (ha : isFinite a = true) (hz : isZero a = false)
    (hb : isZero b = true) : div32 P a b = pack (signBit a ^^ signBit b) infBits := by
  have hf := isFinite_of_isZero hb
  simp [div32, isNaN_of_isFinite ha, isNaN_of_isFinite hf, isInf_of_isFinite ha,
    isInf_of_isFinite hf, hz, hb]

/-- Settles O7: a sum is the infinity in it, since the other operand is not the opposite infinity; the
products and quotients have a lemma each. -/
theorem infinitiesFollowIEEE : Obligations.InfinitiesFollowIEEE := by
  intro P a b
  refine ⟨fun ha hb => ?_, fun ha hb hs => ?_, mul32_of_isInf, div32_of_isInf, div32_by_zero, rfl⟩
  · have hb' : isFinite (neg32 b) = true := by rw [isFinite_neg32, hb]
    have ha' : isInf (neg32 a) = true := by rw [isInf_neg32, ha]
    refine ⟨?_, ?_, ?_, ?_⟩
    · exact add32_of_isInf_left ha (isNaN_of_isFinite hb) (ne_neg32_of_isInf_of_isFinite ha hb)
    · exact add32_of_isInf_right ha (isNaN_of_isFinite hb) (ne_neg32_of_isInf_of_isFinite ha hb)
    · exact add32_of_isInf_left ha (isNaN_of_isFinite hb') (ne_neg32_of_isInf_of_isFinite ha hb')
    · exact add32_of_isInf_right ha' (isNaN_of_isFinite hb) (ne_neg32_of_isInf_of_isFinite ha' hb)
  · obtain rfl := isInf_eq_of_signBit ha hb hs
    refine add32_of_isInf_left ha (isNaN_of_isInf ha) fun h => ?_
    have := congrArg signBit h
    rw [signBit_neg32] at this
    cases hsa : signBit a <;> rw [hsa] at this <;> cases this

/-! ### The sign function -/

/-- Settles O8: `gt32` and `lt32` exclude each other and the NaN. -/
theorem signFunctionHasFourCases : Obligations.SignFunctionHasFourCases := by
  intro v
  have hnan : ∀ {w : Word}, lt32 v w = true ∨ lt32 w v = true → isNaN v = false := by
    intro w h
    cases hn : isNaN v
    · rfl
    · rw [lt32_nan (.inl hn), lt32_nan (.inr hn)] at h; simp at h
  refine ⟨fun hn => ?_, fun hg => ?_, fun hl => ?_, fun hn hg hl => ?_⟩
  · rw [sgn32, if_pos hn]
  · rw [sgn32, hnan (.inr hg), if_neg Bool.false_ne_true, if_pos hg]; rfl
  · have hn := hnan (.inl hl)
    have hg : gt32 v pzero = false := by
      rw [← Bool.not_eq_true, gt32, lt32_iff (by decide) hn]
      rw [lt32_iff hn (by decide)] at hl
      exact hl.not_gt
    rw [sgn32, hn, hg, if_neg Bool.false_ne_true, if_neg Bool.false_ne_true, if_pos hl]; rfl
  · rw [sgn32, hn, hg, hl]; rfl

end Sys2Proof.Machine
end

section
/-! PROOFS of 00_scope.md, the parameters and the oscillator: this block's constants, the three
requirements of R17, and the distance from the real cosine and sine. -/

namespace Sys2Proof.Machine

open Safety

/-- Settles O10; the base address is 256 times an opaque page. -/
theorem blockParametersAreAdmissible : Obligations.BlockParametersAreAdmissible := by
  refine ⟨by decide +kernel, ?_, rfl, rfl⟩
  have hbase : thisBlock.blockBase % 256 = 0 := Nat.mul_mod_right 256 _
  have hgains : (gt32 thisBlock.pllKp pzero && gt32 thisBlock.pllKi pzero &&
      gt32 thisBlock.pllWmax pzero && isQuietNaN thisBlock.nanResult) = true := by decide +kernel
  rw [loopWf, hgains, hbase]; rfl

/-! ### The oscillator, one equation for each quarter turn -/

theorem ddsQuadrant_cases (w : Word) :
    ddsQuadrant w = 0 ∨ ddsQuadrant w = 1 ∨ ddsQuadrant w = 2 ∨ ddsQuadrant w = 3 := by
  have hq : ddsQuadrant w < 4 := Nat.mod_lt _ (by decide)
  omega

theorem ddsCos_cases {w : Word} (hf : isFinite w = true) :
    (ddsQuadrant w = 0 ∧ ddsCos w = ddsRound false (ddsCosFix (ddsReduced w))) ∨
    (ddsQuadrant w = 1 ∧ ddsCos w = ddsRound true (ddsSinFix (ddsReduced w))) ∨
    (ddsQuadrant w = 2 ∧ ddsCos w = ddsRound true (ddsCosFix (ddsReduced w))) ∨
    (ddsQuadrant w = 3 ∧ ddsCos w = ddsRound false (ddsSinFix (ddsReduced w))) := by
  rw [ddsCos, hf]
  rcases ddsQuadrant_cases w with hq | hq | hq | hq <;> rw [hq]
  · exact .inl ⟨rfl, rfl⟩
  · exact .inr (.inl ⟨rfl, rfl⟩)
  · exact .inr (.inr (.inl ⟨rfl, rfl⟩))
  · exact .inr (.inr (.inr ⟨rfl, rfl⟩))

theorem ddsSin_cases {w : Word} (hf : isFinite w = true) :
    (ddsQuadrant w = 0 ∧ ddsSin w = ddsRound (signBit w) (ddsSinFix (ddsReduced w))) ∨
    (ddsQuadrant w = 1 ∧ ddsSin w = ddsRound (signBit w) (ddsCosFix (ddsReduced w))) ∨
    (ddsQuadrant w = 2 ∧ ddsSin w = ddsRound (!signBit w) (ddsSinFix (ddsReduced w))) ∨
    (ddsQuadrant w = 3 ∧ ddsSin w = ddsRound (!signBit w) (ddsCosFix (ddsReduced w))) := by
  rw [ddsSin, hf]
  rcases ddsQuadrant_cases w with hq | hq | hq | hq <;> rw [hq]
  · exact .inl ⟨rfl, rfl⟩
  · exact .inr (.inl ⟨rfl, rfl⟩)
  · exact .inr (.inr (.inl ⟨rfl, rfl⟩))
  · exact .inr (.inr (.inr ⟨rfl, rfl⟩))

/-! ### Results in [-1, 1] -/

/-- The magnitude bits of 1.0. -/
def oneBits : ℕ := 0x3F800000

theorem magBits_oneBits : magBits oneBits = 2 ^ 149 := by decide +kernel

theorem inUnit_pack (neg : Bool) {m : ℕ} (h : m ≤ oneBits) : inUnit (pack neg m) = true := by
  have hfin : m < infBits := lt_of_le_of_lt h (by decide)
  have hm : m < 2 ^ 31 := lt_trans hfin (by decide)
  have hn := isNaN_of_isFinite ((isFinite_pack (neg := neg) hm).mpr hfin)
  have hone : val one = (magBits oneBits : ℤ) := by decide +kernel
  have hle : (magBits m : ℤ) ≤ magBits oneBits :=
    Int.ofNat_le.mpr (magBits_strictMono.monotone h)
  have hval : -val one ≤ val (pack neg m) ∧ val (pack neg m) ≤ val one := by
    rw [hone, val, signBit_pack hm, mag_pack hm]
    cases neg
    · simp only [Bool.false_eq_true, if_false]; omega
    · simp only [if_true]; omega
  simpa [inUnit, le32, hn, show isNaN one = false by decide] using hval

theorem inUnit_ddsRound (neg : Bool) {v : ℕ} (hv : v ≤ ddsOne) :
    inUnit (ddsRound neg v) = true := by
  refine inUnit_pack neg (roundMag_le_of_le (Nat.pow_pos (by decide)) (hv.trans (le_of_eq ?_)))
  rw [magBits_oneBits, ddsOne, ← pow_add]

theorem inUnit_ddsCos {w : Word} (hf : isFinite w = true) : inUnit (ddsCos w) = true := by
  rcases ddsCos_cases hf with ⟨-, h⟩ | ⟨-, h⟩ | ⟨-, h⟩ | ⟨-, h⟩ <;> rw [h]
  · exact inUnit_ddsRound _ (ddsCosFix_le _)
  · exact inUnit_ddsRound _ (ddsSinFix_le _)
  · exact inUnit_ddsRound _ (ddsCosFix_le _)
  · exact inUnit_ddsRound _ (ddsSinFix_le _)

theorem inUnit_ddsSin {w : Word} (hf : isFinite w = true) : inUnit (ddsSin w) = true := by
  rcases ddsSin_cases hf with ⟨-, h⟩ | ⟨-, h⟩ | ⟨-, h⟩ | ⟨-, h⟩ <;> rw [h]
  · exact inUnit_ddsRound _ (ddsSinFix_le _)
  · exact inUnit_ddsRound _ (ddsCosFix_le _)
  · exact inUnit_ddsRound _ (ddsSinFix_le _)
  · exact inUnit_ddsRound _ (ddsCosFix_le _)

/-- Settles O11: at +0.0 by evaluation, elsewhere since rounding a number of [0, 1] stays there. -/
theorem oscillatorMeetsItsRequirements : Obligations.OscillatorMeetsItsRequirements where
  cos_zero := by decide +kernel
  sin_zero := by decide +kernel
  cos_nan w h := by
    rw [show thisBlock.ddsCos w = ddsCos w from rfl, ddsCos_of_not_finite h]; decide
  sin_nan w h := by
    rw [show thisBlock.ddsSin w = ddsSin w from rfl, ddsSin_of_not_finite h]; decide
  cos_unit _ := inUnit_ddsCos
  sin_unit _ := inUnit_ddsSin

/-! ### The distance from the real functions -/

/-- The angle that the oscillator evaluates: whole quarter turns of the circle and the exact rest. -/
noncomputable def quarterAngle (w : Word) : ℝ :=
  (ddsQuadrant w : ℕ) * (Real.pi / 2) + fixValue (ddsReduced w)

/-- Reducing by the truncated pi/2 moves an angle of up to 2^20 by less than 10^-13. -/
theorem quarterAngle_near {w : Word} (h : |value w| ≤ 2 ^ 20) :
    |Real.cos |value w| - Real.cos (quarterAngle w)| ≤ 1 / 10 ^ 13 ∧
      |Real.sin |value w| - Real.sin (quarterAngle w)| ≤ 1 / 10 ^ 13 := by
  obtain ⟨hsplit, hr0, -⟩ := ddsReduced_spec w
  obtain ⟨hcos, hsin⟩ :=
    quarter_turns (ddsAngle w / ddsHalfPi) (fixValue (ddsReduced w))
  rw [quarterAngle, ddsQuadrant, ← hcos, ← hsin]
  set q : ℝ := ((ddsAngle w / ddsHalfPi : ℕ) : ℝ)
  have hq0 : 0 ≤ q := Nat.cast_nonneg _
  have hpi := ddsHalfPi_near
  have hq : q ≤ 2 ^ 20 := by
    have : 1 ≤ fixValue ddsHalfPi := by
      have := Real.pi_gt_three
      have := (abs_le.mp hpi).1
      norm_num at this; linarith
    nlinarith
  have hdist : |(|value w|) - (q * (Real.pi / 2) + fixValue (ddsReduced w))| ≤ 1 / 10 ^ 13 := by
    rw [hsplit, add_sub_add_right_eq_sub, ← mul_sub, abs_mul, abs_of_nonneg hq0]
    calc q * |fixValue ddsHalfPi - Real.pi / 2| ≤ 2 ^ 20 * (1 / 10 ^ 20) := by gcongr
      _ ≤ 1 / 10 ^ 13 := by norm_num
  exact ⟨(Real.abs_cos_sub_cos_le _ _).trans hdist, (Real.abs_sin_sub_sin_le _ _).trans hdist⟩

/-- The error of the evaluation and the one rounding, for every finite angle. -/
theorem ddsCos_near_quarterAngle {w : Word} (hf : isFinite w = true) :
    |value (ddsCos w) - Real.cos (quarterAngle w)| ≤ 2 ^ (-25 : ℤ) + 1 / 10 ^ 18 := by
  obtain ⟨-, -, hr⟩ := ddsReduced_spec w
  obtain ⟨⟨h1, -⟩, ⟨h2, -⟩, ⟨h3, -⟩⟩ := quarter_cases (fixValue (ddsReduced w))
  have hcos := fun neg => ddsRound_total neg (ddsCosFix_le _) (ddsCosFix_near hr)
  have hsin := fun neg => ddsRound_total neg (ddsSinFix_le _) (ddsSinFix_near_abs hr)
  rw [quarterAngle]
  rcases ddsCos_cases hf with ⟨hq, h⟩ | ⟨hq, h⟩ | ⟨hq, h⟩ | ⟨hq, h⟩ <;> rw [hq, h]
  · simpa [signFactor] using hcos false
  · rw [h1]; simpa [signFactor] using hsin true
  · rw [h2]; simpa [signFactor] using hcos true
  · rw [h3]; simpa [signFactor] using hsin false

theorem ddsSin_near_quarterAngle {w : Word} (hf : isFinite w = true) :
    |value (ddsSin w) - signFactor (signBit w) * Real.sin (quarterAngle w)| ≤
      2 ^ (-25 : ℤ) + 1 / 10 ^ 18 := by
  obtain ⟨-, -, hr⟩ := ddsReduced_spec w
  obtain ⟨⟨-, h1⟩, ⟨-, h2⟩, ⟨-, h3⟩⟩ := quarter_cases (fixValue (ddsReduced w))
  have hcos := fun neg => ddsRound_total neg (ddsCosFix_le _) (ddsCosFix_near hr)
  have hsin := fun neg => ddsRound_total neg (ddsSinFix_le _) (ddsSinFix_near_abs hr)
  rw [quarterAngle]
  rcases ddsSin_cases hf with ⟨hq, h⟩ | ⟨hq, h⟩ | ⟨hq, h⟩ | ⟨hq, h⟩ <;> rw [hq, h]
  · simpa using hsin (signBit w)
  · rw [h1]; exact hcos (signBit w)
  · rw [h2, mul_neg, ← neg_mul, ← signFactor_not]; exact hsin (!signBit w)
  · rw [h3, mul_neg, ← neg_mul, ← signFactor_not]; exact hcos (!signBit w)

theorem sin_value (w : Word) :
    Real.sin (value w) = signFactor (signBit w) * Real.sin |value w| := by
  have habs : |value w| = (mag w : ℝ) * unit32 := by
    rw [value_eq_signFactor, abs_mul, abs_signFactor, one_mul,
      abs_of_nonneg (mul_nonneg (Nat.cast_nonneg _) unit32_pos.le)]
  rw [habs, value_eq_signFactor]
  cases signBit w <;> simp [signFactor]

theorem ddsCos_near {w : Word} (hf : isFinite w = true) (h : |value w| ≤ 2 ^ 20) :
    |value (ddsCos w) - Real.cos (value w)| ≤ 2 ^ (-24 : ℤ) := by
  have hround := ddsCos_near_quarterAngle hf
  have hred := (quarterAngle_near h).1
  rw [Real.cos_abs, abs_sub_comm] at hred
  calc |value (ddsCos w) - Real.cos (value w)|
      ≤ |value (ddsCos w) - Real.cos (quarterAngle w)| +
          |Real.cos (quarterAngle w) - Real.cos (value w)| := abs_sub_le _ _ _
    _ ≤ (2 ^ (-25 : ℤ) + 1 / 10 ^ 18) + 1 / 10 ^ 13 := add_le_add hround hred
    _ ≤ 2 ^ (-24 : ℤ) := by norm_num

theorem ddsSin_near {w : Word} (hf : isFinite w = true) (h : |value w| ≤ 2 ^ 20) :
    |value (ddsSin w) - Real.sin (value w)| ≤ 2 ^ (-24 : ℤ) := by
  have hround := ddsSin_near_quarterAngle hf
  have hred : |signFactor (signBit w) * Real.sin (quarterAngle w) - Real.sin (value w)| ≤
      1 / 10 ^ 13 := by
    rw [sin_value, ← mul_sub, abs_mul, abs_signFactor, one_mul, abs_sub_comm]
    exact (quarterAngle_near h).2
  calc |value (ddsSin w) - Real.sin (value w)|
      ≤ |value (ddsSin w) - signFactor (signBit w) * Real.sin (quarterAngle w)| +
          |signFactor (signBit w) * Real.sin (quarterAngle w) - Real.sin (value w)| :=
        abs_sub_le _ _ _
    _ ≤ (2 ^ (-25 : ℤ) + 1 / 10 ^ 18) + 1 / 10 ^ 13 := add_le_add hround hred
    _ ≤ 2 ^ (-24 : ℤ) := by norm_num

/-! ### Small angles -/

/-- An angle of at most 1 lies in the first quarter turn, and is its own rest. -/
theorem ddsQuadrant_of_abs_le_one {w : Word} (h : |value w| ≤ 1) :
    ddsQuadrant w = 0 ∧ fixValue (ddsReduced w) = |value w| := by
  have hN : (0 : ℝ) < ddsOne := Nat.cast_pos.mpr ddsOne_pos
  have hangle : ddsAngle w < ddsHalfPi := by
    rw [← fixValue_ddsAngle, fixValue, div_le_one hN, Nat.cast_le] at h
    exact lt_of_le_of_lt h (by decide +kernel)
  rw [ddsQuadrant, ddsReduced, Nat.div_eq_of_lt hangle, Nat.mod_eq_of_lt hangle, fixValue_ddsAngle]
  exact ⟨rfl, rfl⟩

theorem one_div_ddsOne_le_zpow : (1 : ℝ) / ddsOne ≤ 2 ^ (-160 : ℤ) := by
  have h : (2 : ℝ) ^ 160 ≤ ddsOne := by
    rw [ddsOne_cast, ← pow_add]
    exact pow_le_pow_right₀ one_le_two (by decide)
  rw [zpow_neg, ← one_div]
  exact one_div_le_one_div_of_le (by positivity) h

/-- The one rounding is relative to the result, and the evaluation's error shrinks with the angle. -/
theorem ddsSin_near_small {w : Word} (hf : isFinite w = true) (h : |value w| ≤ 1) :
    |value (ddsSin w) - Real.sin (value w)| ≤
      2 ^ (-23 : ℤ) * |value w| + 2 ^ (-149 : ℤ) := by
  obtain ⟨hq, hr⟩ := ddsQuadrant_of_abs_le_one h
  have hsin : ddsSin w = ddsRound (signBit w) (ddsSinFix (ddsReduced w)) := by
    rcases ddsSin_cases hf with ⟨-, hs⟩ | ⟨hq', -⟩ | ⟨hq', -⟩ | ⟨hq', -⟩
    · exact hs
    all_goals rw [hq] at hq'; cases hq'
  have hround := ddsRound_rel (signBit w) (ddsSinFix_le (ddsReduced w))
  have hfix := ddsSinFix_near (r := ddsReduced w) (by rw [hr]; exact h.trans (by norm_num))
  have hN := one_div_ddsOne_le_zpow
  rw [hr] at hfix
  set x := |value w|
  set y := fixValue (ddsSinFix (ddsReduced w))
  have hx : 0 ≤ x := abs_nonneg _
  have hfix' : |y - Real.sin x| ≤ 7 * 2 ^ (-160 : ℤ) + x * 2 ^ (-100 : ℤ) := by
    refine hfix.trans (add_le_add (by gcongr) (le_of_eq ?_))
    norm_num
  have hy : y ≤ x + (7 * 2 ^ (-160 : ℤ) + x * 2 ^ (-100 : ℤ)) := by
    have := (abs_le.mp hfix').2
    have := Real.sin_le hx
    linarith
  calc |value (ddsSin w) - Real.sin (value w)|
      = |(value (ddsRound (signBit w) (ddsSinFix (ddsReduced w))) - signFactor (signBit w) * y) +
          signFactor (signBit w) * (y - Real.sin x)| := by rw [hsin, sin_value]; congr 1; ring
    _ ≤ (2 ^ (-24 : ℤ) * y + 2 ^ (-150 : ℤ)) + |y - Real.sin x| := by
        refine (abs_add_le _ _).trans (add_le_add hround (le_of_eq ?_))
        rw [abs_mul, abs_signFactor, one_mul]
    _ ≤ 2 ^ (-23 : ℤ) * x + 2 ^ (-149 : ℤ) := by norm_num at hfix' hy ⊢; linarith

/-- Settles O60: the reduction, the fixed-point evaluation and the rounding, each with its error. -/
theorem oscillatorIsNearCosineAndSine : Obligations.OscillatorIsNearCosineAndSine :=
  fun _ hf => ⟨fun h => ⟨ddsCos_near hf h, ddsSin_near hf h⟩, ddsSin_near_small hf⟩

end Sys2Proof.Machine
end

section
/-! PROOFS of 10_state.md, what a step does: the steps that answer a next state as one relation, with the
commands that succeed as a second one. Every whole-machine rule below is a case split over the two. -/

namespace Sys2Proof.Machine

/-! ### A word that decodes is the word of its command (30_encoding.md R95) -/

theorem encode_of_formatS {w : Word} {i j : Instr} (he : encode i = wordS (opField w))
    (h : formatS w i = .command j) : encode j = w := by
  obtain ⟨hr, rfl⟩ := formatS_eq_command.mp h
  rw [he, wordS_opField hr]

theorem encode_of_formatC {w : Word} {create : BitVec 2 → Bool → Instr} {j : Instr}
    (he : ∀ sb sc, encode (create sb sc) = wordC (opField w) sb sc)
    (h : formatC w create = .command j) : encode j = w := by
  obtain ⟨hr, rfl⟩ := formatC_eq_command.mp h
  rw [he, wordC_fields hr]

theorem encode_of_decode {w : Word} {i : Instr} (h : decode w = .command i) : encode i = w := by
  unfold decode at h
  split at h
  · next ho => exact encode_of_formatS (by rw [ho]; rfl) h
  split at h
  · next ho => exact encode_of_formatC (fun _ _ => by rw [ho]; rfl) h
  split at h
  · next ho => exact encode_of_formatS (by rw [ho]; rfl) h
  split at h
  · next ho => exact encode_of_formatS (by rw [ho]; rfl) h
  split at h
  · next ho => exact encode_of_formatC (fun _ _ => by rw [ho]; rfl) h
  split at h
  · next ho => exact encode_of_formatS (by rw [ho]; rfl) h
  split at h
  · next ho => exact encode_of_formatS (by rw [ho]; rfl) h
  · cases h

/-! ### The commands that succeed -/

/-- `Succeeds s i u`: the checks of 40_common.md R110 let command `i` pass in `s`, and `u` is the state
that it has computed when it completes with code 0. -/
inductive Succeeds (s : State) : Instr → State → Prop where
  | nop : Succeeds s .nop s
  | modCreate (sb : BitVec 2) (sc : Bool) (idle : s.mod.created = false)
      (valid : validConfig s.midx sb = true) :
      Succeeds s (.modCreate sb sc) { s with mod := modCreateUnit thisBlock s.midx s.cfo sb sc }
  | modStep (live : s.mod.created = true) :
      Succeeds s .modStep { s with mod := modStepUnit thisBlock s.modX s.mod }
  | modDestroy (live : s.mod.created = true) :
      Succeeds s .modDestroy { s with mod := initMod thisBlock }
  | demCreate (sb : BitVec 2) (sc : Bool) (idle : s.dem.created = false)
      (valid : validConfig s.midx sb = true) :
      Succeeds s (.demCreate sb sc) { s with dem := demCreateUnit thisBlock s.midx s.cfo sb sc }
  | demStep (live : s.dem.created = true) :
      Succeeds s .demStep { s with dem := demStepUnit thisBlock s.demYre s.demYim s.dem }
  | demDestroy (live : s.dem.created = true) :
      Succeeds s .demDestroy { s with dem := initDem thisBlock }

/-- A command records an error and does nothing else, or it succeeds (60_exceptions.md R220). -/
theorem exec_fails_or_succeeds (i : Instr) (s : State) :
    (∃ c, exec i s = .next (raiseError c s)) ∨
    ∃ u, Succeeds s i u ∧ exec i s = .next (complete .none u) := by
  cases i with
  | nop => exact .inr ⟨s, .nop, rfl⟩
  | modCreate sb sc =>
    obtain ⟨-, h⟩ | ⟨-, -, h⟩ | ⟨hc, hv, h⟩ := execModCreate_cases sb sc s
    · exact .inl ⟨_, h⟩
    · exact .inl ⟨_, h⟩
    · exact .inr ⟨_, .modCreate sb sc hc hv, h⟩
  | modStep =>
    obtain ⟨-, h⟩ | ⟨hc, h⟩ := execModStep_cases s
    · exact .inl ⟨_, h⟩
    · exact .inr ⟨_, .modStep hc, h⟩
  | modDestroy =>
    obtain ⟨-, h⟩ | ⟨hc, h⟩ := execModDestroy_cases s
    · exact .inl ⟨_, h⟩
    · exact .inr ⟨_, .modDestroy hc, h⟩
  | demCreate sb sc =>
    obtain ⟨-, h⟩ | ⟨-, -, h⟩ | ⟨hc, hv, h⟩ := execDemCreate_cases sb sc s
    · exact .inl ⟨_, h⟩
    · exact .inl ⟨_, h⟩
    · exact .inr ⟨_, .demCreate sb sc hc hv, h⟩
  | demStep =>
    obtain ⟨-, h⟩ | ⟨hc, h⟩ := execDemStep_cases s
    · exact .inl ⟨_, h⟩
    · exact .inr ⟨_, .demStep hc, h⟩
  | demDestroy =>
    obtain ⟨-, h⟩ | ⟨hc, h⟩ := execDemDestroy_cases s
    · exact .inl ⟨_, h⟩
    · exact .inr ⟨_, .demDestroy hc, h⟩

/-- What a word written to `CMD` does: it records an error, or it is the word of a command that
succeeds. -/
theorem execute_fails_or_succeeds {w : Word} {s t : State} (h : execute w s = .next t) :
    (∃ c, t = raiseError c s) ∨ ∃ i u, encode i = w ∧ Succeeds s i u ∧ t = complete .none u := by
  obtain ⟨i, hd, hx⟩ | ⟨why, -, hx⟩ := execute_cases w s
  · obtain ⟨c, hc⟩ | ⟨u, hu, hc⟩ := exec_fails_or_succeeds i s
    · rw [hx, hc] at h; cases h
      exact .inl ⟨c, rfl⟩
    · rw [hx, hc] at h; cases h
      exact .inr ⟨i, u, encode_of_decode hd, hu, rfl⟩
  · rw [hx] at h; cases h
    exact .inl ⟨_, rfl⟩

/-! ### The steps -/

/-- `Performs s e t`: the event `e`, taken off the pending ones of `s`, leaves `t`. A failed command may
have been any word, legal or not. -/
inductive Performs (s : State) : HostEvent → State → Prop where
  | reset : Performs s .reset (blockReset thisBlock (dropEvent s))
  | read (off : Nat) (dst : Option Nat) : Performs s (hostRead off dst)
      { dropEvent s with hostSide := takeRead dst (memRead thisBlock s off) (dropEvent s).hostSide }
  | write {off : Nat} {v : Value} {w : Word} (adm : admitted off 4 = true)
      (word : valueOf s.hostSide.vars v = some w) :
      Performs s (hostWrite off v) (writeReg (regAt off) w (dropEvent s))
  | failed {v : Value} {w : Word} (c : ErrCode) (word : valueOf s.hostSide.vars v = some w) :
      Performs s (hostWrite (regOffset .cmd) v) (raiseError c (dropEvent s))
  | done {v : Value} {i : Instr} {u : State} (word : valueOf s.hostSide.vars v = some (encode i))
      (ok : Succeeds (dropEvent s) i u) :
      Performs s (hostWrite (regOffset .cmd) v) (complete .none u)

theorem performs_of_step {s t : State} {e : HostEvent} {rest : List HostEvent}
    (hp : s.hostSide.pending = e :: rest) (h : step s = .next t) : Performs s e t := by
  obtain ⟨hn, -⟩ | ⟨e', rest', hp', hcase⟩ := step_cases h
  · rw [hp] at hn; cases hn
  rw [hp] at hp'; cases hp'
  obtain ⟨rfl, rfl⟩ | ⟨off, dst, rfl, -, rfl⟩ | ⟨off, v, w, rfl, ha, hv, -, rfl⟩ |
    ⟨v, w, rfl, hv, hx⟩ := hcase
  · exact .reset
  · exact .read off dst
  · exact .write ha hv
  · obtain ⟨c, rfl⟩ | ⟨i, u, rfl, hu, rfl⟩ := execute_fails_or_succeeds hx
    · exact .failed c hv
    · exact .done hv hu

/-- A step either does nothing, with nothing pending, or performs an event. -/
theorem eq_or_performs_of_step {s t : State} (h : step s = .next t) :
    t = s ∨ ∃ e, Performs s e t := by
  cases hp : s.hostSide.pending with
  | nil => simp only [step, hp] at h; cases h; exact .inl rfl
  | cons e rest => exact .inr ⟨e, performs_of_step hp h⟩

/-! ### What a successful command leaves unchanged -/

theorem Succeeds.status {s u : State} {i : Instr} (h : Succeeds s i u) : u.status = s.status := by
  cases h <;> rfl
theorem Succeeds.errflags {s u : State} {i : Instr} (h : Succeeds s i u) : u.errflags = s.errflags := by
  cases h <;> rfl
theorem Succeeds.hostSide {s u : State} {i : Instr} (h : Succeeds s i u) : u.hostSide = s.hostSide := by
  cases h <;> rfl

/-! ### What a step command leaves unchanged of its unit -/

section
variable (P : Params) (x yr yi : Word) (u : ModUnit) (d : DemUnit)

@[simp] theorem modStepUnit_created : (modStepUnit P x u).created = u.created := by
  unfold modStepUnit; split <;> rfl
@[simp] theorem modStepUnit_m : (modStepUnit P x u).m = u.m := by unfold modStepUnit; split <;> rfl
@[simp] theorem modStepUnit_cfo : (modStepUnit P x u).cfo = u.cfo := by
  unfold modStepUnit; split <;> rfl
@[simp] theorem modStepUnit_sb : (modStepUnit P x u).sb = u.sb := by unfold modStepUnit; split <;> rfl
@[simp] theorem modStepUnit_sc : (modStepUnit P x u).sc = u.sc := by unfold modStepUnit; split <;> rfl

/-- A demodulator step in the coherent mode. -/
theorem demStepUnit_coherent (hb : d.sb = 0#2) (hc : d.sc = true) :
    demStepUnit P yr yi d = { coherent P yr yi d with nidx := nextIndex d.nidx } := by
  simp [demStepUnit, hb, hc]

/-- A demodulator step in the envelope mode. -/
theorem demStepUnit_envelope (hb : d.sb = 0#2) (hc : d.sc = false) :
    demStepUnit P yr yi d = { d with z := envelope P d.m yr yi, nidx := nextIndex d.nidx } := by
  simp [demStepUnit, hb, hc]

/-- A demodulator step with a single sideband. -/
theorem demStepUnit_sideband (hb : d.sb ≠ 0#2) :
    demStepUnit P yr yi d = { sideband P yr yi d with nidx := nextIndex d.nidx } := by
  simp [demStepUnit, hb]

@[simp] theorem demStepUnit_created : (demStepUnit P yr yi d).created = d.created := by
  simp only [demStepUnit]; split_ifs <;> rfl
@[simp] theorem demStepUnit_m : (demStepUnit P yr yi d).m = d.m := by
  simp only [demStepUnit]; split_ifs <;> rfl
@[simp] theorem demStepUnit_cfo : (demStepUnit P yr yi d).cfo = d.cfo := by
  simp only [demStepUnit]; split_ifs <;> rfl
@[simp] theorem demStepUnit_sb : (demStepUnit P yr yi d).sb = d.sb := by
  simp only [demStepUnit]; split_ifs <;> rfl
@[simp] theorem demStepUnit_sc : (demStepUnit P yr yi d).sc = d.sc := by
  simp only [demStepUnit]; split_ifs <;> rfl

end

end Sys2Proof.Machine
end

section
/-! PROOFS of 10_state.md, the whole-machine rules: reserved offsets, the life of a unit and of its
configuration, and the error registers. -/

namespace Sys2Proof.Machine

open Safety

/-! ### Reserved offsets (10_state.md R59) -/

theorem regAt_of_reserved {off : Nat} (h : off ∈ [0x01C, 0x03C, 0x074, 0x078, 0x07C]) :
    regAt off = .reserved off ∧ admitted off 4 = true := by
  revert off; decide

/-- Settles O24: the register map names each of the five offsets a reserved register. -/
theorem reservedOffsetsReadZero : Obligations.ReservedOffsetsReadZero := by
  refine ⟨fun off v s h => ?_, fun off n hoff => ?_⟩
  · obtain ⟨hr, ha⟩ := regAt_of_reserved h
    refine ⟨by rw [memRead, hr]; exact readReg_zero _ _ _ (.inr rfl), ?_⟩
    have hw : writeReg (regAt off) v s = s := writeReg_discards _ _ _ (.inr (by rw [hr]; rfl))
    rw [step_placeEvents, placeEvents_nil, performEvent_registerWrite ha rfl (by simp [hr]), hw]
  · cases ha : admitted off n with
    | false => rfl
    | true =>
      obtain ⟨-, -, hlt⟩ := admitted_eq_true.mp ha
      omega

/-! ### The configuration copies (10_state.md R32) -/

theorem Succeeds.mod_config {s u : State} {i : Instr} (h : Succeeds s i u)
    (hs : s.mod.created = true) (hu : u.mod.created = true) :
    u.mod.m = s.mod.m ∧ u.mod.cfo = s.mod.cfo ∧ u.mod.sb = s.mod.sb ∧ u.mod.sc = s.mod.sc := by
  cases h with
  | modCreate _ _ idle => rw [hs] at idle; cases idle
  | modDestroy => cases hu
  | modStep => simp
  | nop | demCreate | demStep | demDestroy => exact ⟨rfl, rfl, rfl, rfl⟩

theorem Succeeds.dem_config {s u : State} {i : Instr} (h : Succeeds s i u)
    (hs : s.dem.created = true) (hu : u.dem.created = true) :
    u.dem.m = s.dem.m ∧ u.dem.cfo = s.dem.cfo ∧ u.dem.sb = s.dem.sb ∧ u.dem.sc = s.dem.sc := by
  cases h with
  | demCreate _ _ idle => rw [hs] at idle; cases idle
  | demDestroy => cases hu
  | demStep => simp
  | nop | modCreate | modStep | modDestroy => exact ⟨rfl, rfl, rfl, rfl⟩

/-- Settles O53: a CREATED unit's copy could change only by a create, which needs a NOT_CREATED unit, or
by a destroy or a reset, which leave one. -/
theorem configurationIsFixedForLife : Obligations.ConfigurationIsFixedForLife := by
  intro s t h
  obtain rfl | ⟨e, hperf⟩ := eq_or_performs_of_step h
  · exact ⟨fun _ _ => ⟨rfl, rfl, rfl, rfl⟩, fun _ _ => ⟨rfl, rfl, rfl, rfl⟩⟩
  cases hperf with
  | reset => exact ⟨fun _ ht => (by cases ht), fun _ ht => (by cases ht)⟩
  | read | failed => exact ⟨fun _ _ => ⟨rfl, rfl, rfl, rfl⟩, fun _ _ => ⟨rfl, rfl, rfl, rfl⟩⟩
  | write => simp
  | done _ ok => exact ⟨ok.mod_config, ok.dem_config⟩

/-! ### The lifecycle states (10_state.md R31) -/

theorem Succeeds.mod_created {s u : State} {i : Instr} (h : Succeeds s i u)
    (hs : s.mod.created = false) (hu : u.mod.created = true) : ∃ sb sc, i = .modCreate sb sc := by
  cases h with
  | modCreate sb sc => exact ⟨sb, sc, rfl⟩
  | modStep live | modDestroy live => rw [hs] at live; cases live
  | nop | demCreate | demStep | demDestroy => rw [hs] at hu; cases hu

theorem Succeeds.mod_destroyed {s u : State} {i : Instr} (h : Succeeds s i u)
    (hs : s.mod.created = true) (hu : u.mod.created = false) : i = .modDestroy := by
  cases h with
  | modDestroy => rfl
  | modCreate => cases hu
  | modStep => rw [modStepUnit_created, hs] at hu; cases hu
  | nop | demCreate | demStep | demDestroy => rw [hs] at hu; cases hu

theorem Succeeds.dem_created {s u : State} {i : Instr} (h : Succeeds s i u)
    (hs : s.dem.created = false) (hu : u.dem.created = true) : ∃ sb sc, i = .demCreate sb sc := by
  cases h with
  | demCreate sb sc => exact ⟨sb, sc, rfl⟩
  | demStep live | demDestroy live => rw [hs] at live; cases live
  | nop | modCreate | modStep | modDestroy => rw [hs] at hu; cases hu

theorem Succeeds.dem_destroyed {s u : State} {i : Instr} (h : Succeeds s i u)
    (hs : s.dem.created = true) (hu : u.dem.created = false) : i = .demDestroy := by
  cases h with
  | demDestroy => rfl
  | demCreate => cases hu
  | demStep => rw [demStepUnit_created, hs] at hu; cases hu
  | nop | modCreate | modStep | modDestroy => rw [hs] at hu; cases hu

/-- The lifecycle states of both units move only by a reset or by a command that succeeds. -/
theorem Performs.created_cases {s t : State} {e : HostEvent} (h : Performs s e t) :
    (t.mod.created = s.mod.created ∧ t.dem.created = s.dem.created) ∨
    (e = .reset ∧ t.mod.created = false ∧ t.dem.created = false) ∨
    ∃ i u, isCommand e (encode i) s ∧ lastErr t.status = 0 ∧ Succeeds (dropEvent s) i u ∧
      t.mod = u.mod ∧ t.dem = u.dem := by
  cases h with
  | reset => exact .inr (.inl ⟨rfl, rfl, rfl⟩)
  | read | failed => exact .inl ⟨rfl, rfl⟩
  | write => exact .inl (by simp)
  | done word ok =>
    exact .inr (.inr ⟨_, _, ⟨_, rfl, word⟩, lastErr_statusAfter _ _ _ _, ok, rfl, rfl⟩)

/-- Settles O54: of the commands that succeed, only a unit's own create and destroy move its state. -/
theorem lifecycleMovesOnlyByItsCommands : Obligations.LifecycleMovesOnlyByItsCommands := by
  intro s t e rest hp h
  obtain ⟨hm, hd⟩ | ⟨rfl, hm, hd⟩ | ⟨i, u, hcmd, herr, ok, hm, hd⟩ :=
    (performs_of_step hp h).created_cases
  · simp +contextual [hm, hd]
  · simp [hm, hd]
  rw [hm, hd]
  refine ⟨fun hs hu => ?_, fun hs hu => ?_, fun hs hu => ?_, fun hs hu => ?_⟩
  · obtain ⟨sb, sc, rfl⟩ := ok.mod_created hs hu
    exact ⟨herr, sb, sc, hcmd⟩
  · obtain rfl := ok.mod_destroyed hs hu
    exact .inr ⟨herr, hcmd⟩
  · obtain ⟨sb, sc, rfl⟩ := ok.dem_created hs hu
    exact ⟨herr, sb, sc, hcmd⟩
  · obtain rfl := ok.dem_destroyed hs hu
    exact .inr ⟨herr, hcmd⟩

/-! ### The error registers (10_state.md R40, R41) -/

/-- A flag that a write of `ERRFLAGS` lowers is one that the written word names. -/
theorem getLsbD_of_errflagsClear {old v : Word} {i : Nat} (hs : old.getLsbD i = true)
    (hc : (errflagsClear old v).getLsbD i = false) : v.getLsbD i = true := by
  have hi : i < 32 := BitVec.lt_of_getLsbD hs
  have hmask : (v &&& 0x0000000E#32).getLsbD i = true := by
    simpa only [errflagsClear, BitVec.getLsbD_and, BitVec.getLsbD_not, hs, hi, decide_true,
      Bool.true_and, Bool.not_eq_false'] using hc
  rw [BitVec.getLsbD_and, Bool.and_eq_true] at hmask
  exact hmask.1

theorem writeReg_errflags (r : Reg) (v : Word) (s : State) : (writeReg r v s).errflags =
    if r = .errflags then errflagsClear s.errflags v else s.errflags := by
  cases r <;> rfl

/-- The end of a command lowers no flag. -/
theorem getLsbD_complete_errflags {s : State} {i : Nat} (c : ErrCode)
    (hs : s.errflags.getLsbD i = true) : (complete c s).errflags.getLsbD i = true := by
  rw [complete_errflags, BitVec.getLsbD_or, hs, Bool.true_or]

theorem Performs.status_changed {s t : State} {e : HostEvent} (h : Performs s e t)
    (hne : t.status ≠ s.status) : e = .reset ∨ ∃ w, isCommand e w s := by
  cases h with
  | reset => exact .inl rfl
  | read => exact absurd rfl hne
  | write => exact absurd (by simp) hne
  | failed _ word | done word => exact .inr ⟨_, _, rfl, word⟩

theorem Performs.flag_lowered {s t : State} {e : HostEvent} {i : Nat} (h : Performs s e t)
    (hs : s.errflags.getLsbD i = true) (ht : t.errflags.getLsbD i = false) :
    e = .reset ∨ ∃ v w, e = hostWrite 0x010 v ∧ valueOf s.hostSide.vars v = some w ∧
      w.getLsbD i = true := by
  cases h with
  | reset => exact .inl rfl
  | read => rw [show s.errflags.getLsbD i = false from ht] at hs; cases hs
  | write adm word =>
    rw [writeReg_errflags, dropEvent_errflags] at ht
    split at ht
    · next hr =>
      obtain ⟨-, h4, hlt⟩ := admitted_eq_true.mp adm
      obtain rfl := (regAt_eq_errflags_iff hlt h4).mp hr
      exact .inr ⟨_, _, rfl, word, getLsbD_of_errflagsClear hs ht⟩
    · rw [hs] at ht; cases ht
  | failed c => rw [raiseError, getLsbD_complete_errflags (s := dropEvent s) c hs] at ht; cases ht
  | done _ ok =>
    rw [getLsbD_complete_errflags .none (by rw [ok.errflags]; exact hs)] at ht; cases ht

/-- Settles O55: the end of a command only sets flags, and plain writes reach `ERRFLAGS` at its offset. -/
theorem errorRegistersAreSticky : Obligations.ErrorRegistersAreSticky := by
  intro s t e rest hp h
  have hperf := performs_of_step hp h
  exact ⟨hperf.status_changed, fun i => hperf.flag_lowered⟩

end Sys2Proof.Machine
end

section
/-! PROOFS of 10_state.md, the invariant of the block: what each clause needs of the operation that
touches it, and the step lemma. -/

namespace Sys2Proof.Machine

open Safety

/-! ### The error registers -/

/-- The three fields of `STATUS` leave its reserved bits 0. -/
theorem statusFields_reserved (c : BitVec 4) (m d : Bool) :
    statusFields c m d &&& 0xFFFFFF0C#32 = 0 := by
  revert c m d; decide +kernel

theorem statusAfter_of_reserved {old : Word} (h : old &&& 0xFFFFFF0C#32 = 0) (c : ErrCode)
    (m d : Bool) : statusAfter old c m d = statusFields (errNumber c) m d := by
  rw [statusAfter, h]; exact BitVec.zero_or

theorem errNumber_le (c : ErrCode) : (errNumber c).toNat ≤ 3 := by cases c <;> decide

theorem errflags_or_reserved {old : Word} (h : old &&& 0xFFFFFFF1#32 = 0) (c : ErrCode) :
    (old ||| errFlagBit c) &&& 0xFFFFFFF1#32 = 0 := by
  have hc : errFlagBit c &&& 0xFFFFFFF1#32 = 0 := by cases c <;> decide
  rw [BitVec.and_comm, BitVec.and_or_distrib_left, BitVec.and_comm, h, BitVec.and_comm, hc]; rfl

theorem errflagsClear_reserved {old : Word} (h : old &&& 0xFFFFFFF1#32 = 0) (v : Word) :
    errflagsClear old v &&& 0xFFFFFFF1#32 = 0 := by
  rw [errflagsClear, BitVec.and_assoc, BitVec.and_comm (~~~_), ← BitVec.and_assoc, h]
  exact BitVec.zero_and

/-! ### The host variables (log entry 2) -/

theorem varsSorted_iff (l : List (Nat × Word)) :
    varsSorted l = true ↔ (l.map Prod.fst).IsChain (· < ·) := by
  induction l with
  | nil => simp [varsSorted]
  | cons a l ih =>
    cases l with
    | nil => simp [varsSorted]
    | cons b l => simpa [varsSorted] using fun _ => ih

theorem varsSorted_setVar (t : Nat) (v : Word) {l : List (Nat × Word)} (h : varsSorted l = true) :
    varsSorted (setVar t v l) = true := by
  rw [varsSorted_iff, List.isChain_iff_pairwise] at h ⊢
  induction l with
  | nil => simp [setVar]
  | cons a l ih =>
    obtain ⟨k, w⟩ := a
    obtain ⟨hk, hl⟩ := List.pairwise_cons.mp h
    rw [setVar]
    split
    · next hlt =>
      refine List.pairwise_cons.mpr ⟨fun j hj => ?_, ih hl⟩
      obtain rfl | hj := (mem_setVar t j v l).mp hj
      · exact hlt
      · exact hk j hj
    · split
      · next heq => subst heq; exact h
      · next hge hne =>
        have htk : t < k := by omega
        refine List.pairwise_cons.mpr ⟨fun j hj => ?_, h⟩
        obtain rfl | hj := List.mem_cons.mp hj
        · exact htk
        · exact htk.trans (hk j hj)

theorem varsSorted_takeRead (dst : Option Nat) (v : Word) {h : HostSide}
    (hv : varsSorted h.vars = true) : varsSorted (takeRead dst v h).vars = true := by
  cases dst with
  | none => exact hv
  | some t => exact varsSorted_setVar t v hv

/-! ### The frequency estimate (10_state.md R55) -/

/-- The clamp answers a NaN or a word within the bound, whatever it is given. -/
theorem omegaBounded_clampOmega {P : Params} (hW : isNaN P.pllWmax = false)
    (hle : le32 (neg32 P.pllWmax) P.pllWmax = true) (w : Word) :
    omegaBounded P (clampOmega P w) = true := by
  have hnW : isNaN (neg32 P.pllWmax) = false := by rw [isNaN_neg32, hW]
  unfold clampOmega omegaBounded
  split
  · rw [hle, le32_refl hW]; simp
  · next hgt =>
    split
    · rw [hle, le32_refl hnW]; simp
    · next hlt =>
      cases hw : isNaN w with
      | true => rfl
      | false =>
        rw [le32_of_not_lt32 hw hnW (by simpa using hlt),
          le32_of_not_lt32 hW hw (by simpa [gt32] using hgt)]
        rfl

theorem omegaBounded_nextOmega (omega e : Word) :
    omegaBounded thisBlock (nextOmega thisBlock omega e) = true :=
  omegaBounded_clampOmega (by decide) (by decide +kernel) _

/-! ### The units -/

theorem modInv_initMod (P : Params) : ModInv P (initMod P) where
  line := zeroLine_length P
  idle _ := rfl
  config h := by cases h
  unused _ := rfl

theorem modInv_modCreateUnit (P : Params) {m : Word} (cfo : Word) {sb : BitVec 2} (sc : Bool)
    (hv : validConfig m sb = true) : ModInv P (modCreateUnit P m cfo sb sc) where
  line := zeroLine_length P
  idle h := by cases h
  config _ := hv
  unused _ := rfl

theorem modStepUnit_mline (P : Params) (x : Word) (u : ModUnit) : (modStepUnit P x u).mline =
    if u.sb = 0#2 then u.mline else qfPush P u.mline (ssbInput P u.m x u.sc) := by
  unfold modStepUnit; split <;> rfl

theorem modInv_modStepUnit {P : Params} {u : ModUnit} (h : ModInv P u) (hc : u.created = true)
    (x : Word) : ModInv P (modStepUnit P x u) where
  line := by
    rw [modStepUnit_mline]
    split
    · exact h.line
    · exact qfPush_length _ h.line
  idle hn := by rw [modStepUnit_created, hc] at hn; cases hn
  config _ := by rw [modStepUnit_m, modStepUnit_sb]; exact h.config hc
  unused hb := by
    rw [modStepUnit_sb] at hb
    rw [modStepUnit_mline, if_pos hb]; exact h.unused hb

theorem omegaBounded_pzero : omegaBounded thisBlock pzero = true := by decide +kernel

theorem demInv_initDem : DemInv thisBlock (initDem thisBlock) where
  lineR := zeroLine_length _
  lineI := zeroLine_length _
  idle _ := rfl
  config h := by cases h
  omega := omegaBounded_pzero
  loop _ := ⟨rfl, rfl, rfl⟩
  unused _ := ⟨rfl, rfl⟩

theorem demInv_demCreateUnit {m : Word} (cfo : Word) {sb : BitVec 2} (sc : Bool)
    (hv : validConfig m sb = true) : DemInv thisBlock (demCreateUnit thisBlock m cfo sb sc) where
  lineR := zeroLine_length _
  lineI := zeroLine_length _
  idle h := by cases h
  config _ := hv
  omega := omegaBounded_pzero
  loop _ := ⟨rfl, rfl, rfl⟩
  unused _ := ⟨rfl, rfl⟩

/-- Each mode of a demodulator step touches the loop alone, the output alone or the lines alone. -/
theorem demInv_demStepUnit {d : DemUnit} (h : DemInv thisBlock d) (hc : d.created = true)
    (yr yi : Word) : DemInv thisBlock (demStepUnit thisBlock yr yi d) := by
  have hidle {q : Prop} (hn : d.created = false) : q := Bool.noConfusion (hc.symm.trans hn)
  by_cases hb : d.sb = 0#2
  · cases hs : d.sc with
    | true =>
      rw [demStepUnit_coherent _ _ _ _ hb hs]
      exact { h with
        idle := hidle
        omega := omegaBounded_nextOmega _ _
        loop := fun hm => absurd ⟨hb, hs⟩ hm }
    | false =>
      rw [demStepUnit_envelope _ _ _ _ hb hs]
      exact { h with idle := hidle }
  · rw [demStepUnit_sideband _ _ _ _ hb]
    exact { h with
      lineR := qfPush_length _ h.lineR
      lineI := qfPush_length _ h.lineI
      idle := hidle
      unused := fun h0 => absurd h0 hb }

theorem Succeeds.modInv {s u : State} {i : Instr} (h : Succeeds s i u)
    (hs : ModInv thisBlock s.mod) : ModInv thisBlock u.mod := by
  cases h with
  | modCreate sb sc _ valid => exact modInv_modCreateUnit _ _ sc valid
  | modStep live => exact modInv_modStepUnit hs live _
  | modDestroy => exact modInv_initMod _
  | nop | demCreate | demStep | demDestroy => exact hs

theorem Succeeds.demInv {s u : State} {i : Instr} (h : Succeeds s i u)
    (hs : DemInv thisBlock s.dem) : DemInv thisBlock u.dem := by
  cases h with
  | demCreate sb sc _ valid => exact demInv_demCreateUnit _ sc valid
  | demStep live => exact demInv_demStepUnit hs live _ _
  | demDestroy => exact demInv_initDem
  | nop | modCreate | modStep | modDestroy => exact hs

/-! ### The step lemma -/

theorem status_reserved_of_inv {P : Params} {s : State} (h : Inv P s) :
    s.status &&& 0xFFFFFF0C#32 = 0 := by
  rw [h.status, statusFields_reserved]

/-- The end of a command makes `STATUS` right for whatever units it finds: this is why the clause on
`STATUS` is not asked of the state before. -/
theorem inv_complete {P : Params} {s : State} (c : ErrCode) (hst : s.status &&& 0xFFFFFF0C#32 = 0)
    (hef : s.errflags &&& 0xFFFFFFF1#32 = 0) (hm : ModInv P s.mod) (hd : DemInv P s.dem)
    (hv : varsSorted s.hostSide.vars = true) : Inv P (complete c s) where
  status := by
    rw [complete_status, lastErr_statusAfter, statusAfter_of_reserved hst]; rfl
  code := by rw [complete_status, lastErr_statusAfter]; exact errNumber_le c
  errflags := errflags_or_reserved hef c
  mod := hm
  dem := hd
  vars := hv

theorem inv_writeReg {P : Params} {s : State} (h : Inv P s) (r : Reg) (v : Word) :
    Inv P (writeReg r v s) where
  status := by rw [writeReg_status, writeReg_mod, writeReg_dem]; exact h.status
  code := by rw [writeReg_status]; exact h.code
  errflags := by
    rw [writeReg_errflags]
    split
    · exact errflagsClear_reserved h.errflags v
    · exact h.errflags
  mod := by rw [writeReg_mod]; exact h.mod
  dem := by rw [writeReg_dem]; exact h.dem
  vars := by rw [writeReg_hostSide]; exact h.vars

theorem inv_blockReset {s : State} (hv : varsSorted s.hostSide.vars = true) :
    Inv thisBlock (blockReset thisBlock s) where
  status := by rw [blockReset_status, blockReset_mod, blockReset_dem]; decide
  code := by rw [blockReset_status]; decide
  errflags := by rw [blockReset_errflags]; rfl
  mod := modInv_initMod _
  dem := demInv_initDem
  vars := hv

/-- The invariant does not look at what is pending or at the word last read. -/
theorem inv_withHostSide {P : Params} {s : State} (h : Inv P s) {hs : HostSide}
    (hv : varsSorted hs.vars = true) : Inv P { s with hostSide := hs } :=
  { h with vars := hv }

theorem inv_dropEvent {P : Params} {s : State} (h : Inv P s) : Inv P (dropEvent s) :=
  inv_withHostSide h h.vars

/-- Every event that is performed keeps the invariant. -/
theorem Performs.inv {s t : State} {e : HostEvent} (h : Performs s e t) (hs : Inv thisBlock s) :
    Inv thisBlock t := by
  have hd := inv_dropEvent hs
  cases h with
  | reset => exact inv_blockReset hd.vars
  | read off dst => exact inv_withHostSide hd (varsSorted_takeRead dst _ hd.vars)
  | write => exact inv_writeReg hd _ _
  | failed c => exact inv_complete c (status_reserved_of_inv hd) hd.errflags hd.mod hd.dem hd.vars
  | done _ ok =>
    refine inv_complete .none ?_ ?_ (ok.modInv hd.mod) (ok.demInv hd.dem) ?_
    · rw [ok.status]; exact status_reserved_of_inv hd
    · rw [ok.errflags]; exact hd.errflags
    · rw [ok.hostSide]; exact hd.vars

/-- Settles O58: each event keeps the invariant, by the lemma of the operation that it performs. -/
theorem stepKeepsTheInvariant : Obligations.StepKeepsTheInvariant := by
  intro s t hs h
  obtain rfl | ⟨e, hperf⟩ := eq_or_performs_of_step h
  · exact hs
  · exact hperf.inv hs

end Sys2Proof.Machine
end

section
/-! PROOFS of 20_memory.md: bus addresses and byte lanes, the content of the register window, reads
without a side effect, and runs of admitted accesses. -/

namespace Sys2Proof.Machine

open Safety

/-! ### Bus addresses and byte lanes (20_memory.md R70, R73) -/

theorem decodedOffset_busAddress {P : Params} {off : Nat} (hb : P.blockBase % 256 = 0)
    (h : off < 0x100) : decodedOffset (busAddress P off) = off := by
  unfold decodedOffset busAddress
  omega

theorem getLsbD_byteLane (w : Word) (i : Nat) {j : Nat} (hj : j < 8) :
    (byteLane w i).getLsbD j = w.getLsbD (8 * i + j) := by
  simp [byteLane, hj]

/-- Bit `k` of a word is bit `k % 8` of lane `k / 8`. -/
theorem getLsbD_ofLanes (lane : Nat → Byte) {k : Nat} (hk : k < 32) :
    (ofLanes (lane 0) (lane 1) (lane 2) (lane 3)).getLsbD k = (lane (k / 8)).getLsbD (k % 8) := by
  obtain ⟨i, j, hj, rfl⟩ : ∃ i j, j < 8 ∧ k = 8 * i + j := ⟨k / 8, k % 8, by omega, by omega⟩
  have hi : i < 4 := by omega
  rw [show (8 * i + j) / 8 = i by omega, show (8 * i + j) % 8 = j by omega]
  simp only [ofLanes, BitVec.getLsbD_append]
  interval_cases i
  · rw [if_pos (by omega)]; congr 1; omega
  · rw [if_neg (by omega), if_pos (by omega)]; congr 1; omega
  · rw [if_neg (by omega), if_neg (by omega), if_pos (by omega)]; congr 1; omega
  · rw [if_neg (by omega), if_neg (by omega), if_neg (by omega)]; congr 1; omega

theorem ofLanes_byteLane (w : Word) :
    ofLanes (byteLane w 0) (byteLane w 1) (byteLane w 2) (byteLane w 3) = w := by
  apply BitVec.eq_of_getLsbD_eq
  intro k hk
  rw [getLsbD_ofLanes (byteLane w) hk, getLsbD_byteLane _ _ (Nat.mod_lt k (by decide)),
    Nat.div_add_mod]

/-- Settles O27: the base is a multiple of the window's size, and a word's bits are those of its lanes. -/
theorem busAddressesAndByteLanes : Obligations.BusAddressesAndByteLanes :=
  ⟨fun _ _ hb h => decodedOffset_busAddress hb h, ofLanes_byteLane,
    fun w i _ _ hj => getLsbD_byteLane w i hj⟩

/-! ### The register window (10_state.md R33) -/

/-- The 64 registers of the window in order of their offsets. -/
theorem map_regAt_window :
    ((List.range 64).map fun k => regAt (4 * k)) = lowRegs ++ (List.range 32).map Reg.hcoef := by
  decide

theorem paramWord_thisBlock : paramWord thisBlock = 0x00000913#32 := by decide

theorem map_coef_thisBlock : (List.range 32).map (coef thisBlock) =
    blockCoef ++ List.replicate 13 0#32 := by decide

/-- What the window reads, in terms of the registers in it. -/
theorem map_memRead_window (P : Params) (s : State) :
    ((List.range 64).map fun k => memRead P s (4 * k)) =
      lowRegs.map (readReg P s) ++ (List.range 32).map (coef P) := by
  have h := congrArg (List.map (readReg P s)) map_regAt_window
  rwa [List.map_append, List.map_map, List.map_map] at h

theorem cfgWord_sb (sb : BitVec 2) (sc : Bool) : (cfgWord sb sc).extractLsb' 0 2 = sb := by
  revert sb sc; decide

theorem cfgWord_sc (sb : BitVec 2) (sc : Bool) : (cfgWord sb sc).getLsbD 2 = sc := by
  revert sb sc; decide

theorem cfgWord_reserved (sb : BitVec 2) (sc : Bool) : (cfgWord sb sc).extractLsb' 3 29 = 0 := by
  revert sb sc; decide

/-! ### Reads (20_memory.md R76) -/

/-- The variable that a read names holds the word read, and every other one its old word. -/
theorem getVar_takeRead (dst : Option Nat) (v : Word) (h : HostSide) (t : Nat) :
    getVar (takeRead dst v h).vars t = if dst = some t then some v else getVar h.vars t := by
  cases dst with
  | none => simp
  | some k => simp [getVar_setVar]

/-- Settles O23: an admitted read is `takeRead` of the register, and the registers of the window are
`lowRegs` and then the taps. -/
theorem readsHaveNoSideEffect : Obligations.ReadsHaveNoSideEffect := by
  refine ⟨fun off dst s ha hw => ?_, fun s => ?_⟩
  · refine ⟨takeRead dst (memRead thisBlock s off) s.hostSide, ?_, rfl, rfl,
      fun t ht => ?_, fun t ht => ?_⟩
    · rw [step_placeEvents, placeEvents_nil,
        performEvent_hostRead dst (admitted_eq_true.mpr ⟨rfl, ha, hw⟩)]
    · rw [getVar_takeRead, if_pos ht]
    · rw [getVar_takeRead, if_neg ht]
  · refine ⟨cfgWord s.mod.sb s.mod.sc, cfgWord s.dem.sb s.dem.sc, ?_, cfgWord_sb _ _, cfgWord_sc _ _,
      cfgWord_reserved _ _, cfgWord_sb _ _, cfgWord_sc _ _, cfgWord_reserved _ _⟩
    rw [map_memRead_window, map_coef_thisBlock]
    simp only [lowRegs, List.map_cons, List.map_nil, readReg, paramWord_thisBlock]
    rfl

/-! ### Runs of admitted accesses (20_memory.md R79, 60_exceptions.md R226) -/

/-- No command word stops the machine, and none touches the host's side. -/
theorem execute_completes (w : Word) (s : State) :
    ∃ t, execute w s = .next t ∧ t.hostSide = s.hostSide := by
  obtain ⟨i, -, hx⟩ | ⟨why, -, hx⟩ := execute_cases w s
  · obtain ⟨c, h, -⟩ | ⟨u, h⟩ | ⟨u, h⟩ := exec_cases i s <;> exact ⟨_, hx.trans h, rfl⟩
  · exact ⟨_, hx, rfl⟩

theorem memWrite_completes (off : Nat) (w : Word) (s : State) :
    ∃ t, memWrite off w s = .next t ∧ t.hostSide = s.hostSide := by
  obtain ⟨-, h⟩ | ⟨-, h⟩ := memWrite_cases off w s
  · rw [h]; exact execute_completes w s
  · exact ⟨_, h, writeReg_hostSide _ _ _⟩

/-- Every variable of the list `known` holds a word. -/
def Filled (known : List Nat) (vars : List (Nat × Word)) : Prop :=
  ∀ t ∈ known, t ∈ vars.map Prod.fst

theorem filled_takeRead {known : List Nat} {h : HostSide} (hf : Filled known h.vars) (off : Nat)
    (dst : Option Nat) (v : Word) :
    Filled (knownAfter known ⟨.owner, 4, off, .read dst⟩) (takeRead dst v h).vars := by
  cases dst with
  | none => exact hf
  | some k =>
    intro t ht
    rw [takeRead_vars_some, mem_setVar]
    exact (List.mem_cons.mp ht).imp_right (hf t)

/-- A well-formed access is the owner's admitted read, or its admitted write of a literal or of a known
variable. -/
theorem accessWf_cases {known : List Nat} {a : Access} (h : accessWf known a = true) :
    (∃ off dst, a = ⟨.owner, 4, off, .read dst⟩ ∧ admitted off 4 = true) ∨
    ∃ off v, a = ⟨.owner, 4, off, .write v⟩ ∧ admitted off 4 = true ∧ ∀ t, v = .hvar t → t ∈ known := by
  obtain ⟨master, width, off, kind⟩ := a
  simp only [accessWf, Bool.and_eq_true, beq_iff_eq] at h
  obtain ⟨⟨rfl, ha⟩, hk⟩ := h
  obtain ⟨rfl, -, -⟩ := admitted_eq_true.mp ha
  cases kind with
  | read dst => exact .inl ⟨off, dst, rfl, ha⟩
  | write v =>
    refine .inr ⟨off, v, rfl, ha, fun t hv => ?_⟩
    subst hv
    exact List.contains_iff_mem.mp hk

/-- A value whose variable, if it has one, is known has a word. -/
theorem exists_valueOf {known : List Nat} {vars : List (Nat × Word)} (hf : Filled known vars)
    {v : Value} (hv : ∀ t, v = .hvar t → t ∈ known) : ∃ w, valueOf vars v = some w := by
  cases v with
  | word w => exact ⟨w, rfl⟩
  | hvar t => exact (getVar_isSome vars t).mpr (hf t (hv t rfl))

/-- A well-formed access is performed, and the variables known after it hold words. -/
theorem performEvent_access_completes {known : List Nat} {a : Access} {s : State}
    (hf : Filled known s.hostSide.vars) (h : accessWf known a = true) :
    ∃ t, performEvent (.access a) s = .next t ∧ Filled (knownAfter known a) t.hostSide.vars := by
  obtain ⟨off, dst, rfl, ha⟩ | ⟨off, v, rfl, ha, hv⟩ := accessWf_cases h
  · exact ⟨_, performEvent_hostRead dst ha, filled_takeRead hf off dst _⟩
  · obtain ⟨w, hw⟩ := exists_valueOf hf hv
    obtain ⟨t, ht, hh⟩ := memWrite_completes off w s
    refine ⟨t, (performEvent_hostWrite ha hw).trans ht, ?_⟩
    rw [hh]
    exact hf

/-- A well-formed list of events runs to its end from every state that fills the variables known. -/
theorem exists_runsTo_of_eventsWf {es : List HostEvent} {known : List Nat} {s : State}
    (hf : Filled known s.hostSide.vars) (hw : eventsWf known es = true) :
    ∃ t, RunsTo es s t ∧ t.hostSide.pending = s.hostSide.pending := by
  induction es generalizing known s with
  | nil => exact ⟨s, runsTo_nil s, rfl⟩
  | cons e es ih =>
    cases e with
    | reset => exact exists_runsTo_cons rfl (ih (s := blockReset thisBlock s) hf hw)
    | access a =>
      obtain ⟨ha, hes⟩ := Bool.and_eq_true_iff.mp hw
      obtain ⟨t, ht, hft⟩ := performEvent_access_completes hf ha
      rw [← performEvent_pending ht]
      exact exists_runsTo_cons ht (ih hft hes)

/-- Settles O59: by induction on the list, since each well-formed event has a next state. -/
theorem admittedAccessesRunToTheEnd : Obligations.AdmittedAccessesRunToTheEnd :=
  fun _ _ hw => exists_runsTo_of_eventsWf (fun _ ht => ht) hw

end Sys2Proof.Machine
end

section
/-! PROOFS of 30_encoding.md: the decoder and the encoder are inverse, the rows of the opcode map match
exactly the encoded words, every other word is illegal, and decimal literals are correctly rounded.

The opcode map and the decoder meet in `Legal`, the condition on a word's fields that R91 and R95 state:
a row matches a word, and a command encodes to it, exactly if the word is legal. -/

namespace Sys2Proof.Machine

open Safety

/-! ### Decoding and encoding (30_encoding.md R91 to R95) -/

/-- The encoder loses nothing: every operand of a command comes back from its field. -/
theorem decode_encode (i : Instr) : decode (encode i) = .command i := by
  cases i with
  | nop => decide
  | modCreate sb sc => simp [encode, decode, formatC]
  | modStep => decide
  | modDestroy => decide
  | demCreate sb sc => simp [encode, decode, formatC]
  | demStep => decide
  | demDestroy => decide

theorem decode_eq_command_iff {w : Word} {i : Instr} : decode w = .command i ↔ encode i = w :=
  ⟨encode_of_decode, fun h => h ▸ decode_encode i⟩

/-- Settles O15: `encode_of_decode` says that no second word decodes to a command, `decode_encode` that
the encoding drops no bit. -/
theorem decodeAndEncodeAgree : Obligations.DecodeAndEncodeAgree := fun _ _ => decode_eq_command_iff

theorem decode_illegal_iff {w : Word} : (∃ why, decode w = .illegal why) ↔ ¬ ∃ i, encode i = w := by
  simp only [← decode_eq_command_iff]
  cases decode w <;> simp

/-! ### Legal words (30_encoding.md R91, R95) -/

/-- The opcodes of format C. -/
def createOps : List (BitVec 8) := [0x01#8, 0x11#8]

/-- The opcodes of format S. -/
def plainOps : List (BitVec 8) := [0x00#8, 0x02#8, 0x03#8, 0x12#8, 0x13#8]

/-- The opcode is a known one and its format's reserved field is zero. -/
def Legal (w : Word) : Prop :=
  (opField w ∈ createOps ∧ rsvdC w = 0) ∨ (opField w ∈ plainOps ∧ rsvdS w = 0)

theorem legal_encode (i : Instr) : Legal (encode i) := by
  cases i <;> simp [Legal, encode, createOps, plainOps]

theorem exists_encode_of_createOp {w : Word} (ho : opField w ∈ createOps) (hr : rsvdC w = 0) :
    ∃ i, encode i = w := by
  have hw := wordC_fields hr
  simp only [createOps, List.mem_cons, List.not_mem_nil, or_false] at ho
  obtain h | h := ho <;> rw [h] at hw
  · exact ⟨.modCreate _ _, hw⟩
  · exact ⟨.demCreate _ _, hw⟩

theorem exists_encode_of_plainOp {w : Word} (ho : opField w ∈ plainOps) (hr : rsvdS w = 0) :
    ∃ i, encode i = w := by
  have hw := wordS_opField hr
  simp only [plainOps, List.mem_cons, List.not_mem_nil, or_false] at ho
  obtain h | h | h | h | h := ho <;> rw [h] at hw
  · exact ⟨.nop, hw⟩
  · exact ⟨.modStep, hw⟩
  · exact ⟨.modDestroy, hw⟩
  · exact ⟨.demStep, hw⟩
  · exact ⟨.demDestroy, hw⟩

theorem legal_iff_exists_encode {w : Word} : Legal w ↔ ∃ i, encode i = w := by
  constructor
  · rintro (⟨ho, hr⟩ | ⟨ho, hr⟩)
    · exact exists_encode_of_createOp ho hr
    · exact exists_encode_of_plainOp ho hr
  · rintro ⟨i, rfl⟩
    exact legal_encode i

theorem not_legal_iff_decode {w : Word} : ¬ Legal w ↔ ∃ why, decode w = .illegal why := by
  rw [legal_iff_exists_encode, decode_illegal_iff]

theorem not_mem_plainOps_of_mem_createOps {op : BitVec 8} (h : op ∈ createOps) : op ∉ plainOps := by
  simp only [createOps, List.mem_cons, List.not_mem_nil, or_false] at h
  obtain rfl | rfl := h <;> decide

/-- The two ways of R96 in which a word is illegal: an unknown opcode, or a reserved field that is not
zero. No opcode has both formats, so the reserved field is that of the opcode's one format. -/
theorem not_legal_iff {w : Word} : ¬ Legal w ↔
    ¬ (opField w ∈ createOps ∨ opField w ∈ plainOps) ∨
    (opField w ∈ createOps ∧ rsvdC w ≠ 0) ∨ (opField w ∈ plainOps ∧ rsvdS w ≠ 0) := by
  unfold Legal
  by_cases hc : opField w ∈ createOps
  · simp [hc, not_mem_plainOps_of_mem_createOps hc]
  · by_cases hp : opField w ∈ plainOps <;> simp [hc, hp]

theorem mem_knownOps_iff {op : BitVec 8} :
    op ∈ [0x00#8, 0x01#8, 0x02#8, 0x03#8, 0x11#8, 0x12#8, 0x13#8] ↔
      op ∈ createOps ∨ op ∈ plainOps := by
  simp only [createOps, plainOps, List.mem_cons, List.not_mem_nil, or_false]
  exact iff_of_eq (by ac_rfl)

/-! ### Rows of the opcode map (30_encoding.md R95) -/

/-- A row of format S: the whole word is fixed. -/
def plainRow (name : String) (op : BitVec 8) : OpcodeRow := ⟨name, wordS op, 0xFFFFFFFF#32⟩

/-- A row of format C: SB and SC, bits 10:8, are free. -/
def createRow (name : String) (op : BitVec 8) : OpcodeRow := ⟨name, wordC op 0 false, 0xFFFFF8FF#32⟩

theorem opcodeMap_eq : opcodeMap =
    [plainRow "NOP" 0x00#8, createRow "MOD.CREATE" 0x01#8, plainRow "MOD.STEP" 0x02#8,
     plainRow "MOD.DESTROY" 0x03#8, createRow "DEM.CREATE" 0x11#8, plainRow "DEM.STEP" 0x12#8,
     plainRow "DEM.DESTROY" 0x13#8] := by decide

theorem eq_wordS_iff {w : Word} {op : BitVec 8} : w = wordS op ↔ opField w = op ∧ rsvdS w = 0 := by
  constructor
  · rintro rfl
    exact ⟨opField_wordS op, rsvdS_wordS op⟩
  · rintro ⟨rfl, hr⟩
    exact (wordS_opField hr).symm

theorem matchesRow_plainRow {w : Word} {name : String} {op : BitVec 8} :
    matchesRow w (plainRow name op) = true ↔ opField w = op ∧ rsvdS w = 0 := by
  have hm : w &&& 0xFFFFFFFF#32 = w := BitVec.and_allOnes
  rw [matchesRow, plainRow, hm, beq_iff_eq, eq_wordS_iff]

/-- A create row's mask keeps the opcode. -/
theorem opField_createMask (w : Word) : opField (w &&& 0xFFFFF8FF#32) = opField w := by
  rw [opField, BitVec.extractLsb'_and]
  exact BitVec.and_allOnes

/-- A create row's mask keeps the reserved field. -/
theorem rsvdC_createMask (w : Word) : rsvdC (w &&& 0xFFFFF8FF#32) = rsvdC w := by
  rw [rsvdC, BitVec.extractLsb'_and]
  exact BitVec.and_allOnes

/-- A create row's mask clears SB. -/
theorem sbField_createMask (w : Word) : sbField (w &&& 0xFFFFF8FF#32) = 0 := by
  rw [sbField, BitVec.extractLsb'_and]
  exact BitVec.and_zero

/-- A create row's mask clears SC. -/
theorem scField_createMask (w : Word) : scField (w &&& 0xFFFFF8FF#32) = false := by
  rw [scField, BitVec.getLsbD_and]
  exact Bool.and_false _

theorem matchesRow_createRow {w : Word} {name : String} {op : BitVec 8} :
    matchesRow w (createRow name op) = true ↔ opField w = op ∧ rsvdC w = 0 := by
  rw [matchesRow, createRow, beq_iff_eq]
  constructor
  · intro h
    rw [← opField_createMask, ← rsvdC_createMask, h]
    exact ⟨opField_wordC op 0 false, rsvdC_wordC op 0 false⟩
  · rintro ⟨rfl, hr⟩
    have hw := wordC_fields ((rsvdC_createMask w).trans hr)
    rwa [opField_createMask, sbField_createMask, scField_createMask, eq_comm] at hw

theorem any_matchesRow_iff_legal {w : Word} : opcodeMap.any (matchesRow w) = true ↔ Legal w := by
  simp only [opcodeMap_eq, List.any_cons, List.any_nil, Bool.or_eq_true, Bool.false_eq_true,
    matchesRow_plainRow, matchesRow_createRow, Legal, createOps, plainOps, List.mem_cons,
    List.not_mem_nil, or_false, or_and_right]
  exact iff_of_eq (by ac_rfl)

theorem no_matchesRow_iff_not_legal {w : Word} :
    opcodeMap.any (matchesRow w) = false ↔ ¬ Legal w := by
  rw [← any_matchesRow_iff_legal, Bool.not_eq_true]

/-! ### Exactly one row (30_encoding.md R95) -/

/-- The word of a command matches its own row and no other. -/
theorem filter_matchesRow_encode (i : Instr) :
    (opcodeMap.filter (matchesRow (encode i))).map (·.mnemonic) = [mnemonicOf i] := by
  cases i with
  | nop => exact Laws.EncodesItsRow.nop
  | modCreate sb sc => exact Laws.EncodesItsRow.modCreate sb sc
  | modStep => exact Laws.EncodesItsRow.modStep
  | modDestroy => exact Laws.EncodesItsRow.modDestroy
  | demCreate sb sc => exact Laws.EncodesItsRow.demCreate sb sc
  | demStep => exact Laws.EncodesItsRow.demStep
  | demDestroy => exact Laws.EncodesItsRow.demDestroy

theorem filter_matchesRow_of_illegal {w : Word} {why : Illegal} (h : decode w = .illegal why) :
    opcodeMap.filter (matchesRow w) = [] := by
  have hn := no_matchesRow_iff_not_legal.mpr (not_legal_iff_decode.mpr ⟨why, h⟩)
  rwa [List.any_eq_false, ← List.filter_eq_nil_iff] at hn

/-- Settles O16: a word that decodes is the word of its command, and a row that matches makes a word
legal. -/
theorem exactlyOneRowMatchesLegalWords : Obligations.ExactlyOneRowMatchesLegalWords := by
  refine ⟨fun w i h => ?_, fun w why => filter_matchesRow_of_illegal, by decide, by decide,
    by decide, by decide⟩
  rw [← encode_of_decode h]
  exact filter_matchesRow_encode i

/-! ### Illegal words (30_encoding.md R96) -/

/-- The write of an illegal word to `CMD` runs `Error(IllegalCommand)` and no command. -/
theorem step_commandWrite_of_not_legal {w : Word} (h : ¬ Legal w) (s : State) :
    step (placeEvents [commandWrite w] s) = .next (errorRecorded .illegalCommand s) := by
  rw [step_placeEvents, placeEvents_nil, performEvent_commandWrite]
  obtain ⟨i, hi, -⟩ | ⟨-, -, hx⟩ := execute_cases w s
  · exact absurd (legal_iff_exists_encode.mpr ⟨i, encode_of_decode hi⟩) h
  · exact hx

/-- Settles O18: a word of no row is not legal, so it has an unknown opcode or a reserved bit set, and
it decodes to no command. -/
theorem illegalWordsRecordErrorTwo : Obligations.IllegalWordsRecordErrorTwo := by
  refine ⟨fun w => ?_, fun w s h => ?_, by decide, by decide, by decide, by decide, by decide⟩
  · rw [no_matchesRow_iff_not_legal, not_legal_iff, mem_knownOps_iff]
    rfl
  · exact step_commandWrite_of_not_legal (no_matchesRow_iff_not_legal.mp h) s

/-! ### Sample words -/

/-- Settles O17: each word is the encoding of its command. -/
theorem sampleWordsDecode : Obligations.SampleWordsDecode :=
  ⟨decode_encode .nop, decode_encode (.modCreate 1 true), decode_encode .modStep,
    decode_encode .modDestroy, decode_encode (.demCreate 2 true), decode_encode .demStep,
    decode_encode .demDestroy⟩

/-! ### Decimal literals (30_encoding.md R99) -/

/-- Negation of a packed word flips its sign and keeps its magnitude bits. -/
theorem neg32_pack {neg : Bool} {m : Nat} (h : m < 2 ^ 31) : neg32 (pack neg m) = pack (!neg) m := by
  have hm : (pack neg m).toNat % 2 ^ 31 = m := by
    rw [toNat_pack h]
    cases neg <;> simp <;> omega
  rw [neg32_eq_pack, signBit_pack h, hm]

theorem ofDecimal_neg (digits scale : Nat) :
    ofDecimal true digits scale = neg32 (ofDecimal false digits scale) := by
  unfold ofDecimal
  rw [neg32_pack (roundMag_lt _ _), Bool.not_false]

/-- The quotient that `ofDecimal` rounds is the decimal counted in units of 2^-149. -/
theorem nearest_ofDecimal (digits scale : Nat) :
    Nearest ((digits : ℝ) / 10 ^ scale) (ofDecimal false digits scale) := by
  refine nearest_pack false _ _ _ (Nat.pow_pos (by decide)) ?_
  calc (digits : ℝ) / 10 ^ scale
      = digits / 10 ^ scale * (unit32 * ((2 ^ 149 : ℕ) : ℝ)) := by rw [unit32_mul_two_pow, mul_one]
    _ = signFactor false * (((digits * 2 ^ 149 : ℕ) : ℝ) / ((10 ^ scale : ℕ) : ℝ) * unit32) := by
      rw [signFactor, if_neg Bool.false_ne_true, Nat.cast_mul, Nat.cast_pow 10, Nat.cast_ofNat]
      ring

/-- Settles O9: a literal is one packed rounded quotient, which `nearest_pack` says is the nearest
binary32. -/
theorem decimalLiteralsAreCorrectlyRounded : Obligations.DecimalLiteralsAreCorrectlyRounded :=
  ⟨fun digits scale => ⟨nearest_ofDecimal digits scale, ofDecimal_neg digits scale⟩,
    by decide +kernel, by decide +kernel, by decide +kernel, by decide +kernel⟩

end Sys2Proof.Machine
end

section
/-! PROOFS of 40_common.md, the quadrature filter: the delay line as the newest N of all values pushed,
the sum over the taps with entries that are not finite, and the impulse response. -/

namespace Sys2Proof.Machine

open Safety

/-! ### The delay line (40_common.md R114, R116) -/

theorem pushAll_append_singleton (P : Params) (xs : List Word) (x : Word) :
    pushAll P (xs ++ [x]) = qfPush P (pushAll P xs) x := by
  rw [pushAll, List.foldl_append]; rfl

/-- What a push drops behind a line of N entries is beyond the N entries kept anyway. -/
theorem qfPush_take (P : Params) (ln : List Word) (v : Word) :
    qfPush P (ln.take P.hilbN) v = (v :: ln).take P.hilbN := by
  unfold qfPush
  cases P.hilbN with
  | zero => rfl
  | succ n => rw [List.take_succ_cons, List.take_succ_cons, List.take_take, Nat.min_eq_left n.le_succ]

/-- The pushed values, newest first, stand before the zeros of the line, and the first N are kept. -/
theorem pushAll_eq (P : Params) (xs : List Word) :
    pushAll P xs = (xs.reverse ++ zeroLine P).take P.hilbN := by
  induction xs using List.reverseRecOn with
  | nil => exact (List.take_of_length_le (zeroLine_length P).le).symm
  | append_singleton xs x ih =>
    rw [pushAll_append_singleton, ih, qfPush_take, List.reverse_append]; rfl

theorem length_pushAll (P : Params) (xs : List Word) : (pushAll P xs).length = P.hilbN := by
  rw [pushAll_eq, List.length_take, List.length_append, zeroLine_length,
    Nat.min_eq_left (Nat.le_add_left _ _)]

theorem pushAll_getElem? (P : Params) (xs : List Word) {k : Nat} (hk : k < P.hilbN) :
    (pushAll P xs)[k]? =
      some (if k < xs.length then xs.getD (xs.length - 1 - k) pzero else pzero) := by
  rw [pushAll_eq, List.getElem?_take_of_lt hk]
  split
  · next h =>
    rw [List.getElem?_append_left (by rwa [List.length_reverse]), List.getElem?_reverse h,
      List.getD_eq_getElem _ _ (by omega), List.getElem?_eq_getElem]
  · next h =>
    rw [List.getElem?_append_right (by rw [List.length_reverse]; omega), zeroLine,
      List.getElem?_replicate_of_lt (by omega)]

theorem pushAll_getD (P : Params) (xs : List Word) {k : Nat} (hk : k < P.hilbN) :
    (pushAll P xs).getD k pzero =
      if k < xs.length then xs.getD (xs.length - 1 - k) pzero else pzero := by
  rw [List.getD_eq_getElem?_getD, pushAll_getElem? P xs hk, Option.getD_some]

theorem delay_lt (P : Params) (h : 0 < P.hilbN) : delay P < P.hilbN := by
  unfold delay; omega

/-- Settles O12: `pushAll_eq` gives every entry of the line, and entry D is the in-phase branch. -/
theorem lineHoldsTheLastPushes : Obligations.LineHoldsTheLastPushes := by
  refine ⟨fun P ln v _ hN => ⟨qfPush_getElem?_zero ln v hN, fun k => qfPush_getElem?_succ ln v⟩,
    fun P xs => ⟨length_pushAll P xs, fun k => pushAll_getElem? P xs⟩, fun P ln hD => ?_,
    fun P xs hN => pushAll_getD P xs (delay_lt P hN)⟩
  rw [qfInphase, List.getD_eq_getElem _ _ hD, List.getElem?_eq_getElem hD]

/-! ### The sum over the taps (40_common.md R115) -/

theorem qfFir_eq_tapSum {P : Params} {ln : List Word} (hc : P.hilbCoef.length = P.hilbN)
    (hl : ln.length = P.hilbN) : qfFir P ln = tapSum P ln := by
  rw [qfFir, foldl_zip_range P _ _ _ (hc.trans hl.symm), hc]; rfl

theorem tapProduct_of_getElem? {P : Params} {ln : List Word} {k : Nat} {v : Word}
    (h : ln[k]? = some v) : tapProduct P ln k = mul32 P (coef P k) v := by
  rw [tapProduct, List.getD_eq_getElem?_getD, h, Option.getD_some]

/-- What holds of every coefficient of the table, and of +0.0, holds of `coef` at every index. -/
theorem coef_of_all {P : Params} {p : Word → Bool} (h : P.hilbCoef.all p = true)
    (h0 : p pzero = true) (k : Nat) : p (coef P k) = true := by
  rw [coef, List.getD_eq_getElem?_getD]
  cases hk : P.hilbCoef[k]? with
  | none => exact h0
  | some w => exact List.all_eq_true.mp h w (List.mem_of_getElem? hk)

/-! ### A NaN in the sum -/

theorem canonicalNaN_tapSumTo (P : Params) (ln : List Word) (n : Nat) :
    CanonicalNaN P (tapSumTo P ln n) := by
  cases n with
  | zero => exact canonicalNaN_of_not_nan (isNaN_of_isFinite (w := pzero) (by decide))
  | succ n => rw [tapSumTo_succ]; exact canonicalNaN_add32 P _ _

section
variable {P : Params} {ln : List Word} (hP : isNaN P.nanResult = true)
include hP

/-- The accumulator stays a NaN once it is one, so the whole sum is `NAN_RESULT`. -/
theorem tapSum_of_isNaN_tapSumTo {m : Nat} (hm : m ≤ P.hilbN)
    (h : isNaN (tapSumTo P ln m) = true) : tapSum P ln = P.nanResult := by
  have hlater : ∀ n, m ≤ n → isNaN (tapSumTo P ln n) = true := by
    intro n hmn
    induction n, hmn using Nat.le_induction with
    | base => exact h
    | succ n _ ih => rw [tapSumTo_succ, add32_nan (.inl ih), hP]
  exact canonicalNaN_tapSumTo P ln _ (hlater _ hm)

theorem tapSum_of_isNaN_product {k : Nat} (hk : k < P.hilbN)
    (h : isNaN (tapProduct P ln k) = true) : tapSum P ln = P.nanResult := by
  refine tapSum_of_isNaN_tapSumTo hP (Nat.succ_le_of_lt hk) ?_
  rw [tapSumTo_succ, add32_nan (.inr h), hP]

/-! ### Infinities in the sum -/

/-- An infinite operand is the sum, unless the sum is a NaN. -/
theorem add32_isInf_left_cases {a : Word} (ha : isInf a = true) (b : Word) :
    isNaN (add32 P a b) = true ∨ add32 P a b = a := by
  cases hb : isNaN b with
  | true => exact .inl (by rw [add32_nan (.inr hb), hP])
  | false =>
    by_cases hs : b = neg32 a
    · have hb' : isInf b = true := by rw [hs, isInf_neg32, ha]
      exact .inl (by rw [add32_isInf_opposite ha hb' (by simp [hs]), hP])
    · exact .inr (add32_of_isInf_left ha hb hs)

theorem add32_isInf_right_cases {b : Word} (hb : isInf b = true) (a : Word) :
    isNaN (add32 P a b) = true ∨ add32 P a b = b := by
  cases ha : isNaN a with
  | true => exact .inl (by rw [add32_nan (.inl ha), hP])
  | false =>
    by_cases hs : a = neg32 b
    · exact .inl (by rw [hs, add32_opposite_inf hb, hP])
    · exact .inr (add32_of_isInf_right hb ha hs)

/-- Past an infinite product the accumulator is that infinity or a NaN. -/
theorem tapSumTo_past_isInf {j n : Nat} (hj : isInf (tapProduct P ln j) = true) (hn : j < n) :
    isNaN (tapSumTo P ln n) = true ∨ tapSumTo P ln n = tapProduct P ln j := by
  induction n, Nat.succ_le_of_lt hn using Nat.le_induction with
  | base => rw [tapSumTo_succ]; exact add32_isInf_right_cases hP hj _
  | succ n hle ih =>
    rw [tapSumTo_succ]
    obtain h | h := ih hle
    · exact .inl (by rw [add32_nan (.inl h), hP])
    · rw [h]; exact add32_isInf_left_cases hP hj _

theorem tapSum_of_opposite_isInf_lt {j k : Nat} (hjk : j < k) (hk : k < P.hilbN)
    (hj : isInf (tapProduct P ln j) = true) (hki : isInf (tapProduct P ln k) = true)
    (hs : signBit (tapProduct P ln j) ≠ signBit (tapProduct P ln k)) :
    tapSum P ln = P.nanResult := by
  refine tapSum_of_isNaN_tapSumTo hP (Nat.succ_le_of_lt hk) ?_
  rw [tapSumTo_succ]
  obtain h | h := tapSumTo_past_isInf hP hj hjk
  · rw [add32_nan (.inl h), hP]
  · rw [h, add32_isInf_opposite hj hki hs, hP]

theorem tapSum_of_opposite_isInf {j k : Nat} (hj : j < P.hilbN) (hk : k < P.hilbN)
    (hji : isInf (tapProduct P ln j) = true) (hki : isInf (tapProduct P ln k) = true)
    (hs : signBit (tapProduct P ln j) ≠ signBit (tapProduct P ln k)) :
    tapSum P ln = P.nanResult := by
  rcases lt_trichotomy j k with h | rfl | h
  · exact tapSum_of_opposite_isInf_lt hP h hk hji hki hs
  · exact absurd rfl hs
  · exact tapSum_of_opposite_isInf_lt hP h hj hki hji hs.symm

/-- The taps before an infinite product have summed to the opposite infinity. -/
theorem tapSum_of_overflow {k : Nat} (hk : k < P.hilbN) (hi : isInf (tapProduct P ln k) = true)
    (h : tapSumTo P ln k = neg32 (tapProduct P ln k)) : tapSum P ln = P.nanResult := by
  refine tapSum_of_isNaN_tapSumTo hP (Nat.succ_le_of_lt hk) ?_
  rw [tapSumTo_succ, h, add32_opposite_inf hi, hP]

end

/-! ### A single infinity in the sum -/

theorem isNaN_tapSumTo_of_isFinite {P : Params} {ln : List Word} {n : Nat}
    (h : ∀ j < n, isFinite (tapProduct P ln j) = true) : isNaN (tapSumTo P ln n) = false := by
  induction n with
  | zero => rw [tapSumTo_zero]; decide
  | succ n ih =>
    rw [tapSumTo_succ]
    exact isNaN_add32_of_isFinite (ih fun j hj => h j (by omega)) (h n (by omega))

/-- A single infinite product among finite ones is the sum, but for the opposite infinity before it. -/
theorem tapSum_of_single_isInf {P : Params} {ln : List Word} {k : Nat} (hk : k < P.hilbN)
    (hi : isInf (tapProduct P ln k) = true)
    (hfin : ∀ j < P.hilbN, j ≠ k → isFinite (tapProduct P ln j) = true)
    (hne : tapSumTo P ln k ≠ neg32 (tapProduct P ln k)) : tapSum P ln = tapProduct P ln k := by
  have hbefore : isNaN (tapSumTo P ln k) = false :=
    isNaN_tapSumTo_of_isFinite fun j hj => hfin j (by omega) (by omega)
  have hafter : ∀ n, k + 1 ≤ n → n ≤ P.hilbN → tapSumTo P ln n = tapProduct P ln k := by
    intro n hkn
    induction n, hkn using Nat.le_induction with
    | base => intro _; rw [tapSumTo_succ, add32_of_isInf_right hi hbefore hne]
    | succ n hkn ih =>
      intro hn
      have hf := hfin n (by omega) (by omega)
      rw [tapSumTo_succ, ih (by omega), add32_of_isInf_left hi (isNaN_of_isFinite hf)
        (ne_neg32_of_isInf_of_isFinite hi hf)]
  exact hafter _ hk le_rfl

/-- A sum does not pass a bound of at most 24 significant bits that its operands keep together. -/
theorem mag_add32_le (P : Params) {a b : Word} (ha : isFinite a = true) (hb : isFinite b = true)
    {k s : Nat} (hk : k ≤ 2 ^ 24) (hlt : k * 2 ^ s < 2 ^ 277) (h : mag a + mag b ≤ k * 2 ^ s) :
    isFinite (add32 P a b) = true ∧ mag (add32 P a b) ≤ k * 2 ^ s := by
  obtain ⟨m, hm⟩ := exists_magBits k s hk
  have hinf : (2 : ℕ) ^ 277 = magBits infBits := by decide +kernel
  have habs : ∀ w, (val w).natAbs = mag w := fun w => by unfold val; cases signBit w <;> simp
  have hle : roundMag (val a + val b).natAbs 1 ≤ m := by
    refine roundMag_le_of_le one_pos ?_
    rw [one_mul, hm]
    calc (val a + val b).natAbs ≤ (val a).natAbs + (val b).natAbs := Int.natAbs_add_le _ _
      _ = mag a + mag b := by rw [habs, habs]
      _ ≤ k * 2 ^ s := h
  rw [← hm, hinf] at hlt
  rw [add32_of_isFinite P ha hb, isFinite_pack (roundMag_lt _ _), mag_pack (roundMag_lt _ _), ← hm]
  exact ⟨hle.trans_lt (magBits_strictMono.lt_iff_lt.mp hlt), magBits_strictMono.monotone hle⟩

/-- Up to 31 products of at most 2^123 do not overflow the accumulator: 2^123 is 2^272 units, and a
multiple of it by a number below 32 is a binary32 value. -/
theorem isFinite_tapSumTo {P : Params} {ln : List Word} {n : Nat} (hn : n ≤ 31)
    (h : ∀ j < n, isFinite (tapProduct P ln j) = true ∧ mag (tapProduct P ln j) ≤ 2 ^ 272) :
    isFinite (tapSumTo P ln n) = true ∧ mag (tapSumTo P ln n) ≤ n * 2 ^ 272 := by
  induction n with
  | zero =>
    rw [tapSumTo_zero, show mag pzero = 0 by decide]
    exact ⟨by decide, Nat.zero_le _⟩
  | succ n ih =>
    obtain ⟨hf, hm⟩ := ih (by omega) fun j hj => h j (by omega)
    obtain ⟨hpf, hpm⟩ := h n (by omega)
    rw [tapSumTo_succ]
    refine mag_add32_le P hf hpf (by omega) ?_ ?_
    · have h277 : (2 : ℕ) ^ 277 = 32 * 2 ^ 272 := by decide +kernel
      have hlt : ∀ s, (n + 1) * 2 ^ s < 32 * 2 ^ s := fun s =>
        Nat.mul_lt_mul_of_pos_right (Nat.lt_succ_of_le hn) (Nat.two_pow_pos s)
      exact (hlt 272).trans_eq h277.symm
    · rw [Nat.succ_mul]
      exact Nat.add_le_add hm hpm

theorem mag_le_of_abs_value_le {w : Word} (h : |value w| ≤ 2 ^ 123) : mag w ≤ 2 ^ 272 := by
  have hu : (2 : ℝ) ^ 123 = ((2 ^ 272 : ℕ) : ℝ) * unit32 := by
    rw [Nat.cast_pow, Nat.cast_ofNat, unit32, ← zpow_natCast, ← zpow_natCast,
      ← zpow_add₀ two_ne_zero]
    rfl
  rw [value_eq_signFactor, abs_mul, abs_signFactor, one_mul,
    abs_of_nonneg (mul_nonneg (Nat.cast_nonneg _) unit32_pos.le), hu,
    mul_le_mul_iff_left₀ unit32_pos, Nat.cast_le] at h
  exact h

/-- The product of a tap in [-1, 1] and a finite entry is finite and no larger than the entry. -/
theorem tapProduct_inUnit {P : Params} {ln : List Word} {j : Nat} {u : Word}
    (hc : P.hilbCoef.all inUnit = true) (hu : ln[j]? = some u) (hf : isFinite u = true) :
    isFinite (tapProduct P ln j) = true ∧ mag (tapProduct P ln j) ≤ mag u := by
  rw [tapProduct_of_getElem? hu]
  exact mul32_inUnit (coef_of_all hc (by decide +kernel) j) hf

/-- The three clauses of R115 on a single infinite entry, with `r` the product of its tap. -/
theorem tapSum_of_single_isInf_entry {P : Params} {ln : List Word} (hP : isNaN P.nanResult = true)
    (hl : ln.length = P.hilbN) (hc : P.hilbCoef.all inUnit = true) {k : Nat} {v r : Word}
    (hk : ln[k]? = some v) (hv : isInf v = true) (hz : isZero (coef P k) = false)
    (hfin : ∀ (j : Nat) (u : Word), ln[j]? = some u → j ≠ k → isFinite u = true)
    (hr : r = pack (signBit (coef P k) ^^ signBit v) infBits) :
    (tapSumTo P ln k ≠ neg32 r → tapSum P ln = r) ∧
    (tapSumTo P ln k = neg32 r → tapSum P ln = P.nanResult) ∧
    (P.hilbN ≤ 31 → (∀ (j : Nat) (u : Word), ln[j]? = some u → j < k → |value u| ≤ 2 ^ 123) →
      tapSum P ln = r) := by
  have hkN : k < P.hilbN := by
    rw [← hl]
    exact (List.getElem?_eq_some_iff.mp hk).1
  have hentry : ∀ j < P.hilbN, ln[j]? = some (ln.getD j pzero) := fun j hj => by
    have hj' : j < ln.length := by rwa [hl]
    rw [List.getD_eq_getElem _ _ hj', List.getElem?_eq_getElem hj']
  have hcf : isFinite (coef P k) = true :=
    (inUnit_isFinite (coef_of_all hc (by decide +kernel) k)).1
  have hprod : tapProduct P ln k = r := by
    rw [tapProduct_of_getElem? hk, hr, (mul32_of_isInf hv (isNaN_of_isFinite hcf) hz).2,
      Bool.xor_comm]
  have hri : isInf r = true := by
    rw [hr]
    cases signBit (coef P k) ^^ signBit v <;> decide
  have hpf : ∀ j < P.hilbN, j ≠ k → isFinite (tapProduct P ln j) = true ∧
      mag (tapProduct P ln j) ≤ mag (ln.getD j pzero) := fun j hj hjk =>
    tapProduct_inUnit hc (hentry j hj) (hfin j _ (hentry j hj) hjk)
  have hsum : tapSumTo P ln k ≠ neg32 r → tapSum P ln = r := by
    rw [← hprod]
    exact tapSum_of_single_isInf hkN (by rwa [hprod]) fun j hj hjk => (hpf j hj hjk).1
  refine ⟨hsum, fun h => ?_, fun hN hb => hsum ?_⟩
  · rw [← hprod] at h hri
    exact tapSum_of_overflow hP hkN hri h
  · have hbound : isFinite (tapSumTo P ln k) = true := by
      refine (isFinite_tapSumTo (by omega) fun j hj => ?_).1
      obtain ⟨hf, hm⟩ := hpf j (by omega) (by omega)
      exact ⟨hf, hm.trans (mag_le_of_abs_value_le (hb j _ (hentry j (by omega)) hj))⟩
    exact ne_neg32_of_isInf_of_isFinite hri hbound

/-- Settles O13: each clause is about the product that the entry makes, a NaN or an infinity. -/
theorem filterSumsEveryTap : Obligations.FilterSumsEveryTap := by
  refine ⟨fun P ln hc hl => ⟨qfFir_eq_tapSum hc hl, fun hP => ?_⟩, by decide +kernel⟩
  have hlt : ∀ {k v}, ln[k]? = some v → k < P.hilbN := fun h => by
    rw [← hl]
    exact (List.getElem?_eq_some_iff.mp h).1
  rw [qfFir_eq_tapSum hc hl]
  refine ⟨fun k v hk hv => ?_, fun k v hk hv hz => ?_, fun j k => tapSum_of_opposite_isInf hP,
    fun hu k v r => tapSum_of_single_isInf_entry hP hl hu⟩
  · refine tapSum_of_isNaN_product hP (hlt hk) ?_
    rw [tapProduct_of_getElem? hk, mul32_nan (.inr hv), hP]
  · refine tapSum_of_isNaN_product hP (hlt hk) ?_
    rw [tapProduct_of_getElem? hk, (mul32_inf_zero hv hz).2, hP]

/-! ### The impulse response (40_common.md R117) -/

/-- Entry k of the line is the impulse exactly k pushes after it. -/
theorem pushAll_impulse_getD (P : Params) (p n : Nat) {k : Nat} (hk : k < P.hilbN) :
    (pushAll P (impulse p n)).getD k pzero = if n = p + k then one else pzero := by
  have hlen : (impulse p n).length = n + 1 := by simp [impulse]
  rw [pushAll_getD P _ hk, hlen]
  split
  · next h =>
    have hget : (impulse p n).getD (n + 1 - 1 - k) pzero = if n - k = p then one else pzero := by
      simp [impulse, List.getD_eq_getElem?_getD, show n - k < n + 1 by omega]
    rw [hget]
    exact if_congr (by omega) rfl rfl
  · next h => rw [if_neg (by omega)]

theorem plainTaps_coef {P : Params} (h : plainTaps P = true) (k : Nat) :
    isFinite (coef P k) = true ∧ coef P k ≠ 0x80000000#32 := by
  simpa using coef_of_all (p := fun h => isFinite h && h != 0x80000000#32) h (by decide) k

/-- A tap times an entry of the impulse's line is the tap under the 1.0, and a zero elsewhere. -/
theorem tapProduct_impulse {P : Params} (h : plainTaps P = true) (p n : Nat) {k : Nat}
    (hk : k < P.hilbN) :
    (n = p + k → tapProduct P (pushAll P (impulse p n)) k = coef P k) ∧
    (n ≠ p + k → isZero (tapProduct P (pushAll P (impulse p n)) k) = true) := by
  obtain ⟨hf, -⟩ := plainTaps_coef h k
  rw [tapProduct, pushAll_impulse_getD P p n hk]
  constructor
  · intro hn
    rw [if_pos hn, mul32_one P hf]
  · intro hn
    rw [if_neg hn, mul32_zero P hf (by decide)]
    cases signBit (coef P k) ^^ signBit pzero <;> decide

theorem add32_comm_of_isFinite (P : Params) {a b : Word} (ha : isFinite a = true)
    (hb : isFinite b = true) : add32 P a b = add32 P b a := by
  rw [add32_of_isFinite P ha hb, add32_of_isFinite P hb ha, sumSign, sumSign, Int.add_comm,
    Bool.and_comm]

/-- A zero of either sign added to a word that is finite and not -0. -/
theorem add32_of_isZero_right (P : Params) {a b : Word} (h : isFinite a = true)
    (ha : a ≠ 0x80000000#32) (hb : isZero b = true) : add32 P a b = a := by
  cases hz : isZero a with
  | false => exact add32_zero P h hb hz
  | true =>
    have hs : signBit a = false := by
      cases hs : signBit a with
      | false => rfl
      | true => exact absurd ((eq_pack_of_isZero hz).trans (by rw [hs]; rfl)) ha
    rw [add32_zero_zero P hz hb, hs, Bool.false_and, ← hs, ← eq_pack_of_isZero hz]

/-- The accumulator holds +0.0 until it meets the tap under the 1.0, and that tap from then on. -/
theorem tapSumTo_impulse {P : Params} (h : plainTaps P = true) (p n : Nat) {m : Nat}
    (hm : m ≤ P.hilbN) : tapSumTo P (pushAll P (impulse p n)) m =
      if p ≤ n ∧ n < p + m then coef P (n - p) else pzero := by
  induction m with
  | zero => rw [tapSumTo_zero, if_neg (by omega)]
  | succ m ih =>
    rw [tapSumTo_succ, ih (by omega)]
    obtain ⟨hone, hzero⟩ := tapProduct_impulse h p n (Nat.lt_of_succ_le hm)
    by_cases hn : n = p + m
    · obtain ⟨hf, hne⟩ := plainTaps_coef h m
      rw [hone hn, if_neg (by omega), if_pos (by omega), show n - p = m by omega,
        add32_comm_of_isFinite P (by decide) hf, add32_pzero P hf hne]
    · obtain ⟨hf, hne⟩ := plainTaps_coef h (n - p)
      have hiff : (p ≤ n ∧ n < p + (m + 1)) ↔ (p ≤ n ∧ n < p + m) := by omega
      rw [if_congr hiff rfl rfl]
      split
      · exact add32_of_isZero_right P hf hne (hzero hn)
      · exact add32_of_isZero_right P (by decide) (by decide) (hzero hn)

/-- What the constraints on the filter say of its size (40_common.md R113). -/
theorem filterWf_size {P : Params} (h : filterWf P = true) :
    P.hilbCoef.length = P.hilbN ∧ 0 < P.hilbN := by
  simp only [filterWf, Bool.and_eq_true, beq_iff_eq, decide_eq_true_eq] at h
  omega

/-- Settles O14: entry k of the line is the impulse k pushes after it, so the in-phase branch sees it
after D pushes, and tap n - p is under it after push n. -/
theorem impulseComesOutDelayed : Obligations.ImpulseComesOutDelayed := by
  refine ⟨fun P hw ht p n => ?_, by decide, rfl⟩
  obtain ⟨hc, hN⟩ := filterWf_size hw
  refine ⟨pushAll_impulse_getD P p n (delay_lt P hN), ?_⟩
  rw [qfFir_eq_tapSum hc (length_pushAll P _), tapSum, tapSumTo_impulse ht p n le_rfl]
  exact if_congr (by omega) rfl rfl

end Sys2Proof.Machine
end

section
/-! PROOFS of 40_common.md, the commands: the valid configurations, the word written to `CMD`, the unit
that a command stays in, and the sample index. -/

namespace Sys2Proof.Machine

open Safety

/-! ### Valid configurations (40_common.md R119) -/

theorem sideband_iff (sb : BitVec 2) : (sb != 3#2) = true ↔ sb = 0 ∨ sb = 1 ∨ sb = 2 := by
  revert sb; decide

theorem validConfig_iff (m : Word) (sb : BitVec 2) : validConfig m sb = true ↔
    gt32 m pzero = true ∧ le32 m one = true ∧ (sb = 0 ∨ sb = 1 ∨ sb = 2) := by
  rw [validConfig, Bool.and_eq_true, Bool.and_eq_true, sideband_iff, and_assoc]

theorem value_pzero : value pzero = 0 := value_eq_zero.mpr (by decide)

theorem value_one : value one = 1 := by
  rw [value_eq_val, show val one = ((2 ^ 149 : ℕ) : ℤ) by decide +kernel, Int.cast_natCast, mul_comm,
    unit32_mul_two_pow]

/-- A word in the order below 1.0 and above +0.0 is finite, since an infinity is beyond 1.0. -/
theorem gt32_pzero_and_le32_one_iff (m : Word) : gt32 m pzero = true ∧ le32 m one = true ↔
    isFinite m = true ∧ 0 < value m ∧ value m ≤ 1 := by
  rw [← value_pzero, ← value_one, ← not_lt, value_lt_iff, value_lt_iff, not_lt]
  constructor
  · rintro ⟨hgt, hle⟩
    have hn : isNaN m = false := by
      cases hn : isNaN m with
      | false => rfl
      | true => rw [le32_nan (.inl hn)] at hle; cases hle
    rw [gt32, lt32_iff (by decide) hn] at hgt
    rw [le32_iff hn (by decide)] at hle
    refine ⟨(isFinite_or_isInf hn).resolve_right fun hi => ?_, hgt, hle⟩
    obtain ⟨hlo, hhi⟩ := abs_val_lt (w := one) (by decide)
    rw [show val pzero = 0 by decide] at hgt
    rw [val_of_isInf hi] at hgt hle
    cases hs : signBit m with
    | false =>
      rw [hs, if_neg Bool.false_ne_true] at hle
      exact hhi.not_ge hle
    | true =>
      rw [hs, if_pos rfl] at hgt
      omega
  · rintro ⟨hf, hgt, hle⟩
    have hn := isNaN_of_isFinite hf
    exact ⟨(lt32_iff (by decide) hn).mpr hgt, (le32_iff hn (by decide)).mpr hle⟩

/-- Settles O32: the two comparisons order the values, and no infinity passes the second. -/
theorem validConfigurationIsTheInterval : Obligations.ValidConfigurationIsTheInterval := by
  refine ⟨validConfig_iff, fun m sb => ?_, by decide +kernel, by decide +kernel, by decide +kernel,
    by decide +kernel, by decide +kernel, by decide +kernel⟩
  rw [validConfig_iff, ← and_assoc, gt32_pzero_and_le32_one_iff, and_assoc, and_assoc]

/-! ### The word written to `CMD` (40_common.md R110) -/

theorem execute_of_decode {w : Word} {i : Instr} (h : decode w = .command i) (s : State) :
    execute w s = exec i s := by
  simp [execute, h]

theorem withFetchWord_eq (s : State) (w : Nat) :
    s.withFetchWord 32 w = placeEvents [commandWrite (BitVec.ofNat 32 w)] s := by
  rw [State.withFetchWord, show BitVec.ofNat 32 (w % 2 ^ 32) = BitVec.ofNat 32 w from
    BitVec.eq_of_toNat_eq (by simp)]

/-- Settles O19: the step takes the write off, and the write of a command's word runs the command. -/
theorem stepRunsTheDecodedCommand : Obligations.StepRunsTheDecodedCommand := by
  refine ⟨fun s v rest w i hp hv hd => ?_, fun s w i hd => ?_⟩
  · have hdrop : dropEvent s = { s with hostSide := { s.hostSide with pending := rest } } := by
      rw [dropEvent, hp, List.tail_cons]
    calc step s = performEvent (hostWrite 0x008 v) (dropEvent s) := by simp only [step, hp]
      _ = memWrite 0x008 w (dropEvent s) := performEvent_hostWrite (by decide) hv
      _ = execute w (dropEvent s) := rfl
      _ = exec i (dropEvent s) := execute_of_decode hd _
      _ = _ := by rw [hdrop]
  · rw [withFetchWord_eq, step_placeEvents, placeEvents_nil, performEvent_commandWrite,
      execute_of_decode hd]

/-- Settles O34: NOP is `Complete(0)`, which sets no flag. -/
theorem nopOnlyRecordsSuccess : Obligations.NopOnlyRecordsSuccess :=
  fun s => congrArg Host.Outcome.next (complete_none s)

/-! ### The unit a command stays in (40_common.md R111) -/

/-- The code and the unit that a MOD command leaves, from all that it may read: its unit `u`, its input
`x` and the staged `m` and `cfo`. Any other command leaves its unit. -/
def modEffect (u : ModUnit) (x m cfo : Word) : Instr → ErrCode × ModUnit
  | .modCreate sb sc =>
    if u.created then (.invalidState, u)
    else if validConfig m sb then (.none, modCreateUnit thisBlock m cfo sb sc)
    else (.invalidParameter, u)
  | .modStep => if u.created then (.none, modStepUnit thisBlock x u) else (.invalidState, u)
  | .modDestroy => if u.created then (.none, initMod thisBlock) else (.invalidState, u)
  | _ => (.none, u)

/-- The code and the unit that a DEM command leaves, from all that it may read; any other command leaves
its unit. -/
def demEffect (d : DemUnit) (yr yi m cfo : Word) : Instr → ErrCode × DemUnit
  | .demCreate sb sc =>
    if d.created then (.invalidState, d)
    else if validConfig m sb then (.none, demCreateUnit thisBlock m cfo sb sc)
    else (.invalidParameter, d)
  | .demStep => if d.created then (.none, demStepUnit thisBlock yr yi d) else (.invalidState, d)
  | .demDestroy => if d.created then (.none, initDem thisBlock) else (.invalidState, d)
  | _ => (.none, d)

/-- A MOD command is its effect on the MOD unit and the end of a command. -/
theorem exec_of_isModCommand {i : Instr} (hi : isModCommand i = true) (s : State) :
    exec i s = .next (complete (modEffect s.mod s.modX s.midx s.cfo i).1
      { s with mod := (modEffect s.mod s.modX s.midx s.cfo i).2 }) := by
  cases i with
  | modCreate sb sc =>
    obtain ⟨hc, h⟩ | ⟨hc, hv, h⟩ | ⟨hc, hv, h⟩ := execModCreate_cases sb sc s
    · simp [exec, h, modEffect, hc, raiseError]
    · simp [exec, h, modEffect, hc, hv, raiseError]
    · simp [exec, h, modEffect, hc, hv]
  | modStep =>
    obtain ⟨hc, h⟩ | ⟨hc, h⟩ := execModStep_cases s
    · simp [exec, h, modEffect, hc, raiseError]
    · simp [exec, h, modEffect, hc]
  | modDestroy =>
    obtain ⟨hc, h⟩ | ⟨hc, h⟩ := execModDestroy_cases s
    · simp [exec, h, modEffect, hc, raiseError]
    · simp [exec, h, modEffect, hc]
  | nop | demCreate | demStep | demDestroy => cases hi

/-- A DEM command is its effect on the DEM unit and the end of a command. -/
theorem exec_of_isDemCommand {i : Instr} (hi : isDemCommand i = true) (s : State) :
    exec i s = .next (complete (demEffect s.dem s.demYre s.demYim s.midx s.cfo i).1
      { s with dem := (demEffect s.dem s.demYre s.demYim s.midx s.cfo i).2 }) := by
  cases i with
  | demCreate sb sc =>
    obtain ⟨hc, h⟩ | ⟨hc, hv, h⟩ | ⟨hc, hv, h⟩ := execDemCreate_cases sb sc s
    · simp [exec, h, demEffect, hc, raiseError]
    · simp [exec, h, demEffect, hc, hv, raiseError]
    · simp [exec, h, demEffect, hc, hv]
  | demStep =>
    obtain ⟨hc, h⟩ | ⟨hc, h⟩ := execDemStep_cases s
    · simp [exec, h, demEffect, hc, raiseError]
    · simp [exec, h, demEffect, hc]
  | demDestroy =>
    obtain ⟨hc, h⟩ | ⟨hc, h⟩ := execDemDestroy_cases s
    · simp [exec, h, demEffect, hc, raiseError]
    · simp [exec, h, demEffect, hc]
  | nop | modCreate | modStep | modDestroy => cases hi

/-- Only a create reads the staging registers. -/
theorem modEffect_congr (u : ModUnit) (x : Word) {m m' cfo cfo' : Word} {i : Instr}
    (h : ∀ sb sc, i = .modCreate sb sc → m = m' ∧ cfo = cfo') :
    modEffect u x m cfo i = modEffect u x m' cfo' i := by
  cases i with
  | modCreate sb sc =>
    obtain ⟨rfl, rfl⟩ := h sb sc rfl
    rfl
  | nop | modStep | modDestroy | demCreate | demStep | demDestroy => rfl

theorem demEffect_congr (d : DemUnit) (yr yi : Word) {m m' cfo cfo' : Word} {i : Instr}
    (h : ∀ sb sc, i = .demCreate sb sc → m = m' ∧ cfo = cfo') :
    demEffect d yr yi m cfo i = demEffect d yr yi m' cfo' i := by
  cases i with
  | demCreate sb sc =>
    obtain ⟨rfl, rfl⟩ := h sb sc rfl
    rfl
  | nop | modCreate | modStep | modDestroy | demStep | demDestroy => rfl

/-- Settles O52: a command's effect is a function of what the two states have in common. -/
theorem commandsStayInTheirUnit : Obligations.CommandsStayInTheirUnit := by
  constructor
  · intro i s₁ s₂ hi hu hx hst
    have heff : modEffect s₁.mod s₁.modX s₁.midx s₁.cfo i =
        modEffect s₂.mod s₂.modX s₂.midx s₂.cfo i := by rw [hu, hx, modEffect_congr _ _ hst]
    refine ⟨_, _, exec_of_isModCommand hi s₁, exec_of_isModCommand hi s₂, rfl, ?_, ?_⟩
    · rw [complete_mod, complete_mod, heff]
    · rw [complete_status, complete_status, lastErr_statusAfter, lastErr_statusAfter, heff]
  · intro i s₁ s₂ hi hu hr hq hst
    have heff : demEffect s₁.dem s₁.demYre s₁.demYim s₁.midx s₁.cfo i =
        demEffect s₂.dem s₂.demYre s₂.demYim s₂.midx s₂.cfo i := by
      rw [hu, hr, hq, demEffect_congr _ _ _ hst]
    refine ⟨_, _, exec_of_isDemCommand hi s₁, exec_of_isDemCommand hi s₂, rfl, ?_, ?_⟩
    · rw [complete_dem, complete_dem, heff]
    · rw [complete_status, complete_status, lastErr_statusAfter, lastErr_statusAfter, heff]

/-! ### The sample index (40_common.md R122) -/

@[simp] theorem modStepUnit_nidx (P : Params) (x : Word) (u : ModUnit) :
    (modStepUnit P x u).nidx = nextIndex u.nidx := by unfold modStepUnit; split <;> rfl

@[simp] theorem demStepUnit_nidx (P : Params) (yr yi : Word) (d : DemUnit) :
    (demStepUnit P yr yi d).nidx = nextIndex d.nidx := rfl

/-- `Counts w live idx`: in every live state the write of `w` to `CMD` advances the index by one, sets
no error flag and leaves a live state. -/
def Counts (w : Word) (live : State → Prop) (idx : State → Word) : Prop :=
  ∀ s, live s → ∃ t, performEvent (commandWrite w) s = .next t ∧ live t ∧
    idx t = nextIndex (idx s) ∧ t.errflags = s.errflags

theorem nextIndex_add_ofNat (x : Word) (n : Nat) :
    nextIndex x + BitVec.ofNat 32 n = x + BitVec.ofNat 32 (n + 1) := by
  rw [nextIndex, BitVec.ofNat_add, BitVec.add_assoc, BitVec.add_comm 1]
  rfl

/-- Writes that count run to their end and are counted. -/
theorem Counts.exists_runsTo {w : Word} {live : State → Prop} {idx : State → Word}
    (h : Counts w live idx) (n : Nat) {s : State} (hs : live s) :
    ∃ t, RunsTo (List.replicate n (commandWrite w)) s t ∧
      idx t = idx s + BitVec.ofNat 32 n ∧ t.errflags = s.errflags := by
  induction n generalizing s with
  | zero => exact ⟨s, runsTo_nil s, (BitVec.add_zero _).symm, rfl⟩
  | succ n ih =>
    obtain ⟨t, ht, hlive, hidx, herr⟩ := h s hs
    obtain ⟨u, hu, hidx', herr'⟩ := ih hlive
    exact ⟨u, runsTo_cons ht hu, by rw [hidx', hidx, nextIndex_add_ofNat], herr'.trans herr⟩

theorem complete_none_errflags (s : State) : (complete .none s).errflags = s.errflags :=
  BitVec.or_zero

/-- The write of a command's word to `CMD` is the command. -/
theorem performEvent_commandWrite_encode (i : Instr) (s : State) :
    performEvent (commandWrite (encode i)) s = exec i s := by
  rw [performEvent_commandWrite, execute_of_decode (decode_encode i)]

theorem counts_modStep :
    Counts (encode .modStep) (fun s => s.mod.created = true) (fun s => s.mod.nidx) := by
  intro s hs
  obtain ⟨hc, -⟩ | ⟨-, h⟩ := execModStep_cases s
  · rw [hs] at hc; cases hc
  · exact ⟨_, (performEvent_commandWrite_encode _ s).trans h, (modStepUnit_created ..).trans hs,
      modStepUnit_nidx .., complete_none_errflags _⟩

theorem counts_demStep :
    Counts (encode .demStep) (fun s => s.dem.created = true) (fun s => s.dem.nidx) := by
  intro s hs
  obtain ⟨hc, -⟩ | ⟨-, h⟩ := execDemStep_cases s
  · rw [hs] at hc; cases hc
  · exact ⟨_, (performEvent_commandWrite_encode _ s).trans h, (demStepUnit_created ..).trans hs,
      demStepUnit_nidx .., complete_none_errflags _⟩

/-- Settles O51: each write of the step word counts, by induction on their number. -/
theorem sampleIndexCountsSteps : Obligations.SampleIndexCountsSteps := by
  refine ⟨fun n s => counts_modStep.exists_runsTo n, fun n s => counts_demStep.exists_runsTo n,
    fun s => ⟨fun hs => ?_, fun hs => ?_⟩⟩
  · obtain ⟨-, h⟩ | ⟨hc, -⟩ := execModStep_cases s
    · exact ⟨_, h, rfl⟩
    · rw [hs] at hc; cases hc
  · obtain ⟨-, h⟩ | ⟨hc, -⟩ := execDemStep_cases s
    · exact ⟨_, h, rfl⟩
    · rw [hs] at hc; cases hc

end Sys2Proof.Machine
end

section
/-! PROOFS of 41_modulator.md: the three commands on a unit that they accept, one equation for each kind
of step, and the two sidebands driven alike. -/

namespace Sys2Proof.Machine

open Safety

/-! ### The commands that pass their checks: the unit and `STATUS` are all that changes -/

theorem exec_modCreate_of_valid {sb : BitVec 2} (sc : Bool) {s : State} (hc : s.mod.created = false)
    (hv : validConfig s.midx sb = true) : exec (.modCreate sb sc) s =
      .next { s with status := statusAfter s.status .none true s.dem.created
                     mod := modCreateUnit thisBlock s.midx s.cfo sb sc } := by
  rw [exec_of_isModCommand rfl]
  simp [modEffect, hc, hv, complete_none, modCreateUnit]

theorem exec_modStep_of_created {s : State} (hc : s.mod.created = true) : exec .modStep s =
    .next { s with status := statusAfter s.status .none true s.dem.created
                   mod := modStepUnit thisBlock s.modX s.mod } := by
  rw [exec_of_isModCommand rfl]
  simp [modEffect, hc, complete_none]

theorem exec_modDestroy_of_created {s : State} (hc : s.mod.created = true) : exec .modDestroy s =
    .next { s with status := statusAfter s.status .none false s.dem.created
                   mod := initMod thisBlock } := by
  rw [exec_of_isModCommand rfl]
  simp [modEffect, hc, complete_none, initMod]

/-- Settles O35: `modCreateUnit` is the zeroed unit of 40_common.md R121 with the configuration in it. -/
theorem modCreateLoadsTheConfiguration : Obligations.ModCreateLoadsTheConfiguration :=
  fun _ sc _ hc hv => exec_modCreate_of_valid sc hc hv

/-- Settles O39: the unit becomes the zeroed one of 40_common.md R121. -/
theorem modDestroyZeroesTheUnit : Obligations.ModDestroyZeroesTheUnit :=
  fun _ hc => exec_modDestroy_of_created hc

/-! ### One step of the unit (41_modulator.md R131) -/

/-- The line after a unit has pushed its single-sideband filter input for the sample `x`. -/
def pushedLine (P : Params) (x : Word) (u : ModUnit) : List Word :=
  qfPush P u.mline (ssbInput P u.m x u.sc)

section
variable (P : Params) (x : Word) (u : ModUnit)

/-- A modulator step with both sidebands; the line is not read and not pushed. -/
theorem modStepUnit_dsb (hb : u.sb = 0#2) : modStepUnit P x u =
    { u with yre := dsbOutput P u.m x u.sc, yim := pzero, nidx := nextIndex u.nidx } :=
  if_pos hb

/-- A modulator step with a single sideband. -/
theorem modStepUnit_ssb (hb : u.sb ≠ 0#2) : modStepUnit P x u =
    { u with
      mline := pushedLine P x u
      yre := qfInphase P (pushedLine P x u)
      yim := ssbQuadrature u.sb (qfFir P (pushedLine P x u))
      nidx := nextIndex u.nidx } :=
  if_neg hb

end

/-! ### Double sideband (41_modulator.md R132, R133) -/

theorem dsbOutput_carrier (P : Params) (m x : Word) :
    dsbOutput P m x false = add32 P one (mul32 P m x) := rfl

theorem dsbOutput_suppressed (P : Params) (m x : Word) : dsbOutput P m x true = mul32 P m x := rfl

/-- Settles O36: the branch SB = 0 with the carrier. -/
theorem modStepDoubleSidebandWithCarrier : Obligations.ModStepDoubleSidebandWithCarrier := by
  intro s hc hb hsc
  have hout : dsbOutput thisBlock s.mod.m s.modX s.mod.sc =
      add32 thisBlock one (mul32 thisBlock s.mod.m s.modX) := by rw [hsc, dsbOutput_carrier]
  rw [exec_modStep_of_created hc, modStepUnit_dsb _ _ _ hb, hout]
  rfl

/-- Settles O37: the branch SB = 0 without the carrier. -/
theorem modStepDoubleSidebandSuppressed : Obligations.ModStepDoubleSidebandSuppressed := by
  intro s hc hb hsc
  have hout : dsbOutput thisBlock s.mod.m s.modX s.mod.sc = mul32 thisBlock s.mod.m s.modX := by
    rw [hsc, dsbOutput_suppressed]
  rw [exec_modStep_of_created hc, modStepUnit_dsb _ _ _ hb, hout]
  rfl

/-! ### Single sideband (41_modulator.md R134) -/

theorem ssbInput_carrier (P : Params) (m x : Word) :
    ssbInput P m x false = add32 P (mul32 P m x) one := rfl

theorem ssbInput_suppressed (P : Params) (m x : Word) : ssbInput P m x true = mul32 P m x := rfl

theorem ssbQuadrature_upper {sb : BitVec 2} (hb : sb = 1#2) (q : Word) : ssbQuadrature sb q = q :=
  if_pos hb

theorem ssbQuadrature_lower {sb : BitVec 2} (hb : sb = 2#2) (q : Word) :
    ssbQuadrature sb q = neg32 q := by
  subst hb; rfl

/-- Settles O38: the line is this block's 19 entries long, so its in-phase entry is entry 9 and the
filter output is the sum over every tap. -/
theorem modStepSingleSideband : Obligations.ModStepSingleSideband := by
  intro s hc hlen hsb
  have hb : s.mod.sb ≠ 0#2 := by rcases hsb with h | h <;> rw [h] <;> decide
  have hline : (pushedLine thisBlock s.modX s.mod).length = 19 := qfPush_length _ hlen
  refine ⟨ssbInput thisBlock s.mod.m s.modX s.mod.sc,
    ssbQuadrature s.mod.sb (qfFir thisBlock (pushedLine thisBlock s.modX s.mod)),
    pushedLine thisBlock s.modX s.mod, fun h => ?_, fun h => ?_, hline,
    qfPush_getElem?_zero _ _ (by decide), fun k hk => qfPush_getElem?_succ _ _ (Nat.succ_lt_succ hk),
    fun h => ?_, fun h => ?_, ?_⟩
  · rw [h, ssbInput_suppressed]
  · rw [h, ssbInput_carrier, one]
  · rw [ssbQuadrature_upper h, qfFir_eq_tapSum (by decide) hline]
  · rw [ssbQuadrature_lower h, qfFir_eq_tapSum (by decide) hline]
  · rw [exec_modStep_of_created hc, modStepUnit_ssb _ _ _ hb]
    rfl

/-! ### What a step does not read (41_modulator.md R137, 42_demodulator.md R173) -/

/-- Settles O56: in each branch of either step the two fields are only carried along. -/
theorem carrierOffsetFeedsNoOutput : Obligations.CarrierOffsetFeedsNoOutput := by
  constructor
  · intro P x c n u
    by_cases hb : u.sb = 0#2
    · rw [modStepUnit_dsb P x u hb, modStepUnit_dsb P x { u with cfo := c, nidx := n } hb]
      rfl
    · rw [modStepUnit_ssb P x u hb, modStepUnit_ssb P x { u with cfo := c, nidx := n } hb]
      rfl
  · intro P yr yi c n d
    by_cases hb : d.sb = 0#2
    · obtain hsc | hsc := Bool.eq_false_or_eq_true d.sc
      · rw [demStepUnit_coherent P yr yi d hb hsc,
          demStepUnit_coherent P yr yi { d with cfo := c, nidx := n } hb hsc]
        rfl
      · rw [demStepUnit_envelope P yr yi d hb hsc,
          demStepUnit_envelope P yr yi { d with cfo := c, nidx := n } hb hsc]
        rfl
    · rw [demStepUnit_sideband P yr yi d hb,
        demStepUnit_sideband P yr yi { d with cfo := c, nidx := n } hb]
      rfl

/-! ### A list of samples, as the host modulates it -/

/-- The unit after the steps of a list of samples, first sample first. -/
def modStepAll (P : Params) (xs : List Word) (u : ModUnit) : ModUnit :=
  xs.foldl (fun u x => modStepUnit P x u) u

theorem modStepAll_append_singleton (P : Params) (xs : List Word) (x : Word) (u : ModUnit) :
    modStepAll P (xs ++ [x]) u = modStepUnit P x (modStepAll P xs u) := by
  rw [modStepAll, List.foldl_append]; rfl

/-- The host's write of `MOD_X` changes only that register. -/
theorem performEvent_write_modX (x : Word) (s : State) :
    performEvent (hostWrite (regOffset .modX) (.word x)) s = .next { s with modX := x } :=
  performEvent_registerWrite (by decide) rfl (by decide)

/-- The host's writes and steps of a list of samples run to their end and step the unit over the list. -/
theorem exists_runsTo_modulateSamples (xs : List Word) {s : State} (hc : s.mod.created = true) :
    ∃ t, RunsTo (modulateSamples xs) s t ∧ t.mod = modStepAll thisBlock xs s.mod := by
  induction xs generalizing s with
  | nil => exact ⟨s, runsTo_nil s, rfl⟩
  | cons x xs ih =>
    have hstep : performEvent (commandWrite 0x00000002#32) { s with modX := x } = _ :=
      (performEvent_commandWrite_encode .modStep _).trans (exec_modStep_of_created hc)
    exact exists_runsTo_cons (performEvent_write_modX x s)
      (exists_runsTo_cons hstep (ih ((modStepUnit_created ..).trans hc)))

/-! ### The two sidebands (41_modulator.md R135) -/

/-- An upper sideband unit `u` and a lower sideband unit `l` with the same m, SC and line. -/
structure SidebandPair (u l : ModUnit) : Prop where
  upper : u.sb = 1#2
  lower : l.sb = 2#2
  m : u.m = l.m
  sc : u.sc = l.sc
  mline : u.mline = l.mline

section
variable {u l : ModUnit} (h : SidebandPair u l)
include h

theorem SidebandPair.upper_ne : u.sb ≠ 0#2 := by rw [h.upper]; decide
theorem SidebandPair.lower_ne : l.sb ≠ 0#2 := by rw [h.lower]; decide

/-- The units push the same value into the same line. -/
theorem SidebandPair.pushedLine_eq (P : Params) (x : Word) : pushedLine P x u = pushedLine P x l := by
  unfold pushedLine
  rw [h.m, h.sc, h.mline]

theorem SidebandPair.step (P : Params) (x : Word) :
    SidebandPair (modStepUnit P x u) (modStepUnit P x l) := by
  rw [modStepUnit_ssb P x u h.upper_ne, modStepUnit_ssb P x l h.lower_ne]
  exact ⟨h.upper, h.lower, h.m, h.sc, h.pushedLine_eq P x⟩

theorem SidebandPair.stepAll (P : Params) (xs : List Word) :
    SidebandPair (modStepAll P xs u) (modStepAll P xs l) := by
  induction xs using List.reverseRecOn with
  | nil => exact h
  | append_singleton xs x ih =>
    rw [modStepAll_append_singleton, modStepAll_append_singleton]
    exact ih.step P x

theorem SidebandPair.yre_step (P : Params) (x : Word) :
    (modStepUnit P x u).yre = (modStepUnit P x l).yre := by
  rw [modStepUnit_ssb P x u h.upper_ne, modStepUnit_ssb P x l h.lower_ne, h.pushedLine_eq]

theorem SidebandPair.yim_step (P : Params) (x : Word) :
    (modStepUnit P x l).yim = neg32 (modStepUnit P x u).yim := by
  rw [modStepUnit_ssb P x u h.upper_ne, modStepUnit_ssb P x l h.lower_ne, h.pushedLine_eq,
    ssbQuadrature_upper h.upper, ssbQuadrature_lower h.lower]

end

/-- Settles O50: the samples before the last keep the two units a pair, and the last step of a pair
mirrors its imaginary parts. -/
theorem sidebandsMirrorEachOther : Obligations.SidebandsMirrorEachOther := by
  intro xs x s₁ s₂ hc₁ hc₂ hb₁ hb₂ hm hsc hl
  obtain ⟨t₁, hr₁, ht₁⟩ := exists_runsTo_modulateSamples (xs ++ [x]) hc₁
  obtain ⟨t₂, hr₂, ht₂⟩ := exists_runsTo_modulateSamples (xs ++ [x]) hc₂
  rw [modStepAll_append_singleton] at ht₁ ht₂
  have hpair : SidebandPair (modStepAll thisBlock xs s₁.mod) (modStepAll thisBlock xs s₂.mod) :=
    SidebandPair.stepAll ⟨hb₁, hb₂, hm, hsc, hl⟩ thisBlock xs
  refine ⟨t₁, t₂, hr₁, hr₂, ?_, ?_⟩
  · rw [ht₁, ht₂, hpair.yre_step]
  · rw [ht₁, ht₂, hpair.yim_step]
    rfl

end Sys2Proof.Machine
end

section
/-! PROOFS of 42_demodulator.md, the commands: the three commands on a unit that they accept, and one
equation for each mode of a step. -/

namespace Sys2Proof.Machine

open Safety

/-! ### The commands that pass their checks: the unit and `STATUS` are all that changes -/

theorem exec_demCreate_of_valid {sb : BitVec 2} (sc : Bool) {s : State} (hc : s.dem.created = false)
    (hv : validConfig s.midx sb = true) : exec (.demCreate sb sc) s =
      .next { s with status := statusAfter s.status .none s.mod.created true
                     dem := demCreateUnit thisBlock s.midx s.cfo sb sc } := by
  rw [exec_of_isDemCommand rfl]
  simp [demEffect, hc, hv, complete_none, demCreateUnit]

theorem exec_demStep_of_created {s : State} (hc : s.dem.created = true) : exec .demStep s =
    .next { s with status := statusAfter s.status .none s.mod.created true
                   dem := demStepUnit thisBlock s.demYre s.demYim s.dem } := by
  rw [exec_of_isDemCommand rfl]
  simp [demEffect, hc, complete_none]

theorem exec_demDestroy_of_created {s : State} (hc : s.dem.created = true) : exec .demDestroy s =
    .next { s with status := statusAfter s.status .none s.mod.created false
                   dem := initDem thisBlock } := by
  rw [exec_of_isDemCommand rfl]
  simp [demEffect, hc, complete_none, initDem]

/-- Settles O40: `demCreateUnit` is the zeroed unit of 40_common.md R121 with the configuration in it. -/
theorem demCreateLoadsTheConfiguration : Obligations.DemCreateLoadsTheConfiguration :=
  fun _ sc _ hc hv => exec_demCreate_of_valid sc hc hv

/-- Settles O44: the unit becomes the zeroed one of 40_common.md R121. -/
theorem demDestroyZeroesTheUnit : Obligations.DemDestroyZeroesTheUnit :=
  fun _ hc => exec_demDestroy_of_created hc

/-! ### Envelope detection (42_demodulator.md R162) -/

/-- Settles O41: the branch SB = 0 with the carrier. -/
theorem demStepEnvelope : Obligations.DemStepEnvelope := by
  intro s hc hb hsc
  rw [exec_demStep_of_created hc, demStepUnit_envelope _ _ _ _ hb hsc]
  rfl

/-! ### Single sideband (42_demodulator.md R169) -/

/-- The carrier term taken off, if it is sent. -/
def dropCarrier (P : Params) (sc : Bool) (v : Word) : Word := if sc then v else sub32 P v one

theorem dropCarrier_carrier (P : Params) (v : Word) : dropCarrier P false v = sub32 P v one := rfl

theorem dropCarrier_suppressed (P : Params) (v : Word) : dropCarrier P true v = v := rfl

/-- The two parts of a pushed sample joined, with the carrier still in them: the filtered part is taken
off for the upper sideband and put on for the lower. -/
def joinedParts (P : Params) (yr yi : Word) (d : DemUnit) : Word :=
  if d.sb = 1#2 then sub32 P (qfInphase P (qfPush P d.lr yr)) (qfFir P (qfPush P d.li yi))
  else add32 P (qfInphase P (qfPush P d.lr yr)) (qfFir P (qfPush P d.li yi))

section
variable (P : Params) (yr yi : Word) {d : DemUnit}

theorem joinedParts_upper (hb : d.sb = 1#2) : joinedParts P yr yi d =
    sub32 P (qfInphase P (qfPush P d.lr yr)) (qfFir P (qfPush P d.li yi)) := if_pos hb

theorem joinedParts_lower (hb : d.sb = 2#2) : joinedParts P yr yi d =
    add32 P (qfInphase P (qfPush P d.lr yr)) (qfFir P (qfPush P d.li yi)) :=
  if_neg (by rw [hb]; decide)

theorem sideband_eq : sideband P yr yi d = { d with
    lr := qfPush P d.lr yr
    li := qfPush P d.li yi
    z := div32 P (mul32 P half (dropCarrier P d.sc (joinedParts P yr yi d))) d.m } := rfl

end

/-- Settles O43: the lines are this block's 19 entries long, so the in-phase entry is entry 9 and the
filter output is the sum over every tap. -/
theorem demStepSingleSideband : Obligations.DemStepSingleSideband := by
  intro s hc hlr hli hsb
  have hb : s.dem.sb ≠ 0#2 := by rcases hsb with h | h <;> rw [h] <;> decide
  have hli' : (qfPush thisBlock s.dem.li s.demYim).length = 19 := qfPush_length _ hli
  refine ⟨qfPush thisBlock s.dem.lr s.demYre, qfPush thisBlock s.dem.li s.demYim,
    joinedParts thisBlock s.demYre s.demYim s.dem,
    dropCarrier thisBlock s.dem.sc (joinedParts thisBlock s.demYre s.demYim s.dem),
    qfPush_length _ hlr, qfPush_getElem?_zero _ _ (by decide),
    fun k hk => qfPush_getElem?_succ _ _ (Nat.succ_lt_succ hk),
    hli', qfPush_getElem?_zero _ _ (by decide),
    fun k hk => qfPush_getElem?_succ _ _ (Nat.succ_lt_succ hk),
    fun h => ?_, fun h => ?_, fun h => ?_, fun h => ?_, ?_⟩
  · rw [joinedParts_upper _ _ _ h, qfFir_eq_tapSum (by decide) hli']; rfl
  · rw [joinedParts_lower _ _ _ h, qfFir_eq_tapSum (by decide) hli']; rfl
  · rw [h, dropCarrier_carrier, one]
  · rw [h, dropCarrier_suppressed]
  · rw [exec_demStep_of_created hc, demStepUnit_sideband _ _ _ _ hb, sideband_eq, half]
    rfl

/-! ### The clamp of the frequency and the correction of the phase (42_demodulator.md R166, R167) -/

theorem lt32_eq_true {a b : Word} :
    lt32 a b = true ↔ isNaN a = false ∧ isNaN b = false ∧ val a < val b := by
  simp [lt32, and_assoc]

theorem le32_eq_true {a b : Word} :
    le32 a b = true ↔ isNaN a = false ∧ isNaN b = false ∧ val a ≤ val b := by
  simp [le32, and_assoc]

/-- A word below the negation of a bound that is not negative is not at or above the bound. -/
theorem ge32_eq_false_of_lt32_neg32 {w c : Word} (hc : 0 ≤ val c) (h : lt32 w (neg32 c) = true) :
    ge32 w c = false := by
  rw [← Bool.not_eq_true, ge32, le32_eq_true]
  rintro ⟨-, -, hle⟩
  obtain ⟨-, -, hlt⟩ := lt32_eq_true.mp h
  rw [val_neg32] at hlt
  omega

theorem gt32_eq_false_of_ge32 {w c : Word} (h : ge32 w c = false) : gt32 w c = false := by
  rw [← Bool.not_eq_true, gt32, lt32_eq_true]
  rintro ⟨hc, hw, hlt⟩
  exact Bool.false_ne_true (h.symm.trans (le32_eq_true.mpr ⟨hc, hw, hlt.le⟩))

section
variable {P : Params} {w : Word}

theorem clampOmega_of_gt (h : gt32 w P.pllWmax = true) : clampOmega P w = P.pllWmax := if_pos h

theorem clampOmega_of_lt (hP : 0 ≤ val P.pllWmax) (h : lt32 w (neg32 P.pllWmax) = true) :
    clampOmega P w = neg32 P.pllWmax := by
  rw [clampOmega, gt32_eq_false_of_ge32 (ge32_eq_false_of_lt32_neg32 hP h),
    if_neg Bool.false_ne_true, if_pos h]

theorem clampOmega_of_between (hg : gt32 w P.pllWmax = false)
    (hl : lt32 w (neg32 P.pllWmax) = false) : clampOmega P w = w := by
  rw [clampOmega, hg, hl, if_neg Bool.false_ne_true, if_neg Bool.false_ne_true]

theorem wrapPhase_of_ge (h : ge32 w pi32 = true) : wrapPhase P w = sub32 P w twoPi32 := if_pos h

theorem wrapPhase_of_lt (h : lt32 w (neg32 pi32) = true) : wrapPhase P w = add32 P w twoPi32 := by
  rw [wrapPhase, ge32_eq_false_of_lt32_neg32 (by decide) h, if_neg Bool.false_ne_true, if_pos h]

theorem wrapPhase_of_between (hg : ge32 w pi32 = false) (hl : lt32 w (neg32 pi32) = false) :
    wrapPhase P w = w := by
  rw [wrapPhase, hg, hl, if_neg Bool.false_ne_true, if_neg Bool.false_ne_true]

end

theorem nextOmega_thisBlock (omega e : Word) : nextOmega thisBlock omega e =
    clampOmega thisBlock (add32 thisBlock omega (mul32 thisBlock 0x3951B717#32 e)) := rfl

theorem nextTheta_thisBlock (theta w e : Word) : nextTheta thisBlock theta w e = wrapPhase thisBlock
    (add32 thisBlock (add32 thisBlock theta w) (mul32 thisBlock 0x3CA3D70A#32 e)) := rfl

theorem pllWmax_thisBlock : thisBlock.pllWmax = 0x3F000000#32 := rfl

theorem neg32_pllWmax : neg32 thisBlock.pllWmax = 0xBF000000#32 := by decide

theorem neg32_pi32 : neg32 pi32 = 0xC0490FDB#32 := by decide

section
variable (P : Params) (yr yi : Word) (d : DemUnit)

theorem coherent_z : (coherent P yr yi d).z = div32 P (mixRe P d.theta yr yi) d.m := rfl

theorem coherent_perr : (coherent P yr yi d).perr =
    phaseError P (mixRe P d.theta yr yi) (mixIm P d.theta yr yi) := rfl

theorem coherent_omega : (coherent P yr yi d).omega =
    nextOmega P d.omega (coherent P yr yi d).perr := rfl

theorem coherent_theta : (coherent P yr yi d).theta =
    nextTheta P d.theta (coherent P yr yi d).omega (coherent P yr yi d).perr := rfl

end

/-- Settles O42: the branch SB = 0 without the carrier; the clamp and the correction have a lemma for
each of their cases. -/
theorem demStepCoherent : Obligations.DemStepCoherent := by
  intro s hc hb hsc
  refine ⟨_, _, (coherent thisBlock s.demYre s.demYim s.dem).perr, _,
    (coherent thisBlock s.demYre s.demYim s.dem).omega, _,
    (coherent thisBlock s.demYre s.demYim s.dem).theta, rfl, rfl, rfl, rfl,
    ?_, ?_, ?_, rfl, ?_, ?_, ?_, ?_⟩
  · rw [coherent_omega, nextOmega_thisBlock, ← pllWmax_thisBlock]; exact clampOmega_of_gt
  · rw [coherent_omega, nextOmega_thisBlock, ← neg32_pllWmax]; exact clampOmega_of_lt (by decide)
  · rw [coherent_omega, nextOmega_thisBlock, ← pllWmax_thisBlock, ← neg32_pllWmax]
    exact clampOmega_of_between
  · rw [coherent_theta, nextTheta_thisBlock]; exact wrapPhase_of_ge
  · rw [coherent_theta, nextTheta_thisBlock, ← neg32_pi32]; exact wrapPhase_of_lt
  · rw [coherent_theta, nextTheta_thisBlock, ← neg32_pi32]; exact wrapPhase_of_between
  · rw [exec_demStep_of_created hc, demStepUnit_coherent _ _ _ _ hb hsc]
    rfl

end Sys2Proof.Machine
end

section
/-! PROOFS of 42_demodulator.md, the carrier loop: the bound of the frequency estimate, the correction of
the phase, the loop at rest and the loop that a NaN has reached. -/

namespace Sys2Proof.Machine

open Safety

/-! ### The bound of the frequency estimate (42_demodulator.md R166) -/

/-- Settles O45: the frequency estimate is what the clamp answers. -/
theorem frequencyEstimateStaysBounded : Obligations.FrequencyEstimateStaysBounded := by
  intro P yr yi u hpos
  obtain ⟨-, hn, hlt⟩ := lt32_eq_true.mp hpos
  have hle : le32 (neg32 P.pllWmax) P.pllWmax = true := by
    rw [le32_eq_true, isNaN_neg32, val_neg32]
    rw [show val pzero = 0 by decide] at hlt
    exact ⟨hn, hn, by omega⟩
  exact omegaBounded_clampOmega hn hle _

/-! ### Sums between two magnitudes -/

theorem neg_mag_le_val (w : Word) : -(mag w : ℤ) ≤ val w := by
  unfold val; split <;> omega

theorem val_le_mag (w : Word) : val w ≤ mag w := by
  unfold val; split <;> omega

/-- The sign of a sum is that of its exact value; an exact zero may have either sign. -/
theorem sumSign_cases (a b : Word) :
    (sumSign a b = true ∧ val a + val b ≤ 0) ∨ (sumSign a b = false ∧ 0 ≤ val a + val b) := by
  unfold sumSign
  by_cases h0 : val a + val b = 0
  · rw [if_pos h0, h0]
    cases signBit a && signBit b <;> simp
  · rw [if_neg h0]
    by_cases hneg : val a + val b < 0
    · exact .inl ⟨decide_eq_true hneg, hneg.le⟩
    · exact .inr ⟨decide_eq_false hneg, not_lt.mp hneg⟩

theorem val_pack_roundMag (neg : Bool) (n d : Nat) : val (pack neg (roundMag n d)) =
    if neg then -(magBits (roundMag n d) : ℤ) else magBits (roundMag n d) := by
  rw [val, signBit_pack_roundMag, mag_pack (roundMag_lt _ _)]

/-- Rounding does not carry a sum past the magnitude of a word, on either side of zero. -/
theorem val_add32_bounds (P : Params) {a b : Word} (ha : isFinite a = true) (hb : isFinite b = true) :
    (∀ c, -(mag c : ℤ) ≤ val a + val b → -(mag c : ℤ) ≤ val (add32 P a b)) ∧
    ∀ c, val a + val b ≤ mag c → val (add32 P a b) ≤ mag c := by
  have hround : ∀ c, (val a + val b).natAbs ≤ mag c →
      magBits (roundMag (val a + val b).natAbs 1) ≤ mag c := by
    intro c hc
    rw [mag_eq_magBits] at hc ⊢
    exact magBits_strictMono.monotone (roundMag_le_of_le one_pos (by rwa [one_mul]))
  rw [add32_of_isFinite P ha hb, val_pack_roundMag]
  obtain ⟨hs, hsum⟩ | ⟨hs, hsum⟩ := sumSign_cases a b
  · rw [hs, if_pos rfl]
    refine ⟨fun c hc => ?_, fun c _ => by omega⟩
    have := hround c (by omega)
    omega
  · rw [hs, if_neg Bool.false_ne_true]
    refine ⟨fun c _ => by omega, fun c hc => ?_⟩
    have := hround c (by omega)
    omega

theorem isNaN_add32_of_finite (P : Params) {a b : Word} (ha : isFinite a = true)
    (hb : isFinite b = true) : isNaN (add32 P a b) = false :=
  isNaN_add32_of_isFinite (isNaN_of_isFinite ha) hb

/-- A word that is no NaN and no larger than a finite word is finite. -/
theorem isFinite_of_val_le {w c : Word} (hn : isNaN w = false) (hc : isFinite c = true)
    (hlo : -(mag c : ℤ) ≤ val w) (hhi : val w ≤ mag c) : isFinite w = true := by
  refine (isFinite_or_isInf hn).resolve_right fun hi => ?_
  have hlt : (mag c : ℤ) < infVal := Int.ofNat_lt.mpr (mag_lt hc)
  rw [val_of_isInf hi] at hlo hhi
  cases hs : signBit w with
  | true => rw [hs, if_pos rfl] at hlo; omega
  | false => rw [hs, if_neg Bool.false_ne_true] at hhi; omega

/-! ### The correction of the phase (42_demodulator.md R167) -/

/-- The last place of `PI32`, in units of 2^-149. -/
def piPlace : ℤ := 2 ^ 127

theorem val_pi32 : val pi32 = 0xC90FDB * piPlace := by decide +kernel

theorem val_twoPi32 : val twoPi32 = 2 * 0xC90FDB * piPlace := by decide +kernel

/-- The largest word below `PI32`. -/
def piPred : Word := 0x40490FDA#32

theorem mag_piPred : (mag piPred : ℤ) = 0xC90FDA * piPlace := by decide +kernel

/-- The largest word below `3 * PI32` is one last place of `PI32` below it. -/
theorem val_threePiPred : val 0x4116CBE4#32 = (3 * 0xC90FDB - 1) * piPlace := by decide +kernel

theorem mag_threePiPred : (mag 0x4116CBE4#32 : ℤ) = (3 * 0xC90FDB - 1) * piPlace := by decide +kernel

theorem val_neg_threePiPred : val 0xC116CBE4#32 = -((3 * 0xC90FDB - 1) * piPlace) := by
  decide +kernel

/-- A word below `-PI32` is at least one last place below it. -/
theorem val_le_of_lt_neg_pi32 {th : Word} (h : val th < -val pi32) :
    val th ≤ -(0xC90FDC * piPlace) := by
  have hpos : 0 < val pi32 := by decide +kernel
  have hmag : mag pi32 < mag th := by
    have := neg_mag_le_val th
    have := val_le_mag pi32
    have : val pi32 = mag pi32 := by decide +kernel
    omega
  have hbits : 0x40490FDB < th.toNat % 2 ^ 31 := by
    rw [mag_eq_magBits th, show mag pi32 = magBits 0x40490FDB from mag_eq_magBits pi32] at hmag
    exact magBits_strictMono.lt_iff_lt.mp hmag
  have hnext : (0xC90FDC * piPlace : ℤ) ≤ mag th := by
    rw [mag_eq_magBits th, show (0xC90FDC * piPlace : ℤ) = magBits 0x40490FDC by decide +kernel]
    exact Int.ofNat_le.mpr (magBits_strictMono.monotone hbits)
  have hval : val th = -(mag th : ℤ) := by
    unfold val at h ⊢
    split at h
    · rw [if_pos ‹_›]
    · omega
  omega

theorem inPhaseRange_iff {th : Word} : inPhaseRange th = true ↔
    isNaN th = false ∧ -val pi32 ≤ val th ∧ val th < val pi32 := by
  have hpi : isNaN pi32 = false := by decide
  rw [inPhaseRange, Bool.and_eq_true, ge32, le32_eq_true, lt32_eq_true, isNaN_neg32, val_neg32]
  tauto

/-- Every place in `[-PI32, PI32)` where neither comparison of the correction holds. -/
theorem inPhaseRange_of_between {th : Word} (hn : isNaN th = false) (hg : ge32 th pi32 = false)
    (hl : lt32 th (neg32 pi32) = false) : inPhaseRange th = true := by
  rw [← Bool.not_eq_true, ge32, le32_iff (by decide) hn] at hg
  rw [← Bool.not_eq_true, lt32_iff hn (by decide), val_neg32] at hl
  exact inPhaseRange_iff.mpr ⟨hn, not_lt.mp hl, not_le.mp hg⟩

/-- A full turn brings the phase to at most `piPred` and at least `-PI32`, and rounding passes neither. -/
theorem inPhaseRange_wrapPhase {P : Params} {th : Word} (hlo : ge32 th 0xC116CBE4#32 = true)
    (hhi : le32 th 0x4116CBE4#32 = true) : inPhaseRange (wrapPhase P th) = true := by
  obtain ⟨-, hn, hlo⟩ := le32_eq_true.mp hlo
  obtain ⟨-, -, hhi⟩ := le32_eq_true.mp hhi
  rw [val_neg_threePiPred] at hlo
  rw [val_threePiPred] at hhi
  have hf : isFinite th = true := isFinite_of_val_le (c := 0x4116CBE4#32) hn (by decide)
    (by rw [mag_threePiPred]; exact hlo) (by rw [mag_threePiPred]; exact hhi)
  have hpos : 0 < piPlace := by decide
  have hmag : (mag pi32 : ℤ) = 0xC90FDB * piPlace := by decide +kernel
  have hturn : isFinite twoPi32 = true := by decide
  cases hg : ge32 th pi32 with
  | true =>
    obtain ⟨-, -, hge⟩ := le32_eq_true.mp hg
    obtain ⟨hl, hh⟩ := val_add32_bounds P hf (b := neg32 twoPi32) hturn
    have hl := hl pi32
    have hh := hh piPred
    rw [val_neg32, val_twoPi32] at hl hh
    rw [wrapPhase_of_ge hg, sub32, inPhaseRange_iff]
    rw [val_pi32] at hge ⊢
    rw [hmag] at hl
    rw [mag_piPred] at hh
    exact ⟨isNaN_add32_of_finite P hf hturn, by omega, by omega⟩
  | false =>
    cases hlt : lt32 th (neg32 pi32) with
    | true =>
      obtain ⟨-, -, hbelow⟩ := lt32_eq_true.mp hlt
      rw [val_neg32] at hbelow
      have hbelow := val_le_of_lt_neg_pi32 hbelow
      obtain ⟨hl, hh⟩ := val_add32_bounds P hf (b := twoPi32) hturn
      have hl := hl piPred
      have hh := hh piPred
      rw [val_twoPi32, mag_piPred] at hl hh
      rw [wrapPhase_of_lt hlt, inPhaseRange_iff, val_pi32]
      exact ⟨isNaN_add32_of_finite P hf hturn, by omega, by omega⟩
    | false =>
      rw [wrapPhase_of_between hg hlt]
      exact inPhaseRange_of_between hn hg hlt

theorem wrapPhase_of_inPhaseRange {P : Params} {th : Word} (h : inPhaseRange th = true) :
    wrapPhase P th = th := by
  obtain ⟨hn, hlo, hhi⟩ := inPhaseRange_iff.mp h
  apply wrapPhase_of_between
  · rw [← Bool.not_eq_true, ge32, le32_iff (by decide) hn]
    exact not_le.mpr hhi
  · rw [← Bool.not_eq_true, lt32_iff hn (by decide), val_neg32]
    exact not_lt.mpr hlo

theorem wrapPhase_of_isNaN {P : Params} {th : Word} (h : isNaN th = true) : wrapPhase P th = th :=
  wrapPhase_of_between (le32_nan (.inr h)) (lt32_nan (.inl h))

/-- An infinity is past one of the bounds, and a full turn does not move it. -/
theorem wrapPhase_of_isInf {P : Params} {th : Word} (h : isInf th = true) : wrapPhase P th = th := by
  have hturn : isFinite twoPi32 = true := by decide
  rcases eq_of_isInf h with rfl | rfl
  · rw [wrapPhase_of_ge (by decide +kernel), sub32]
    exact add32_of_isInf_left h (by decide) (ne_neg32_of_isInf_of_isFinite h hturn)
  · rw [wrapPhase_of_lt (by decide +kernel)]
    exact add32_of_isInf_left h (by decide) (ne_neg32_of_isInf_of_isFinite h hturn)

/-- The difference is exact. -/
theorem wrapPhase_pi32 (P : Params) : wrapPhase P pi32 = neg32 pi32 := by
  rw [wrapPhase_of_ge (by decide +kernel), sub32, add32_of_isFinite P (by decide) (by decide)]
  decide +kernel

/-- Settles O46: one lemma for each clause. -/
theorem oneCorrectionWrapsThePhase : Obligations.OneCorrectionWrapsThePhase :=
  ⟨fun _ _ => ⟨inPhaseRange_wrapPhase, wrapPhase_of_inPhaseRange, wrapPhase_of_isNaN,
    wrapPhase_of_isInf⟩, wrapPhase_pi32⟩

/-! ### One coherent step of the unit (42_demodulator.md R161, R168) -/

theorem coherentMode_iff {d : DemUnit} :
    coherentMode d = true ↔ d.created = true ∧ d.sb = 0#2 ∧ d.sc = true := by
  simp [coherentMode, and_assoc]

/-- A step of a CREATED unit, with the unit that it leaves. -/
theorem exists_exec_demStep {s : State} (hc : s.dem.created = true) : ∃ t, exec .demStep s = .next t ∧
    t.dem = demStepUnit thisBlock s.demYre s.demYim s.dem :=
  ⟨_, exec_demStep_of_created hc, rfl⟩

/-- A step keeps the mode of the unit. -/
theorem coherentMode_demStepUnit (P : Params) (yr yi : Word) (d : DemUnit) :
    coherentMode (demStepUnit P yr yi d) = coherentMode d := by simp [coherentMode]

section
variable (P : Params) (yr yi : Word) {d : DemUnit} (hm : coherentMode d = true)
include hm

theorem demStepUnit_of_coherentMode :
    demStepUnit P yr yi d = { coherent P yr yi d with nidx := nextIndex d.nidx } := by
  obtain ⟨-, hb, hsc⟩ := coherentMode_iff.mp hm
  exact demStepUnit_coherent P yr yi d hb hsc

theorem demStepUnit_z : (demStepUnit P yr yi d).z = (coherent P yr yi d).z := by
  rw [demStepUnit_of_coherentMode P yr yi hm]
theorem demStepUnit_perr : (demStepUnit P yr yi d).perr = (coherent P yr yi d).perr := by
  rw [demStepUnit_of_coherentMode P yr yi hm]
theorem demStepUnit_omega : (demStepUnit P yr yi d).omega = (coherent P yr yi d).omega := by
  rw [demStepUnit_of_coherentMode P yr yi hm]
theorem demStepUnit_theta : (demStepUnit P yr yi d).theta = (coherent P yr yi d).theta := by
  rw [demStepUnit_of_coherentMode P yr yi hm]

end

/-! ### The loop at rest (42_demodulator.md R168) -/

theorem ddsCos_pzero : thisBlock.ddsCos pzero = one := oscillatorMeetsItsRequirements.cos_zero

theorem ddsSin_pzero : thisBlock.ddsSin pzero = pzero := oscillatorMeetsItsRequirements.sin_zero

/-- +0.0 plus a zero of either sign is +0.0. -/
theorem pzero_add32_of_isZero (P : Params) {a : Word} (h : isZero a = true) :
    add32 P pzero a = pzero := by
  rw [add32_zero_zero P (by decide) h]; rfl

theorem isZero_mul32_of_isZero_right (P : Params) {a b : Word} (ha : isFinite a = true)
    (hb : isZero b = true) : isZero (mul32 P a b) = true := by
  rw [mul32_zero P ha hb]
  cases signBit a ^^ signBit b <;> decide

theorem mixRe_rest {yr : Word} (hf : isFinite yr = true) :
    mixRe thisBlock pzero yr pzero = add32 thisBlock yr pzero := by
  rw [mixRe, ddsCos_pzero, ddsSin_pzero, mul32_one _ hf, mul32_zero _ (by decide) (by decide)]
  rfl

theorem mixIm_rest {yr : Word} (hf : isFinite yr = true) : mixIm thisBlock pzero yr pzero = pzero := by
  rw [mixIm, ddsCos_pzero, ddsSin_pzero, mul32_one _ (by decide), sub32]
  apply pzero_add32_of_isZero
  rw [isZero_neg32]
  exact isZero_mul32_of_isZero_right _ hf (by decide)

theorem isFinite_sgn32 {v : Word} (hn : isNaN v = false) : isFinite (sgn32 v) = true := by
  rw [sgn32, hn, if_neg Bool.false_ne_true]
  split_ifs <;> decide

/-- A zero phase error moves neither the frequency nor the phase of a loop at rest. -/
theorem nextOmega_rest {e : Word} (h : isZero e = true) : nextOmega thisBlock pzero e = pzero := by
  rw [nextOmega, pzero_add32_of_isZero _ (isZero_mul32_of_isZero_right _ (by decide) h)]
  exact clampOmega_of_between (by decide +kernel) (by decide +kernel)

theorem nextTheta_rest {e : Word} (h : isZero e = true) :
    nextTheta thisBlock pzero pzero e = pzero := by
  rw [nextTheta, pzero_add32_of_isZero _ (by decide),
    pzero_add32_of_isZero _ (isZero_mul32_of_isZero_right _ (by decide) h)]
  exact wrapPhase_of_between (by decide +kernel) (by decide +kernel)

/-- The loop of a unit is at rest. -/
def AtRest (d : DemUnit) : Prop := d.theta = pzero ∧ d.omega = pzero

section
variable {d : DemUnit} {yr : Word} (hd : AtRest d) (hf : isFinite yr = true)
include hd hf

/-- The mixed sample is finite, so its sign is, and its imaginary part is +0.0. -/
theorem isZero_perr_coherent_rest : isZero (coherent thisBlock yr pzero d).perr = true := by
  obtain ⟨hth, -⟩ := hd
  rw [coherent_perr, hth, mixRe_rest hf, mixIm_rest hf, phaseError]
  exact isZero_mul32_of_isZero_right _
    (isFinite_sgn32 (isNaN_add32_of_finite _ hf (by decide))) (by decide)

theorem atRest_coherent : AtRest (coherent thisBlock yr pzero d) := by
  have he := isZero_perr_coherent_rest hd hf
  obtain ⟨hth, hom⟩ := hd
  have hom' : (coherent thisBlock yr pzero d).omega = pzero := by
    rw [coherent_omega, hom, nextOmega_rest he]
  exact ⟨by rw [coherent_theta, hth, hom', nextTheta_rest he], hom'⟩

theorem z_coherent_rest (hy : yr ≠ 0x80000000#32) :
    (coherent thisBlock yr pzero d).z = div32 thisBlock yr d.m := by
  obtain ⟨hth, -⟩ := hd
  rw [coherent_z, hth, mixRe_rest hf, add32_pzero _ hf hy]

end

/-- Settles O47: the sample is mixed with cos 0 = 1 and sin 0 = 0. -/
theorem realInputLeavesTheLoopAtRest : Obligations.RealInputLeavesTheLoopAtRest := by
  intro s hc hb hsc hth hom hyi hf
  have hm : coherentMode s.dem = true := coherentMode_iff.mpr ⟨hc, hb, hsc⟩
  have hd : AtRest s.dem := ⟨hth, hom⟩
  obtain ⟨hth', hom'⟩ := atRest_coherent hd hf
  obtain ⟨t, hx, ht⟩ := exists_exec_demStep hc
  refine ⟨t, hx, ?_, ?_, ?_, fun hy => ?_⟩
  · rw [ht, demStepUnit_theta _ _ _ hm, hyi, hth']
  · rw [ht, demStepUnit_omega _ _ _ hm, hyi, hom']
  · rw [ht, demStepUnit_perr _ _ _ hm, hyi, isZero_perr_coherent_rest hd hf]
  · rw [ht, demStepUnit_z _ _ _ hm, hyi, z_coherent_rest hd hf hy]

/-! ### Operands that are not finite -/

theorem not_isFinite_of_isInf {a : Word} (h : isInf a = true) : isFinite a = false := by
  cases hf : isFinite a with
  | false => rfl
  | true => rw [isInf_of_isFinite hf] at h; cases h

section
variable {P : Params} (hP : isNaN P.nanResult = true)
include hP

theorem isNaN_add32_of_isNaN {a b : Word} (h : isNaN a = true ∨ isNaN b = true) :
    isNaN (add32 P a b) = true := by rw [add32_nan h, hP]

theorem isNaN_mul32_of_isNaN {a b : Word} (h : isNaN a = true ∨ isNaN b = true) :
    isNaN (mul32 P a b) = true := by rw [mul32_nan h, hP]

/-- An infinite factor makes a product infinite, or a NaN by the other factor. -/
theorem isFinite_mul32_of_isInf {a b : Word} (ha : isInf a = true) :
    isFinite (mul32 P a b) = false ∧ isFinite (mul32 P b a) = false := by
  have hinf : ∀ neg, isFinite (pack neg infBits) = false := by decide
  cases hb : isNaN b with
  | true => rw [mul32_nan (.inr hb), mul32_nan (.inl hb), not_isFinite_of_isNaN hP]; simp
  | false =>
    cases hz : isZero b with
    | true =>
      obtain ⟨hab, hba⟩ := mul32_inf_zero (P := P) ha hz
      rw [hab, hba, not_isFinite_of_isNaN hP]; simp
    | false =>
      obtain ⟨hab, hba⟩ := mul32_of_isInf (P := P) ha hb hz
      rw [hab, hba, hinf]; simp

theorem isFinite_mul32_left {a : Word} (b : Word) (ha : isFinite a = false) :
    isFinite (mul32 P a b) = false := by
  obtain h | h | h := word_class a
  · rw [ha] at h; cases h
  · exact (isFinite_mul32_of_isInf hP h).1
  · exact not_isFinite_of_isNaN (isNaN_mul32_of_isNaN hP (.inl h))

theorem isFinite_mul32_right (a : Word) {b : Word} (hb : isFinite b = false) :
    isFinite (mul32 P a b) = false := by
  obtain h | h | h := word_class b
  · rw [hb] at h; cases h
  · exact (isFinite_mul32_of_isInf hP h).2
  · exact not_isFinite_of_isNaN (isNaN_mul32_of_isNaN hP (.inr h))

theorem isFinite_add32_left {a : Word} (b : Word) (ha : isFinite a = false) :
    isFinite (add32 P a b) = false := by
  obtain h | h | h := word_class a
  · rw [ha] at h; cases h
  · obtain hn | he := add32_isInf_left_cases hP h b
    · exact not_isFinite_of_isNaN hn
    · rw [he, ha]
  · exact not_isFinite_of_isNaN (isNaN_add32_of_isNaN hP (.inl h))

theorem isFinite_add32_right (a : Word) {b : Word} (hb : isFinite b = false) :
    isFinite (add32 P a b) = false := by
  obtain h | h | h := word_class b
  · rw [hb] at h; cases h
  · obtain hn | he := add32_isInf_right_cases hP h a
    · exact not_isFinite_of_isNaN hn
    · rw [he, hb]
  · exact not_isFinite_of_isNaN (isNaN_add32_of_isNaN hP (.inr h))

end

/-! ### A NaN in the loop (42_demodulator.md R168) -/

theorem sgn32_of_isNaN {v : Word} (h : isNaN v = true) : sgn32 v = v := if_pos h

theorem clampOmega_of_isNaN {P : Params} {w : Word} (h : isNaN w = true) : clampOmega P w = w :=
  clampOmega_of_between (lt32_nan (.inr h)) (lt32_nan (.inl h))

section
variable {P : Params} (hP : isNaN P.nanResult = true)
include hP

theorem isNaN_phaseError {vr vi : Word} (h : isNaN vr = true ∨ isNaN vi = true) :
    isNaN (phaseError P vr vi) = true := by
  refine isNaN_mul32_of_isNaN hP (h.imp_left fun hr => ?_)
  rw [sgn32_of_isNaN hr, hr]

/-- The mixer puts an infinite or NaN part of a sample into both of its parts. -/
theorem isFinite_mixIm (theta : Word) {yr yi : Word} (h : isFinite yr = false ∨ isFinite yi = false) :
    isFinite (mixIm P theta yr yi) = false := by
  rw [mixIm, sub32]
  obtain h | h := h
  · refine isFinite_add32_right hP _ ?_
    rw [isFinite_neg32, isFinite_mul32_left hP _ h]
  · exact isFinite_add32_left hP _ (isFinite_mul32_left hP _ h)

/-- A NaN phase error makes the frequency estimate a NaN, and that the phase. -/
theorem loopNaN_coherent {yr yi : Word} {d : DemUnit} (he : isNaN (coherent P yr yi d).perr = true) :
    loopNaN (coherent P yr yi d) = true := by
  have hom : isNaN (coherent P yr yi d).omega = true := by
    have hsum : isNaN (add32 P d.omega (mul32 P P.pllKi (coherent P yr yi d).perr)) = true :=
      isNaN_add32_of_isNaN hP (.inr (isNaN_mul32_of_isNaN hP (.inr he)))
    rw [coherent_omega, nextOmega, clampOmega_of_isNaN hsum, hsum]
  have hth : isNaN (coherent P yr yi d).theta = true := by
    have hsum := isNaN_add32_of_isNaN hP (a := add32 P d.theta (coherent P yr yi d).omega)
      (.inr (isNaN_mul32_of_isNaN hP (a := P.pllKp) (.inr he)))
    rw [coherent_theta, nextTheta, wrapPhase_of_isNaN hsum, hsum]
  rw [loopNaN, he, hom, hth]; rfl

end

/-- A NaN in the sample, or an angle without a cosine and a sine, reaches both parts of the mixer. -/
theorem isNaN_mix {theta yr yi : Word}
    (h : isNaN yr = true ∨ isNaN yi = true ∨ isFinite theta = false) :
    isNaN (mixRe thisBlock theta yr yi) = true ∧ isNaN (mixIm thisBlock theta yr yi) = true := by
  have hadd := @isNaN_add32_of_isNaN _ isNaN_thisBlock
  have hmul := @isNaN_mul32_of_isNaN _ isNaN_thisBlock
  simp only [mixRe, mixIm, sub32]
  obtain h | h | h := h
  · refine ⟨hadd (.inl (hmul (.inl h))), hadd (.inr ?_)⟩
    rw [isNaN_neg32, hmul (.inl h)]
  · exact ⟨hadd (.inr (hmul (.inl h))), hadd (.inl (hmul (.inl h)))⟩
  · have hcos := oscillatorMeetsItsRequirements.cos_nan theta h
    have hsin := oscillatorMeetsItsRequirements.sin_nan theta h
    exact ⟨hadd (.inr (hmul (.inr hsin))), hadd (.inl (hmul (.inr hcos)))⟩

/-- A unit in the coherent mode whose output and loop are NaN. -/
def Poisoned (d : DemUnit) : Prop := coherentMode d = true ∧ isNaN d.z = true ∧ loopNaN d = true

theorem Poisoned.theta {d : DemUnit} (h : Poisoned d) : isFinite d.theta = false := by
  obtain ⟨-, -, hl⟩ := h
  rw [loopNaN, Bool.and_eq_true] at hl
  exact not_isFinite_of_isNaN hl.2

theorem loopNaN_demStepUnit (P : Params) (yr yi : Word) {d : DemUnit} (hm : coherentMode d = true) :
    loopNaN (demStepUnit P yr yi d) = loopNaN (coherent P yr yi d) := by
  rw [demStepUnit_of_coherentMode P yr yi hm]; rfl

theorem poisoned_demStepUnit {yr yi : Word} {d : DemUnit} (hm : coherentMode d = true)
    (h : isNaN yr = true ∨ isNaN yi = true ∨ isFinite d.theta = false) :
    Poisoned (demStepUnit thisBlock yr yi d) := by
  obtain ⟨hr, hi⟩ := isNaN_mix h
  refine ⟨by rw [coherentMode_demStepUnit, hm], ?_, ?_⟩
  · rw [demStepUnit_z _ _ _ hm, coherent_z, div32_nan (.inl hr), isNaN_thisBlock]
  · rw [loopNaN_demStepUnit _ _ _ hm]
    exact loopNaN_coherent isNaN_thisBlock (isNaN_phaseError isNaN_thisBlock (.inl hr))

theorem exists_exec_demStep_poisoned {s : State} (hm : coherentMode s.dem = true)
    (h : isNaN s.demYre = true ∨ isNaN s.demYim = true ∨ isFinite s.dem.theta = false) :
    ∃ t, exec .demStep s = .next t ∧ Poisoned t.dem := by
  obtain ⟨hc, -⟩ := coherentMode_iff.mp hm
  obtain ⟨t, hx, ht⟩ := exists_exec_demStep hc
  exact ⟨t, hx, ht ▸ poisoned_demStepUnit hm h⟩

/-! ### An infinite phase error -/

theorem mul32_pllKi_of_isInf {e : Word} (h : isInf e = true) :
    mul32 thisBlock thisBlock.pllKi e = e := by
  rcases eq_of_isInf h with rfl | rfl <;> decide +kernel

theorem mul32_pllKp_of_isInf {e : Word} (h : isInf e = true) :
    mul32 thisBlock thisBlock.pllKp e = e := by
  rcases eq_of_isInf h with rfl | rfl <;> decide +kernel

theorem clampOmega_posInf : clampOmega thisBlock 0x7F800000#32 = 0x3F000000#32 := by decide +kernel

theorem clampOmega_negInf : clampOmega thisBlock 0xFF800000#32 = 0xBF000000#32 := by decide +kernel

/-- The clamp makes an infinity finite and keeps its sign. -/
theorem clampOmega_of_isInf {e : Word} (h : isInf e = true) :
    isFinite (clampOmega thisBlock e) = true ∧ signBit (clampOmega thisBlock e) = signBit e := by
  rcases eq_of_isInf h with rfl | rfl
  · rw [clampOmega_posInf]; decide
  · rw [clampOmega_negInf]; decide

theorem signBit_cases (w : Word) :
    (signBit w = true ∧ val w ≤ 0) ∨ (signBit w = false ∧ 0 ≤ val w) := by
  unfold val; cases signBit w <;> simp

/-- A finite sum overflows only to the infinity of the sign that both operands have. -/
theorem add32_ne_neg32_of_isInf (P : Params) {a b e : Word} (ha : isFinite a = true)
    (hb : isFinite b = true) (he : isInf e = true) (hs : signBit b = signBit e) :
    add32 P a b ≠ neg32 e := by
  intro heq
  obtain ⟨hlo, hhi⟩ := val_add32_bounds P ha hb
  have hlo := hlo a
  have hhi := hhi a
  have hlt : (mag a : ℤ) < infVal := Int.ofNat_lt.mpr (mag_lt ha)
  have := neg_mag_le_val a
  have := val_le_mag a
  rw [heq, val_neg32, val_of_isInf he, ← hs] at hlo hhi
  obtain ⟨hb, hv⟩ | ⟨hb, hv⟩ := signBit_cases b
  · rw [hb, if_pos rfl] at hhi
    omega
  · rw [hb, if_neg Bool.false_ne_true] at hlo
    omega

theorem nextOmega_of_isInf {omega e : Word} (ho : isFinite omega = true) (he : isInf e = true) :
    nextOmega thisBlock omega e = clampOmega thisBlock e := by
  rw [nextOmega, mul32_pllKi_of_isInf he, add32_of_isInf_right he (isNaN_of_isFinite ho)
    (ne_neg32_of_isInf_of_isFinite he ho)]

/-- The proportional path carries an infinite phase error into the phase, since the frequency estimate
has its sign. -/
theorem nextTheta_of_isInf {theta e : Word} (ht : isFinite theta = true) (he : isInf e = true) :
    nextTheta thisBlock theta (clampOmega thisBlock e) e = e := by
  obtain ⟨hf, hs⟩ := clampOmega_of_isInf he
  rw [nextTheta, mul32_pllKp_of_isInf he, add32_of_isInf_right he (isNaN_add32_of_finite _ ht hf)
    (add32_ne_neg32_of_isInf _ ht hf he hs), wrapPhase_of_isInf he]

section
variable {yr yi : Word} {d : DemUnit}

theorem coherent_of_isInf_perr (ht : isFinite d.theta = true) (ho : isFinite d.omega = true)
    (he : isInf (coherent thisBlock yr yi d).perr = true) :
    (coherent thisBlock yr yi d).omega = clampOmega thisBlock (coherent thisBlock yr yi d).perr ∧
    (coherent thisBlock yr yi d).theta = (coherent thisBlock yr yi d).perr := by
  have hom := nextOmega_of_isInf ho he
  rw [← coherent_omega] at hom
  exact ⟨hom, by rw [coherent_theta, hom, nextTheta_of_isInf ht he]⟩

theorem isFinite_perr_of_isInf (h : isInf yr = true ∨ isInf yi = true) :
    isFinite (coherent thisBlock yr yi d).perr = false :=
  isFinite_mul32_right isNaN_thisBlock _
    (isFinite_mixIm isNaN_thisBlock _ (h.imp not_isFinite_of_isInf not_isFinite_of_isInf))

/-- At the phase +0.0 the sine is +0.0, whose product with an infinity is a NaN. -/
theorem isNaN_perr_of_isInf (hth : d.theta = pzero) (h : isInf yr = true ∨ isInf yi = true) :
    isNaN (coherent thisBlock yr yi d).perr = true := by
  have hnan : ∀ {y}, isInf y = true → isNaN (mul32 thisBlock y pzero) = true := fun hy => by
    rw [(mul32_inf_zero hy (by decide)).1, isNaN_thisBlock]
  rw [coherent_perr, hth]
  refine isNaN_phaseError isNaN_thisBlock (h.symm.imp (fun hi => ?_) (fun hr => ?_))
  · rw [mixRe, ddsSin_pzero]
    exact isNaN_add32_of_isNaN isNaN_thisBlock (.inr (hnan hi))
  · rw [mixIm, ddsSin_pzero, sub32]
    refine isNaN_add32_of_isNaN isNaN_thisBlock (.inr ?_)
    rw [isNaN_neg32, hnan hr]

end

/-! ### A list of samples, as the host demodulates it -/

/-- The host's write of `DEM_YRE` changes only that register. -/
theorem performEvent_write_demYre {v : Value} {w : Word} {s : State}
    (hv : valueOf s.hostSide.vars v = some w) :
    performEvent (hostWrite (regOffset .demYre) v) s = .next { s with demYre := w } :=
  performEvent_registerWrite (by decide) hv (by decide)

/-- The host's write of `DEM_YIM` changes only that register. -/
theorem performEvent_write_demYim {v : Value} {w : Word} {s : State}
    (hv : valueOf s.hostSide.vars v = some w) :
    performEvent (hostWrite (regOffset .demYim) v) s = .next { s with demYim := w } :=
  performEvent_registerWrite (by decide) hv (by decide)

/-- The accesses for one sample perform the step on it, then the rest. -/
theorem exists_runsTo_demodulateSample {y : Word × Word} {es : List HostEvent} {s t : State}
    {Q : State → Prop} (hx : exec .demStep { s with demYre := y.1, demYim := y.2 } = .next t)
    (hr : ∃ u, RunsTo es t u ∧ Q u) : ∃ u, RunsTo (demodulateSample y ++ es) s u ∧ Q u :=
  exists_runsTo_cons (performEvent_write_demYre rfl) <|
    exists_runsTo_cons (performEvent_write_demYim rfl) <|
      exists_runsTo_cons ((performEvent_commandWrite_encode .demStep _).trans hx) hr

/-- A phase that is not finite poisons every later step. -/
theorem exists_runsTo_poisoned (ys : List (Word × Word)) (y : Word × Word) {s : State}
    (hm : coherentMode s.dem = true) (ht : isFinite s.dem.theta = false) :
    ∃ t, RunsTo (demodulateSamples (ys ++ [y])) s t ∧ Poisoned t.dem := by
  induction ys generalizing s with
  | nil =>
    obtain ⟨t, hx, hp⟩ := exists_exec_demStep_poisoned
      (s := { s with demYre := y.1, demYim := y.2 }) hm (.inr (.inr ht))
    exact exists_runsTo_demodulateSample hx ⟨t, runsTo_nil t, hp⟩
  | cons x xs ih =>
    obtain ⟨t, hx, hp⟩ := exists_exec_demStep_poisoned
      (s := { s with demYre := x.1, demYim := x.2 }) hm (.inr (.inr ht))
    exact exists_runsTo_demodulateSample hx (ih hp.1 hp.theta)

/-- Settles O48: a phase error that is not finite is a NaN or one of the two infinities. -/
theorem nanPoisonsTheLoop : Obligations.NanPoisonsTheLoop := by
  refine ⟨fun s hm h => exists_exec_demStep_poisoned hm h, fun s hm _ _ hinf ht ho => ?_,
    fun ys y s hm ht => exists_runsTo_poisoned ys y hm ht⟩
  obtain ⟨hc, -⟩ := coherentMode_iff.mp hm
  obtain ⟨t, hx, hd⟩ := exists_exec_demStep hc
  refine ⟨t, hx, by rw [hd, coherentMode_demStepUnit, hm], ?_, fun hz => ?_⟩
  · rw [hd, loopNaN_demStepUnit _ _ _ hm, demStepUnit_perr _ _ _ hm, demStepUnit_omega _ _ _ hm,
      demStepUnit_theta _ _ _ hm]
    obtain h | h | h := word_class (coherent thisBlock s.demYre s.demYim s.dem).perr
    · rw [isFinite_perr_of_isInf hinf] at h; cases h
    · obtain ⟨hom, hth⟩ := coherent_of_isInf_perr ht ho h
      rw [hom, hth]
      rcases eq_of_isInf h with he | he <;> rw [he]
      · exact .inr (.inl ⟨rfl, clampOmega_posInf, rfl⟩)
      · exact .inr (.inr ⟨rfl, clampOmega_negInf, rfl⟩)
    · exact .inl (loopNaN_coherent isNaN_thisBlock h)
  · rw [hd, loopNaN_demStepUnit _ _ _ hm]
    exact loopNaN_coherent isNaN_thisBlock (isNaN_perr_of_isInf hz hinf)

end Sys2Proof.Machine
end

section
/-! PROOFS of 42_demodulator.md, the matched pair: the accesses of MODULATE, DEMODULATE and LOOPBACK
(30_encoding.md R100), and the round trip of a sample with the carrier suppressed. -/

namespace Sys2Proof.Machine

open Safety

/-! ### The matched round trip (42_demodulator.md R172) -/

/-- A read into a host variable gives it the register's word. -/
theorem performEvent_readTo {r : Reg} (ha : admitted (regOffset r) 4 = true)
    (hr : regAt (regOffset r) = r) (t : Nat) (s : State) : performEvent (readTo r t) s =
      .next { s with hostSide := takeRead (some t) (readReg thisBlock s r) s.hostSide } := by
  rw [readTo, performEvent_hostRead (some t) ha, memRead, hr]

/-- The state after `MODULATE x -> ta, tb` of a CREATED unit. -/
def modulated (x : Word) (ta tb : Nat) (s : State) : State :=
  { s with
    status := statusAfter s.status .none true s.dem.created
    modX := x
    mod := modStepUnit thisBlock x s.mod
    hostSide := takeRead (some tb) (modStepUnit thisBlock x s.mod).yim
      (takeRead (some ta) (modStepUnit thisBlock x s.mod).yre s.hostSide) }

theorem exists_runsTo_modulateEvents (x : Word) (ta tb : Nat) {es : List HostEvent} {s : State}
    {Q : State → Prop} (hc : s.mod.created = true)
    (hr : ∃ u, RunsTo es (modulated x ta tb s) u ∧ Q u) :
    ∃ u, RunsTo (modulateEvents (.hex x) ta tb ++ es) s u ∧ Q u := by
  have hstep : performEvent (issue .modStep) { s with modX := x } = _ :=
    (performEvent_commandWrite_encode .modStep _).trans (exec_modStep_of_created hc)
  exact exists_runsTo_cons (performEvent_write_modX x s) <|
    exists_runsTo_cons hstep <|
      exists_runsTo_cons (performEvent_readTo (by decide) rfl ta _) <|
        exists_runsTo_cons (performEvent_readTo (by decide) rfl tb _) hr

/-- The state after `DEMODULATE ya, yb -> tz` of a CREATED unit on the words `yr` and `yi`. -/
def demodulated (yr yi : Word) (tz : Nat) (s : State) : State :=
  { s with
    status := statusAfter s.status .none s.mod.created true
    demYre := yr
    demYim := yi
    dem := demStepUnit thisBlock yr yi s.dem
    hostSide := takeRead (some tz) (demStepUnit thisBlock yr yi s.dem).z s.hostSide }

theorem runsTo_demodulateEvents {ya yb : Literal} {yr yi : Word} (tz : Nat) {s : State}
    (hc : s.dem.created = true) (ha : valueOf s.hostSide.vars (literalValue ya) = some yr)
    (hb : valueOf s.hostSide.vars (literalValue yb) = some yi) :
    RunsTo (demodulateEvents ya yb tz) s (demodulated yr yi tz s) := by
  have hstep : performEvent (issue .demStep) { s with demYre := yr, demYim := yi } = _ :=
    (performEvent_commandWrite_encode .demStep _).trans (exec_demStep_of_created hc)
  exact runsTo_cons (performEvent_write_demYre ha) <|
    runsTo_cons (performEvent_write_demYim hb) <|
      runsTo_cons hstep <|
        runsTo_cons (performEvent_readTo (by decide) rfl tz _) (runsTo_nil _)

/-- The two host variables of `LOOPBACK` hold the modulator's output. -/
theorem getVar_modulated (x : Word) {ta tb : Nat} (h : ta ≠ tb) (s : State) :
    getVar (modulated x ta tb s).hostSide.vars ta = some (modStepUnit thisBlock x s.mod).yre ∧
    getVar (modulated x ta tb s).hostSide.vars tb = some (modStepUnit thisBlock x s.mod).yim := by
  simp only [modulated, takeRead_vars_some, getVar_setVar, if_true, if_neg h.symm, and_self]

/-- The accesses of `LOOPBACK x -> t` modulate a word and demodulate the modulator's output. -/
theorem exists_runsTo_loopback (x : Word) (tz : Nat) {s : State} {Q : State → Prop}
    (hcm : s.mod.created = true) (hcd : s.dem.created = true)
    (hq : Q (demodulated (modStepUnit thisBlock x s.mod).yre (modStepUnit thisBlock x s.mod).yim tz
      (modulated x 90 91 s))) :
    ∃ t, RunsTo (assemble (.loopback (.hex x) tz)) s t ∧ Q t := by
  obtain ⟨hre, him⟩ := getVar_modulated x (show 90 ≠ 91 by decide) s
  exact exists_runsTo_modulateEvents x 90 91 hcm
    ⟨_, runsTo_demodulateEvents (ya := .hvar 90) (yb := .hvar 91) tz hcd hre him, hq⟩

theorem modStepUnit_suppressed (P : Params) (x : Word) {u : ModUnit} (hb : u.sb = 0#2)
    (hsc : u.sc = true) : (modStepUnit P x u).yre = mul32 P u.m x ∧ (modStepUnit P x u).yim = pzero := by
  rw [modStepUnit_dsb P x u hb, hsc]
  exact ⟨dsbOutput_suppressed P u.m x, rfl⟩

/-- Settles O49: the modulator's output m·x is real, so it leaves the demodulator's loop at rest. -/
theorem matchedSuppressedRoundTrip : Obligations.MatchedSuppressedRoundTrip := by
  intro x tz s hcm hbm hsm hcd hbd hsd hmm hth hom hf hne
  have hm : coherentMode s.dem = true := coherentMode_iff.mpr ⟨hcd, hbd, hsd⟩
  have hd : AtRest s.dem := ⟨hth, hom⟩
  obtain ⟨hth', hom'⟩ := atRest_coherent hd hf
  obtain ⟨hre, him⟩ := modStepUnit_suppressed thisBlock x hbm hsm
  have hz := z_coherent_rest hd hf hne
  apply exists_runsTo_loopback x tz hcm hcd
  rw [hre, him]
  refine ⟨?_, ?_, hre, him, hre.symm, him.symm, ?_, ?_⟩
  · exact (demStepUnit_z _ _ _ hm).trans (hz.trans (by rw [hmm]))
  · exact (getVar_setVar ..).trans (if_pos rfl)
  · exact (demStepUnit_theta _ _ _ hm).trans hth'
  · exact (demStepUnit_omega _ _ _ hm).trans hom'

end Sys2Proof.Machine
end

section
/-! PROOFS of 43_host_access.md: which accesses are admitted, and what the owner's write of a word does at
each offset of the window but `CMD`. The access class of the register at the offset decides it. -/

namespace Sys2Proof.Machine

/-! ### Writes (43_host_access.md R200) -/

/-- One step of the owner's write of a word to any register but `CMD`. -/
theorem step_registerWrite {off : Nat} (ha : admitted off 4 = true) (hc : regAt off ≠ .cmd) (v : Word)
    (s : State) :
    step (placeEvents [hostWrite off (.word v)] s) = .next (writeReg (regAt off) v s) := by
  rw [step_placeEvents, placeEvents_nil, performEvent_registerWrite ha rfl hc]

/-- The register at an aligned offset of the window has that offset (10_state.md R33). -/
theorem regOffset_regAt {off : Nat} (ha : off % 4 = 0) (hw : off < 0x100) :
    regOffset (regAt off) = off := by
  have h : ∀ k : Fin 64, regOffset (regAt (4 * k.val)) = 4 * k.val := by decide
  have hk := h ⟨off / 4, by omega⟩
  simpa only [show 4 * (off / 4) = off by omega] using hk

/-! ### Read-write registers (43_host_access.md R204) -/

/-- A register other than the one written reads as before. -/
theorem readReg_writeReg_of_ne (P : Params) {r r' : Reg} (h : r' ≠ r) (v : Word) (s : State) :
    readReg P (writeReg r v s) r' = readReg P s r' := by
  cases r with
  | errflags | midx | cfo | modX | demYre | demYim => cases r' <;> trivial
  | _ => rfl

theorem accessClass_regAt_rw {off : Nat} (h : off ∈ [0x014, 0x018, 0x020, 0x040, 0x044]) :
    accessClass (regAt off) = .rw ∧ admitted off 4 = true := by
  revert off; decide

theorem ne_cmd_of_accessClass {r : Reg} (h : accessClass r ≠ .wo) : r ≠ .cmd :=
  fun hr => h (congrArg accessClass hr)

/-- Settles O20: two offsets never name one register, so only the offset written reads otherwise. -/
theorem rwRegistersKeepTheWrittenWord : Obligations.RwRegistersKeepTheWrittenWord := by
  intro off v s h
  obtain ⟨hrw, hadm⟩ := accessClass_regAt_rw h
  obtain ⟨-, ha, hw⟩ := admitted_eq_true.mp hadm
  refine ⟨writeReg (regAt off) v s,
    step_registerWrite hadm (ne_cmd_of_accessClass (by simp [hrw])) v s,
    readReg_writeReg _ _ _ _ hrw, fun off' ha' hw' hne => ?_,
    writeReg_mod _ _ _, writeReg_dem _ _ _, writeReg_status _ _ _, ?_, writeReg_hostSide _ _ _⟩
  · refine readReg_writeReg_of_ne _ (fun heq => hne ?_) v s
    rw [← regOffset_regAt ha' hw', heq, regOffset_regAt ha hw]
  · rw [writeReg_errflags, if_neg]
    intro he
    rw [he] at hrw
    cases hrw

/-! ### Writes that are ignored (43_host_access.md R205) -/

/-- Every register that a write can reach has one of seven offsets. -/
theorem accessClass_of_regOffset {r : Reg}
    (h : regOffset r ∉ [0x008, 0x010, 0x014, 0x018, 0x020, 0x040, 0x044]) :
    accessClass r = .ro ∨ accessClass r = .reserved := by
  cases r with
  | cmd | errflags | midx | cfo | modX | demYre | demYim => exact absurd (by decide) h
  | reserved => exact .inr rfl
  | _ => exact .inl rfl

/-- Settles O21: the register at any other offset is read-only or reserved. -/
theorem writesElsewhereAreIgnored : Obligations.WritesElsewhereAreIgnored := by
  intro off v s ha hw h
  have hclass : accessClass (regAt off) = .ro ∨ accessClass (regAt off) = .reserved :=
    accessClass_of_regOffset (by rwa [regOffset_regAt ha hw])
  have hcmd : regAt off ≠ .cmd :=
    ne_cmd_of_accessClass (by obtain hc | hc := hclass <;> simp [hc])
  rw [step_registerWrite (admitted_eq_true.mpr ⟨rfl, ha, hw⟩) hcmd, writeReg_discards _ _ _ hclass]

/-! ### Flags that a write clears (43_host_access.md R203) -/

/-- Every bit of `ERRFLAGS` after a host write. -/
theorem getLsbD_errflagsClear (old v : Word) {i : Nat} (hi : i < 32) :
    (errflagsClear old v).getLsbD i =
      (old.getLsbD i && !(decide (1 ≤ i ∧ i ≤ 3) && v.getLsbD i)) := by
  have hmask : ∀ k : Fin 32, (0x0000000E#32).getLsbD k.val = decide (1 ≤ k.val ∧ k.val ≤ 3) := by
    decide
  have hm := hmask ⟨i, hi⟩
  simp only at hm
  simp only [errflagsClear, BitVec.getLsbD_and, BitVec.getLsbD_not, hi, hm, decide_true,
    Bool.true_and, Bool.and_comm (v.getLsbD i)]

theorem errflagsClear_all {old : Word} (h : old &&& 0xFFFFFFF1#32 = 0) :
    errflagsClear old 0x0000000E#32 = 0 := h

theorem errflagsClear_zero (old : Word) : errflagsClear old 0x00000000#32 = old := by
  rw [errflagsClear, BitVec.zero_and, BitVec.not_zero, BitVec.and_allOnes]

/-- Settles O22: the write of `ERRFLAGS` is `errflagsClear`. -/
theorem errflagsWriteClearsWrittenOnes : Obligations.ErrflagsWriteClearsWrittenOnes := by
  intro v s
  refine ⟨errflagsClear s.errflags v, step_registerWrite (by decide) (by decide) v s,
    fun i hi => getLsbD_errflagsClear _ _ hi, fun hv h => ?_, fun hv => ?_⟩
  · rw [hv, errflagsClear_all h]
  · rw [hv, errflagsClear_zero]

/-! ### Accesses that are not admitted (43_host_access.md R207) -/

theorem accessFault_cases (a : Access) :
    accessFault a = .accessWidth a.width ∨ accessFault a = .accessMisaligned a.off ∨
      accessFault a = .accessOutside a.off := by
  unfold accessFault
  split
  · exact .inl rfl
  · split
    · exact .inr (.inl rfl)
    · exact .inr (.inr rfl)

theorem performAccess_of_not_admitted {a : Access} (hm : a.master = .owner)
    (ha : admitted a.off a.width = false) (s : State) :
    performAccess a s = .fault (accessFault a) := by
  simp [performAccess, hm, ha]

theorem performAccess_of_other {a : Access} (hm : a.master = .other) (s : State) :
    performAccess a s = .refused .secondMaster := by
  simp [performAccess, hm]

/-- Settles O25: a step performs the access, which tests the master before the admission. -/
theorem accessesNotAdmittedHaveNoStep : Obligations.AccessesNotAdmittedHaveNoStep :=
  ⟨fun _ _ => admitted_eq_true,
    fun a s hm ha =>
      ⟨accessFault a, performAccess_of_not_admitted hm ha (placeEvents [] s), accessFault_cases a⟩,
    fun _ s hm => performAccess_of_other hm (placeEvents [] s)⟩

end Sys2Proof.Machine
end

section
/-! PROOFS of 60_exceptions.md: what the end of a command records, and the three ways a command ends, in
the order of its checks. -/

namespace Sys2Proof.Machine

open Safety

/-! ### Recording (60_exceptions.md R225) -/

/-- The flag of a code that is not 0 is the bit of its number, and code 0 has no flag. -/
theorem errFlagBit_getLsbD (c : ErrCode) {i : Nat} (hi : i < 32) :
    (errFlagBit c).getLsbD i = (decide (c ≠ .none) && decide (i = (errNumber c).toNat)) := by
  have h : ∀ k : Fin 32, (errFlagBit c).getLsbD k.val =
      (decide (c ≠ .none) && decide (k.val = (errNumber c).toNat)) := by cases c <;> decide
  exact h ⟨i, hi⟩

/-- Only the two lifecycle bits and `LASTERR` of `STATUS` change. -/
theorem statusAfter_getLsbD_of_notMem (old : Word) (c : ErrCode) (m d : Bool) {i : Nat} (hi : i < 32)
    (h : i ∉ [0, 1, 4, 5, 6, 7]) : (statusAfter old c m d).getLsbD i = old.getLsbD i := by
  simp only [List.mem_cons, List.not_mem_nil, or_false, not_or] at h
  rw [statusAfter_getLsbD _ _ _ _ _ hi, if_neg (by omega), if_neg (by omega), if_neg (by omega)]

/-- Settles O28: `statusAfter` writes three fields of `STATUS`, and `errFlagBit` is the code's flag. -/
theorem commandEndRecordsItsCode : Obligations.CommandEndRecordsItsCode := by
  intro c s
  refine ⟨(complete c s).status, (complete c s).errflags, rfl, lastErr_statusAfter .., ?_, ?_,
    fun i hi h => statusAfter_getLsbD_of_notMem _ _ _ _ hi h, fun i hi => ?_, rfl⟩
  · exact statusMod_statusAfter ..
  · exact statusDem_statusAfter ..
  · rw [complete_errflags, BitVec.getLsbD_or, errFlagBit_getLsbD c hi]

/-- The end of a command in error records the code and nothing else (60_exceptions.md R220). -/
theorem raiseError_eq_errorRecorded (c : ErrCode) (s : State) : raiseError c s = errorRecorded c s := rfl

theorem lastErr_errorRecorded (c : ErrCode) (s : State) :
    lastErr (errorRecorded c s).status = errNumber c := lastErr_statusAfter ..

theorem lastErr_complete_none (s : State) : lastErr (complete .none s).status = 0 :=
  lastErr_statusAfter ..

/-! ### The order of the checks (60_exceptions.md R227) -/

/-- How a command ends: its lifecycle check comes first, then its configuration check, and a command
that passes both succeeds. -/
theorem exec_by_priority (i : Instr) (s : State) :
    (stateWrong s i = true ∧ exec i s = .next (errorRecorded .invalidState s)) ∨
    (stateWrong s i = false ∧ configWrong s i = true ∧
      exec i s = .next (errorRecorded .invalidParameter s)) ∨
    (stateWrong s i = false ∧ configWrong s i = false ∧
      ∃ u, Succeeds s i u ∧ exec i s = .next (complete .none u)) := by
  cases i with
  | nop => exact .inr (.inr ⟨rfl, rfl, _, .nop, rfl⟩)
  | modCreate sb sc =>
    obtain ⟨hc, h⟩ | ⟨hc, hv, h⟩ | ⟨hc, hv, h⟩ := execModCreate_cases sb sc s
    · exact .inl ⟨hc, h⟩
    · exact .inr (.inl ⟨hc, by simp [configWrong, hv], h⟩)
    · exact .inr (.inr ⟨hc, by simp [configWrong, hv], _, .modCreate sb sc hc hv, h⟩)
  | modStep =>
    obtain ⟨hc, h⟩ | ⟨hc, h⟩ := execModStep_cases s
    · exact .inl ⟨by simp [stateWrong, hc], h⟩
    · exact .inr (.inr ⟨by simp [stateWrong, hc], rfl, _, .modStep hc, h⟩)
  | modDestroy =>
    obtain ⟨hc, h⟩ | ⟨hc, h⟩ := execModDestroy_cases s
    · exact .inl ⟨by simp [stateWrong, hc], h⟩
    · exact .inr (.inr ⟨by simp [stateWrong, hc], rfl, _, .modDestroy hc, h⟩)
  | demCreate sb sc =>
    obtain ⟨hc, h⟩ | ⟨hc, hv, h⟩ | ⟨hc, hv, h⟩ := execDemCreate_cases sb sc s
    · exact .inl ⟨hc, h⟩
    · exact .inr (.inl ⟨hc, by simp [configWrong, hv], h⟩)
    · exact .inr (.inr ⟨hc, by simp [configWrong, hv], _, .demCreate sb sc hc hv, h⟩)
  | demStep =>
    obtain ⟨hc, h⟩ | ⟨hc, h⟩ := execDemStep_cases s
    · exact .inl ⟨by simp [stateWrong, hc], h⟩
    · exact .inr (.inr ⟨by simp [stateWrong, hc], rfl, _, .demStep hc, h⟩)
  | demDestroy =>
    obtain ⟨hc, h⟩ | ⟨hc, h⟩ := execDemDestroy_cases s
    · exact .inl ⟨by simp [stateWrong, hc], h⟩
    · exact .inr (.inr ⟨by simp [stateWrong, hc], rfl, _, .demDestroy hc, h⟩)

theorem exec_of_stateWrong {i : Instr} {s : State} (h : stateWrong s i = true) :
    exec i s = .next (errorRecorded .invalidState s) := by
  obtain ⟨-, hx⟩ | ⟨hs, -⟩ | ⟨hs, -⟩ := exec_by_priority i s
  · exact hx
  all_goals rw [h] at hs; cases hs

theorem exec_of_configWrong {i : Instr} {s : State} (hs : stateWrong s i = false)
    (hc : configWrong s i = true) : exec i s = .next (errorRecorded .invalidParameter s) := by
  obtain ⟨hs', -⟩ | ⟨-, -, hx⟩ | ⟨-, hc', -⟩ := exec_by_priority i s
  · rw [hs] at hs'; cases hs'
  · exact hx
  · rw [hc] at hc'; cases hc'

theorem execute_of_illegal {w : Word} {why : Illegal} (h : decode w = .illegal why) (s : State) :
    execute w s = .next (errorRecorded .illegalCommand s) := by
  simp [execute, h, raiseError_eq_errorRecorded]

/-- Every word completes: an error is recorded over the state before, or success over a changed unit. -/
theorem execute_records_or_completes (w : Word) (s : State) :
    (∃ c, execute w s = .next (errorRecorded c s)) ∨ ∃ u, execute w s = .next (complete .none u) := by
  cases hd : decode w with
  | command i =>
    rw [execute_of_decode hd]
    obtain ⟨c, hx⟩ | ⟨u, -, hx⟩ := exec_fails_or_succeeds i s
    · exact .inl ⟨c, hx⟩
    · exact .inr ⟨u, hx⟩
  | illegal why => exact .inl ⟨_, execute_of_illegal hd s⟩

/-- Settles O29: a command that does more than record an error records code 0. -/
theorem failedCommandsChangeNothingElse : Obligations.FailedCommandsChangeNothingElse := by
  intro w s
  obtain ⟨c, hx⟩ | ⟨u, hx⟩ := execute_records_or_completes w s
  · exact ⟨_, hx, fun _ => ⟨c, (lastErr_errorRecorded c s).symm, rfl⟩⟩
  · exact ⟨_, hx, fun hne => absurd (lastErr_complete_none u) hne⟩

/-- Settles O30: the decoder's answer, then the two checks of `exec_by_priority`. -/
theorem errorPriorityIsFixed : Obligations.ErrorPriorityIsFixed := by
  refine ⟨fun w s => ?_, fun s hc => ?_, fun s => ?_⟩
  · cases hd : decode w with
    | illegal why =>
      exact ⟨_, execute_of_illegal hd s, fun _ _ => ⟨lastErr_errorRecorded .., rfl⟩,
        nofun, nofun, nofun⟩
    | command i =>
      rw [execute_of_decode hd]
      obtain ⟨hs, hx⟩ | ⟨hs, hc, hx⟩ | ⟨hs, hc, u, hu, hx⟩ := exec_by_priority i s
      · refine ⟨_, hx, nofun, ?_, ?_, ?_⟩ <;> rintro _ ⟨⟩
        · exact fun _ => ⟨lastErr_errorRecorded .., rfl⟩
        · simp [hs]
        · simp [hs]
      · refine ⟨_, hx, nofun, ?_, ?_, ?_⟩ <;> rintro _ ⟨⟩
        · simp [hs]
        · exact fun _ _ => ⟨lastErr_errorRecorded .., rfl⟩
        · simp [hc]
      · refine ⟨_, hx, nofun, ?_, ?_, ?_⟩ <;> rintro _ ⟨⟩
        · simp [hs]
        · simp [hc]
        · exact fun _ _ => ⟨lastErr_complete_none u,
            (complete_none_errflags u).trans hu.errflags⟩
  · have hd : decode 0x00000301#32 = .command (.modCreate 3 false) := decode_encode (.modCreate 3 false)
    exact (execute_of_decode hd s).trans (exec_of_stateWrong hc)
  · have hd : decode 0x00000B01#32 = .illegal .reservedBits := by decide
    exact execute_of_illegal hd s

/-! ### The two error codes of a command (60_exceptions.md R222, R224) -/

/-- Settles O31: each of the six commands meets its lifecycle check. -/
theorem lifecycleMisuseRecordsErrorThree : Obligations.LifecycleMisuseRecordsErrorThree := by
  refine fun s => ⟨fun hc _ _ => exec_of_stateWrong hc, fun hc _ _ => exec_of_stateWrong hc,
    fun hc => ?_, fun hc => ?_⟩
  · have hw : (!s.mod.created) = true := by rw [hc]; rfl
    exact ⟨exec_of_stateWrong hw, exec_of_stateWrong hw⟩
  · have hw : (!s.dem.created) = true := by rw [hc]; rfl
    exact ⟨exec_of_stateWrong hw, exec_of_stateWrong hw⟩

/-- Settles O33: the lifecycle check passes and the configuration check does not. -/
theorem invalidConfigurationRecordsErrorOne : Obligations.InvalidConfigurationRecordsErrorOne := by
  intro sb sc s hv
  have hw : (!validConfig s.midx sb) = true := by rw [hv]; rfl
  exact ⟨fun hc => exec_of_configWrong hc hw, fun hc => exec_of_configWrong hc hw⟩

end Sys2Proof.Machine
end

section
/-! PROOFS of 70_reset_and_hazards.md: what a block reset leaves in the registers of the window and in
the state, and that the invariant holds there. -/

namespace Sys2Proof.Machine

open Safety

/-- The state after reset is a state that a reset leaves. -/
theorem reset_eq_blockReset : State.reset = blockReset thisBlock State.reset := rfl

/-- A pending reset is performed over the state as it stands (70_reset_and_hazards.md R262). -/
theorem step_reset (s : State) : step (placeEvents [.reset] s) = .next (blockReset thisBlock s) := by
  rw [step_placeEvents, placeEvents_nil]; rfl

theorem zeroLine_thisBlock : zeroLine thisBlock = List.replicate 19 0 := rfl

/-- The first 32 registers after a block reset (10_state.md R33, the reset column). -/
theorem map_readReg_blockReset (s : State) :
    lowRegs.map (readReg thisBlock (blockReset thisBlock s)) =
      [0x414D4D31#32, 0x00000913#32, 0#32, 0#32, 0#32, 0#32, 0#32, 0#32] ++
      List.replicate 16 0#32 ++
      [0#32, 0#32, 0x3CA3D70A#32, 0x3951B717#32, 0x3F000000#32, 0#32, 0#32, 0#32] := by
  simp only [lowRegs, List.map_cons, List.map_nil, readReg, paramWord_thisBlock, blockReset_status,
    blockReset_errflags, blockReset_midx, blockReset_cfo, blockReset_modX, blockReset_demYre,
    blockReset_demYim, blockReset_mod, blockReset_dem]
  rfl

/-- Settles O26: the window holds what any block reset leaves in the first 32 registers and then the
taps, which are constants; the fields are those of `State.resetOf` with the host's side kept. -/
theorem resetClearsTheBlock : Obligations.ResetClearsTheBlock := by
  refine ⟨?_, fun s => ⟨s.hostSide, ?_⟩⟩
  · rw [reset_eq_blockReset, map_memRead_window, map_readReg_blockReset, map_coef_thisBlock]; rfl
  · rw [step_reset, blockReset, State.resetOf, initMod, initDem, zeroLine_thisBlock]; rfl

/-- Settles O57: a reset meets the invariant wherever the host variables are sorted, and an idle host
has none. -/
theorem resetMeetsTheInvariant : Obligations.ResetMeetsTheInvariant :=
  inv_blockReset (s := State.reset) rfl

end Sys2Proof.Machine
end
